-- ==== Sys2Proof/Word.lean ====
section
/-! DEFINITION. The machine word and the register index (00_scope.md R6, R7; 10_state.md R20). -/

namespace Sys2Proof

/-- A 32-bit two's-complement value (R6, R7). `+`, `-` and `*` of `BitVec 32` are the mathematical operation
followed by `wrap`; comparisons of the spec are on the signed value, `BitVec.toInt`. -/
abbrev Word := BitVec 32

/-- A general register's index, 0 to 31 (R20). -/
abbrev Reg := Fin 32

end Sys2Proof
end

