-- ==== Sys2Proof/Syntax.lean ====
section
/-! DEFINITION. The seventeen instructions (00_scope.md R2; 30_encoding.md R84, R94), in the order of their opcode numbers. -/

namespace Sys2Proof

/-- One instruction of the instruction store: its opcode with exactly the fields that opcode uses (10_state.md R39;
30_encoding.md R84). Operands stand in the assembler's order (R94). -/
inductive Instr where
  | store (rs1 rs2 : Reg) (imm : Word)
  | str (rs1 rs2 rs3 : Reg)
  | load (rd rs1 : Reg) (imm : Word)
  | ldr (rd rs1 rs2 : Reg)
  | add (rd rs1 rs2 : Reg)
  | sub (rd rs1 rs2 : Reg)
  | mul (rd rs1 rs2 : Reg)
  | and (rd rs1 rs2 : Reg)
  | or (rd rs1 rs2 : Reg)
  | exor (rd rs1 rs2 : Reg)
  | addl (rd rs1 : Reg) (imm : Word)
  | subl (rd rs1 : Reg) (imm : Word)
  | movc (rd : Reg) (imm : Word)
  | bz (imm : Word)
  | bnz (imm : Word)
  | jump (rs1 : Reg) (imm : Word)
  | halt
  deriving DecidableEq, Repr

end Sys2Proof
end

