-- ==== Sys2Proof/Decode.lean ====
section
/-! DEFINITION. The 64-bit interchange word: its decoder, and the encoder after it (30_encoding.md R81 to R91). -/

namespace Sys2Proof

/-- Why a word is no instruction (R83, R87). -/
inductive DecodeError where
  /-- `UNKNOWN_OPCODE`: the field `opc` holds 0 or 18 to 63. -/
  | unknownOpcode
  deriving DecidableEq, Repr

/-- `w[63:58]` (R81). -/
def opcField (w : BitVec 64) : BitVec 6 := w.extractLsb' 58 6

/-- A five-bit register field whose lowest bit is bit `lo` (R81). -/
def regField (lo : Nat) (w : BitVec 64) : Reg := (w.extractLsb' lo 5).toFin

/-- `w[57:53]` (R81). -/
def rdField (w : BitVec 64) : Reg := regField 53 w
/-- `w[52:48]` (R81). -/
def rs1Field (w : BitVec 64) : Reg := regField 48 w
/-- `w[47:43]` (R81). -/
def rs2Field (w : BitVec 64) : Reg := regField 43 w
/-- `w[42:38]` (R81). -/
def rs3Field (w : BitVec 64) : Reg := regField 38 w

/-- `w[31:0]`, a whole Word: `sext_32` is the identity (R83, R85). -/
def immField (w : BitVec 64) : Word := w.extractLsb' 0 32

/-- `decode64` of R83: total on every word, rejecting an unassigned opcode by name. Bits `w[37:32]` and the fields an
opcode does not use are ignored (R86). -/
def decode64 (w : BitVec 64) : Except DecodeError Instr :=
  match (opcField w).toNat with
  | 1 => .ok (.store (rs1Field w) (rs2Field w) (immField w))
  | 2 => .ok (.str (rs1Field w) (rs2Field w) (rs3Field w))
  | 3 => .ok (.load (rdField w) (rs1Field w) (immField w))
  | 4 => .ok (.ldr (rdField w) (rs1Field w) (rs2Field w))
  | 5 => .ok (.add (rdField w) (rs1Field w) (rs2Field w))
  | 6 => .ok (.sub (rdField w) (rs1Field w) (rs2Field w))
  | 7 => .ok (.mul (rdField w) (rs1Field w) (rs2Field w))
  | 8 => .ok (.and (rdField w) (rs1Field w) (rs2Field w))
  | 9 => .ok (.or (rdField w) (rs1Field w) (rs2Field w))
  | 10 => .ok (.exor (rdField w) (rs1Field w) (rs2Field w))
  | 11 => .ok (.addl (rdField w) (rs1Field w) (immField w))
  | 12 => .ok (.subl (rdField w) (rs1Field w) (immField w))
  | 13 => .ok (.movc (rdField w) (immField w))
  | 14 => .ok (.bz (immField w))
  | 15 => .ok (.bnz (immField w))
  | 16 => .ok (.jump (rs1Field w) (immField w))
  | 17 => .ok .halt
  | _ => .error .unknownOpcode

/-- The instruction a row of the opcode table decodes to. An instruction is one 64-bit word (R89), so the row's bits are
the word's bits, those above `nbits` being 0 (log 8). -/
def decodeTableWord (nbits w : Nat) : Option Instr :=
  match decode64 (BitVec.ofNat 64 (w % 2 ^ nbits)) with
  | .ok i => some i
  | .error _ => none

/-! ### The encoder -/

/-- The fields of R81 side by side, bits `w[37:32]` written as 0. -/
def packWord (opc : BitVec 6) (rd rs1 rs2 rs3 : Reg) (imm : Word) : BitVec 64 :=
  opc ++ BitVec.ofFin (w := 5) rd ++ BitVec.ofFin (w := 5) rs1 ++ BitVec.ofFin (w := 5) rs2
    ++ BitVec.ofFin (w := 5) rs3 ++ (0 : BitVec 6) ++ imm

/-- The opcode number of R82. -/
def opcodeNumber : Instr → BitVec 6
  | .store .. => 1
  | .str .. => 2
  | .load .. => 3
  | .ldr .. => 4
  | .add .. => 5
  | .sub .. => 6
  | .mul .. => 7
  | .and .. => 8
  | .or .. => 9
  | .exor .. => 10
  | .addl .. => 11
  | .subl .. => 12
  | .movc .. => 13
  | .bz .. => 14
  | .bnz .. => 15
  | .jump .. => 16
  | .halt => 17

/-- `encode64` of R91: a field the opcode does not use is written as 0. -/
def encode64 (i : Instr) : BitVec 64 :=
  let opc := opcodeNumber i
  match i with
  | .store rs1 rs2 imm => packWord opc 0 rs1 rs2 0 imm
  | .str rs1 rs2 rs3 => packWord opc 0 rs1 rs2 rs3 0
  | .load rd rs1 imm => packWord opc rd rs1 0 0 imm
  | .ldr rd rs1 rs2 => packWord opc rd rs1 rs2 0 0
  | .add rd rs1 rs2 => packWord opc rd rs1 rs2 0 0
  | .sub rd rs1 rs2 => packWord opc rd rs1 rs2 0 0
  | .mul rd rs1 rs2 => packWord opc rd rs1 rs2 0 0
  | .and rd rs1 rs2 => packWord opc rd rs1 rs2 0 0
  | .or rd rs1 rs2 => packWord opc rd rs1 rs2 0 0
  | .exor rd rs1 rs2 => packWord opc rd rs1 rs2 0 0
  | .addl rd rs1 imm => packWord opc rd rs1 0 0 imm
  | .subl rd rs1 imm => packWord opc rd rs1 0 0 imm
  | .movc rd imm => packWord opc rd 0 0 0 imm
  | .bz imm => packWord opc 0 0 0 0 imm
  | .bnz imm => packWord opc 0 0 0 0 imm
  | .jump rs1 imm => packWord opc 0 rs1 0 0 imm
  | .halt => packWord opc 0 0 0 0 0

end Sys2Proof
end

