-- ==== Sys2Proof/Config.lean ====
section
/-! DEFINITION. What the spec fixes for this hardware (00_scope.md R6), and the two parameter values State.reset uses. -/

namespace Sys2Proof.Config

/-- `IMEM_BASE`, the address of instruction 0 (R6, decision D3). -/
def imemBase : Nat := 4000

/-- `IW`, the distance between the addresses of consecutive instructions (R6, decision D3). -/
def instrWidth : Nat := 4

/-- `NMAX`, the largest loadable program (R6, R92). -/
def nMax : Nat := 536869911

/-- DESIGN CHOICE (log 3): `DMEM_SIZE` in State.reset. The spec leaves it open (D2); this is the value the test
vectors assume (95_test_vectors.md section 0). Unsafe for a claim that rests on the number. -/
def resetDmemSize : Nat := 4096

/-- DESIGN CHOICE (log 3): `MAX_CYCLES` in State.reset. The spec leaves it open (D20); this is the value the test
vectors assume (95_test_vectors.md section 0). Unsafe for a claim that rests on the number. -/
def resetMaxCycles : Nat := 10000

end Sys2Proof.Config
end

