-- ==== Sys2Proof/WellFormed.lean ====
section
/-! DEFINITION. The records a loader is given and when they are well formed (10_state.md R39; 30_encoding.md R80, R86 to
R88, R92). An `Instr` is well formed by its types; what can be ill formed is the raw record. -/

namespace Sys2Proof

/-- The operand fields of a record (R39). -/
inductive RecordField where
  | rd | rs1 | rs2 | rs3 | imm
  deriving DecidableEq, Repr

/-- A raw record `{op, rd, rs1, rs2, rs3, imm}` as the loader gets it (R80). The opcode is its number in R82, any other
number standing for an opcode outside the seventeen; a register field is an integer or none; the immediate is an
integer (log 15). -/
structure Record where
  op : Nat
  rd : Option Int := none
  rs1 : Option Int := none
  rs2 : Option Int := none
  rs3 : Option Int := none
  imm : Int := 0
  deriving DecidableEq, Repr

/-- The "fields used" column of R84, by opcode number. -/
def fieldsUsed : Nat → List RecordField
  | 1 => [.rs1, .rs2, .imm]
  | 2 => [.rs1, .rs2, .rs3]
  | 3 => [.rd, .rs1, .imm]
  | 4 | 5 | 6 | 7 | 8 | 9 | 10 => [.rd, .rs1, .rs2]
  | 11 | 12 => [.rd, .rs1, .imm]
  | 13 => [.rd, .imm]
  | 14 | 15 => [.imm]
  | 16 => [.rs1, .imm]
  | _ => []

/-- The opcode is one of the seventeen (R82, R87). -/
def knownOpcode (op : Nat) : Bool := 1 ≤ op && op ≤ 17

/-- A used register field holds an index from 0 to 31 (R88). -/
def registerOk : Option Int → Bool
  | none => false
  | some n => 0 ≤ n && n ≤ 31

/-- The immediate is a Word (R88). -/
def immediateOk (n : Int) : Bool := -2 ^ 31 ≤ n && n ≤ 2 ^ 31 - 1

/-- One field's check; a field the opcode does not use is not checked (R86). -/
def fieldOk (r : Record) : RecordField → Bool
  | .rd => registerOk r.rd
  | .rs1 => registerOk r.rs1
  | .rs2 => registerOk r.rs2
  | .rs3 => registerOk r.rs3
  | .imm => immediateOk r.imm

/-- A record that passes every check of R87 and R88. -/
def recordWellFormed (r : Record) : Bool :=
  knownOpcode r.op && (fieldsUsed r.op).all (fieldOk r)

/-- A program that passes every check of a load (R87, R88, R92). -/
def programWellFormed (prog : List Record) : Bool :=
  decide (prog.length ≤ Config.nMax) && prog.all recordWellFormed

end Sys2Proof
end

