-- ==== Sys2Proof/Machine/State.lean ====
section
/-! DEFINITION. The core's state as plain data, its reset value, and the reasons a step can stop (10_state.md;
60_exceptions.md R241; 70_reset_and_hazards.md R270). -/

namespace Sys2Proof.Machine

/-- The seven stages (00_scope.md R3). -/
inductive Stage where
  | fetch | decode | execute1 | execute2 | memory1 | memory2 | writeback
  deriving DecidableEq, Repr

/-- The latch record of R34. `ins` is its `op`, `rd`, `rs1`, `rs2`, `rs3` and `imm` (log 7). -/
structure Latch where
  ins : Instr
  rs1Val : Word
  rs2Val : Word
  rs3Val : Word
  memAddr : Word
  buffer : Word
  target : Word
  pc : Word
  flushed : Bool
  isArith : Bool
  deriving DecidableEq, Repr

/-- A stage slot: a latch with `valid = 1`, or a bubble, all bubbles being equal (R35). -/
abbrev Slot := Option Latch

/-- The seven slots `L[F]` to `L[W]` (R34). -/
structure Latches where
  f : Slot
  d : Slot
  e1 : Slot
  e2 : Slot
  m1 : Slot
  m2 : Slot
  w : Slot
  deriving DecidableEq, Repr

/-- The five stage control bits of R33. -/
structure StageBits where
  fBusy : Bool
  fStalled : Bool
  dBusy : Bool
  dStalled : Bool
  mulPending : Bool
  deriving DecidableEq, Repr

/-- The data store: the non-zero cells by address, one whole Word a cell (R37; 20_memory.md R60; log 2). -/
abbrev Memory := List (Nat × Word)

/-- The canonical form: addresses strictly rising, and no cell listed that holds what an unlisted one reads as. -/
abbrev Memory.wf (m : Memory) : Prop :=
  m.Pairwise (fun c e => c.1 < e.1) ∧ ∀ c ∈ m, c.2 ≠ 0

/-- The whole state of the core (10_state.md; R41). -/
structure State where
  /-- `R[0..31]` (R20). -/
  regs : Vector Word 32
  /-- `SB[0..31]`, the pending-write counters (R22; log 14). -/
  sb : Vector Nat 32
  /-- `DM` (R37). -/
  dm : Memory
  /-- The fetch program counter (R26). -/
  pc : Word
  /-- The zero flag (R28). -/
  z : Bool
  /-- `halt_pending` (R29). -/
  haltPending : Bool
  /-- The completed-instruction counter (R30). -/
  completed : Nat
  /-- The clock counter (R31). -/
  clock : Nat
  /-- Set by the commit of HALT (R32). -/
  stopped : Bool
  /-- `L[F]` to `L[W]` (R34). -/
  latches : Latches
  /-- The stage control bits (R33). -/
  bits : StageBits
  /-- `IMEM`, the loaded program (R38). -/
  imem : List Instr
  /-- `DMEM_SIZE`, sent with the load (R6, R253). -/
  dmemSize : Nat
  /-- `MAX_CYCLES`, sent with the load (R6, R253). -/
  maxCycles : Nat
  /-- The MODEL's own: the transition of the cycle order of R102 that is running, and the last one run between cycles
  (log 1). -/
  stage : Stage
  deriving DecidableEq, Repr

/-- The bubble in every slot (R35). -/
def Latches.empty : Latches :=
  { f := none, d := none, e1 := none, e2 := none, m1 := none, m2 := none, w := none }

/-- Every stage control bit 0. -/
def StageBits.clear : StageBits :=
  { fBusy := false, fStalled := false, dBusy := false, dStalled := false, mulPending := false }

/-- The state after a load of `prog` with the two parameters (R41, R270). -/
def State.resetWith (prog : List Instr) (dmemSize maxCycles : Nat) : State :=
  { regs := Vector.replicate 32 0
    sb := Vector.replicate 32 0
    dm := []
    pc := BitVec.ofNat 32 Config.imemBase
    z := true
    haltPending := false
    completed := 0
    clock := 0
    stopped := false
    latches := Latches.empty
    bits := StageBits.clear
    imem := prog
    dmemSize := dmemSize
    maxCycles := maxCycles
    stage := .fetch }

/-- The machine right after reset with nothing loaded: the empty program, and the parameter values of Config
(R41, R270; log 3, log 4). -/
def State.reset : State := State.resetWith [] Config.resetDmemSize Config.resetMaxCycles

/-- The faults of R241. Each ends the run. A run-time fault carries the state as it stood at the raise (R243; log 6). -/
inductive Fault where
  /-- Raised by `load` for instruction `index`, whose opcode is not one of the seventeen (R87). Safe: the spec's own. -/
  | unknownOpcode (index : Nat)
  /-- Raised by `load` for a used register field that is none or outside 0 to 31 (R88). Safe: the spec's own. -/
  | badRegister (index : Nat) (field : RecordField)
  /-- Raised by `load` for an immediate that is no Word (R88). Safe: the spec's own. -/
  | badImmediate (index : Nat)
  /-- Raised by `load` for a program of more than NMAX instructions (R92). Safe: the spec's own. -/
  | programTooLarge (count : Nat)
  /-- Raised in Memory2 by LOAD, LDR, STORE and STR for an address outside the data store (R61). Safe: the spec's own. -/
  | dmemOutOfRange (addr : Word) (left : State)
  /-- Raised in Writeback, the squash and HALT's clearing by a release that finds the counter 0 (R24). Safe: the spec's own. -/
  | scoreboardUnderflow (reg : Reg) (left : State)
  /-- Raised by the driver when the pipeline is drained and pc is neither fetchable nor the end (R116). Safe: the spec's own. -/
  | fetchOutOfRange (pc : Word) (left : State)
  /-- Raised by the driver when MAX_CYCLES cycles have run (R118). Safe: the spec's own. -/
  | liveness (cycles : Nat) (left : State)
  deriving DecidableEq, Repr

/-- Why the model has no meaning for a step. -/
inductive Refusal where
  /-- Raised by an arm of exec whose instruction has no meaning yet. No arm is left so. Safe: the model stops. -/
  | notModelled (mnemonic : String)
  /-- Raised by `load`, never by a step, for a parameter that is 0: R6 takes both to be at least 1 and names no check
  (log 10). Safe: the model stops. -/
  | parameterBelowOne
  deriving DecidableEq, Repr

/-- What a transition, an instruction or a step answers. -/
abbrev Result := Host.Outcome State Fault Refusal

end Sys2Proof.Machine
end

