-- ==== Sys2Proof/Machine/Flags.lean ====
section
/-! DEFINITION. The one flag of the core (10_state.md R28; 42_arithmetic.md R180): there is no carry, sign or overflow flag. -/

namespace Sys2Proof.Machine

/-- `Z <- 1 if buffer = 0 else 0` (R180). -/
def zeroFlag (result : Word) : Bool := result == 0

/-- BZ is taken when `Z = 1` (R211). -/
def takenIfZero (z : Bool) : Bool := z

/-- BNZ is taken when `Z = 0` (R212). -/
def takenIfNotZero (z : Bool) : Bool := !z

end Sys2Proof.Machine
end

