-- ==== Sys2Proof/Machine/Operands.lean ====
section
/-! DEFINITION. The operand classifications of 30_encoding.md R84 and the operand values an instruction works on. -/

namespace Sys2Proof.Machine

/-- The register of the field `rs1`, where `sources(op)` lists it (R84). -/
def source1 : Instr → Option Reg
  | .store rs1 _ _ | .str rs1 _ _ | .load _ rs1 _ | .ldr _ rs1 _ | .add _ rs1 _ | .sub _ rs1 _ | .mul _ rs1 _
  | .and _ rs1 _ | .or _ rs1 _ | .exor _ rs1 _ | .addl _ rs1 _ | .subl _ rs1 _ | .jump rs1 _ => some rs1
  | .movc _ _ | .bz _ | .bnz _ | .halt => none

/-- The register of the field `rs2`, where `sources(op)` lists it (R84). -/
def source2 : Instr → Option Reg
  | .store _ rs2 _ | .str _ rs2 _ | .ldr _ _ rs2 | .add _ _ rs2 | .sub _ _ rs2 | .mul _ _ rs2
  | .and _ _ rs2 | .or _ _ rs2 | .exor _ _ rs2 => some rs2
  | .load _ _ _ | .addl _ _ _ | .subl _ _ _ | .movc _ _ | .bz _ | .bnz _ | .jump _ _ | .halt => none

/-- The register of the field `rs3`, where `sources(op)` lists it: STR only (R84, R164). -/
def source3 : Instr → Option Reg
  | .str _ _ rs3 => some rs3
  | .store _ _ _ | .load _ _ _ | .ldr _ _ _ | .add _ _ _ | .sub _ _ _ | .mul _ _ _ | .and _ _ _ | .or _ _ _
  | .exor _ _ _ | .addl _ _ _ | .subl _ _ _ | .movc _ _ | .bz _ | .bnz _ | .jump _ _ | .halt => none

/-- `sources(op)` with the registers it names (R84). -/
def sources (i : Instr) : List Reg :=
  (source1 i).toList ++ (source2 i).toList ++ (source3 i).toList

/-- The destination register, where `hasDest(op)` (R84). -/
def dest : Instr → Option Reg
  | .load rd _ _ | .ldr rd _ _ | .add rd _ _ | .sub rd _ _ | .mul rd _ _ | .and rd _ _ | .or rd _ _
  | .exor rd _ _ | .addl rd _ _ | .subl rd _ _ | .movc rd _ => some rd
  | .store _ _ _ | .str _ _ _ | .bz _ | .bnz _ | .jump _ _ | .halt => none

/-- `op in ARITH` (R84). -/
def isArithOp : Instr → Bool
  | .add _ _ _ | .sub _ _ _ | .mul _ _ _ | .and _ _ _ | .or _ _ _ | .exor _ _ _ | .addl _ _ _ | .subl _ _ _ => true
  | .store _ _ _ | .str _ _ _ | .load _ _ _ | .ldr _ _ _ | .movc _ _ | .bz _ | .bnz _ | .jump _ _ | .halt => false

/-- `op in {BZ, BNZ}`, the opcodes the branch stall is for (R108). -/
def isBranchOp : Instr → Bool
  | .bz _ | .bnz _ => true
  | .store _ _ _ | .str _ _ _ | .load _ _ _ | .ldr _ _ _ | .add _ _ _ | .sub _ _ _ | .mul _ _ _ | .and _ _ _
  | .or _ _ _ | .exor _ _ _ | .addl _ _ _ | .subl _ _ _ | .movc _ _ | .jump _ _ | .halt => false

/-- `op = HALT`. -/
def isHaltOp : Instr → Bool
  | .halt => true
  | .store _ _ _ | .str _ _ _ | .load _ _ _ | .ldr _ _ _ | .add _ _ _ | .sub _ _ _ | .mul _ _ _ | .and _ _ _
  | .or _ _ _ | .exor _ _ _ | .addl _ _ _ | .subl _ _ _ | .movc _ _ | .bz _ | .bnz _ | .jump _ _ => false

/-! ### Effective addresses and targets (Execute1) -/

/-- `rs1_val + imm` (LOAD R161, JUMP R213). -/
def rs1PlusImm (imm : Word) (e : Latch) : Word := e.rs1Val + imm

/-- `rs1_val + rs2_val` (LDR R162). -/
def rs1PlusRs2 (e : Latch) : Word := e.rs1Val + e.rs2Val

/-- `rs2_val + imm` (STORE R163). -/
def rs2PlusImm (imm : Word) (e : Latch) : Word := e.rs2Val + imm

/-- `rs2_val + rs3_val` (STR R164). -/
def rs2PlusRs3 (e : Latch) : Word := e.rs2Val + e.rs3Val

/-- The branch's own address plus its immediate (R210). -/
def branchTarget (imm : Word) (e : Latch) : Word := e.pc + imm

/-! ### Results of the arithmetic class (R181 to R188) -/

/-- `wrap(a + b)` (ADD R181, ADDL R187). -/
def aluAdd (a b : Word) : Word := a + b
/-- `wrap(a - b)` (SUB R182, SUBL R188). -/
def aluSub (a b : Word) : Word := a - b
/-- `wrap(a * b)`, the low 32 bits of the product (MUL R183). -/
def aluMul (a b : Word) : Word := a * b
/-- Bitwise and (AND R184). PRESUMED in R180 itself: the reading of the mnemonic (log 11). -/
def aluAnd (a b : Word) : Word := a &&& b
/-- Bitwise inclusive or (OR R185). PRESUMED in R180 itself: the reading of the mnemonic (log 11). -/
def aluOr (a b : Word) : Word := a ||| b
/-- Bitwise exclusive or (EXOR R186). PRESUMED in R180 itself: the reading of the mnemonic (log 11). -/
def aluExor (a b : Word) : Word := a ^^^ b

end Sys2Proof.Machine
end

