-- ==== Sys2Proof/Machine/Ops.lean ====
section
/-! DEFINITION. The named operations on the state, and the stage transitions every instruction goes through
(40_pipeline.md R103 to R115; 10_state.md R24; 20_memory.md R61; 43_control.md R215). An action at an empty slot does what a
bubble does (log 9). -/

namespace Sys2Proof.Machine

/-! ### Sequencing (R10, R243) -/

/-- Do `f` after `r`; a raise in `r` ends both (R243). -/
def andThen (r : Result) (f : State → Result) : Result :=
  match r with
  | .next s => f s
  | .fault e => .fault e
  | .refused e => .refused e

/-! ### One update for each piece of state -/

/-- `R[r]` (R9). -/
def reg (s : State) (r : Reg) : Word := s.regs.get r
/-- `SB[r]` (R9). -/
def pending (s : State) (r : Reg) : Nat := s.sb.get r
/-- `R[r] <- v` (R9). Every register is ordinary, `R[0]` too (R20). -/
def setReg (s : State) (r : Reg) (v : Word) : State := { s with regs := s.regs.set r.val v r.isLt }
/-- `SB[r] <- n`. -/
def setPending (s : State) (r : Reg) (n : Nat) : State := { s with sb := s.sb.set r.val n r.isLt }
/-- The data store replaced. -/
def setDm (s : State) (m : Memory) : State := { s with dm := m }
/-- `pc <- a`. -/
def setPc (s : State) (a : Word) : State := { s with pc := a }
/-- `Z <- b`. -/
def setZ (s : State) (b : Bool) : State := { s with z := b }
/-- `halt_pending <- b`. -/
def setHaltPending (s : State) (b : Bool) : State := { s with haltPending := b }
/-- `completed <- n`. -/
def setCompleted (s : State) (n : Nat) : State := { s with completed := n }
/-- `clock <- n`. -/
def setClock (s : State) (n : Nat) : State := { s with clock := n }
/-- `stopped <- b`. -/
def setStopped (s : State) (b : Bool) : State := { s with stopped := b }
/-- The stage control bits replaced. -/
def setBits (s : State) (b : StageBits) : State := { s with bits := b }
/-- The place in the cycle. -/
def setStage (s : State) (st : Stage) : State := { s with stage := st }

/-- `L[st]` of a set of latches. -/
def getLatch (l : Latches) : Stage → Slot
  | .fetch => l.f
  | .decode => l.d
  | .execute1 => l.e1
  | .execute2 => l.e2
  | .memory1 => l.m1
  | .memory2 => l.m2
  | .writeback => l.w

/-- `L[st] <- x` in a set of latches. -/
def putLatch (l : Latches) (st : Stage) (x : Slot) : Latches :=
  match st with
  | .fetch => { l with f := x }
  | .decode => { l with d := x }
  | .execute1 => { l with e1 := x }
  | .execute2 => { l with e2 := x }
  | .memory1 => { l with m1 := x }
  | .memory2 => { l with m2 := x }
  | .writeback => { l with w := x }

/-- `L[st]` (R9). -/
def slot (s : State) (st : Stage) : Slot := getLatch s.latches st
/-- `L[st] <- x`. -/
def setSlot (s : State) (st : Stage) (x : Slot) : State := { s with latches := putLatch s.latches st x }

/-! ### The data store (R61) -/

/-- The cell `a`: what is listed, and 0 where nothing is (R41). -/
def readCell : Memory → Nat → Word
  | [], _ => 0
  | (b, v) :: m, a => if a = b then v else readCell m a

/-- The cell `a` replaced, the canonical form kept: writing 0 removes the entry. -/
def writeCell : Memory → Nat → Word → Memory
  | [], a, v => if v = 0 then [] else [(a, v)]
  | (b, x) :: m, a, v =>
    if a < b then if v = 0 then (b, x) :: m else (a, v) :: (b, x) :: m
    else if a = b then if v = 0 then m else (a, v) :: m
    else (b, x) :: writeCell m a v

/-- `0 <= a < DMEM_SIZE` on the signed value (R61, decision D34). -/
def inDataStore (s : State) (a : Word) : Bool := decide (0 ≤ a.toInt) && decide (a.toInt < (s.dmemSize : Int))

/-- `DMRead(a)`, going on with the value read (R61). -/
def dmRead (s : State) (a : Word) (k : Word → Result) : Result :=
  if inDataStore s a then k (readCell s.dm a.toNat) else .fault (.dmemOutOfRange a s)

/-- `DMWrite(a, v)` (R61). -/
def dmWrite (s : State) (a v : Word) : Result :=
  if inDataStore s a then .next (setDm s (writeCell s.dm a.toNat v)) else .fault (.dmemOutOfRange a s)

/-! ### The scoreboard (R24) -/

/-- `Claim(r)`. -/
def claim (s : State) (r : Reg) : State := setPending s r (pending s r + 1)

/-- `Release(r)`: never below 0. -/
def release (s : State) (r : Reg) : Result :=
  if pending s r = 0 then .fault (.scoreboardUnderflow r s) else .next (setPending s r (pending s r - 1))

/-! ### Slots: advance, squash and HALT's clearing (R103, R114, R215) -/

/-- `Advance(S, T)` (R103). -/
def advance (s : State) (src dst : Stage) : State := setSlot (setSlot s dst (slot s src)) src none

/-- Release what the instruction in a slot has claimed, and empty the slot: one round of the loop of R114 and R215. -/
def dropSlot (st : Stage) (s : State) : Result :=
  andThen (match (slot s st).bind (fun l => dest l.ins) with
    | some r => release s r
    | none => .next s)
    (fun t => .next (setSlot t st none))

/-- `ClearUpstream()` (R215), which is also the first half of `Squash()` (R114): M1, E2, E1 in that order, then D. -/
def clearUpstream (s : State) : Result :=
  andThen (dropSlot .memory1 s) fun s =>
  andThen (dropSlot .execute2 s) fun s =>
  andThen (dropSlot .execute1 s) fun s =>
  .next (setSlot s .decode none)

/-- `Squash()` (R114). -/
def squash (s : State) : Result :=
  andThen (clearUpstream s) fun s => .next (setHaltPending (setBits s StageBits.clear) false)

/-! ### Fetch (R104) -/

/-- Fetch is held: `F.busy = 1 or F.stalled = 1`. -/
def fetchHeld (s : State) : Bool := s.bits.fBusy || s.bits.fStalled

/-- The record Fetch makes of the instruction at `pc`. -/
def fetchedLatch (i : Instr) (pc : Word) : Latch :=
  { ins := i, pc := pc, rs1Val := 0, rs2Val := 0, rs3Val := 0, memAddr := 0, buffer := 0, target := 0,
    flushed := false, isArith := false }

/-- `pc <- pc + IW`. -/
def nextPc (pc : Word) : Word := pc + BitVec.ofNat 32 Config.instrWidth

/-- Fetch with the instruction it has read at `pc`. -/
def fetchInstr (i : Instr) (s : State) : State :=
  let f := some (fetchedLatch i s.pc)
  let s := setSlot s .fetch f
  if fetchHeld s then s else setPc (setSlot s .decode f) (nextPc s.pc)

/-- Fetch with a bubble: `halt_pending = 1`, or `pc` is not fetchable. -/
def fetchBubble (s : State) : State :=
  let s := setSlot s .fetch none
  if fetchHeld s then s else setSlot s .decode none

/-! ### Decode (R105 to R109) -/

/-- Every source register is ready (R107). -/
def sourcesReady (s : State) (i : Instr) : Bool := (sources i).all (fun r => pending s r == 0)

/-- `L[st].valid = 1 and L[st].is_arith = 1`. -/
def arithIn (s : State) (st : Stage) : Bool := (slot s st).any (·.isArith)

/-- `brstall` (R108): for BZ and BNZ only. -/
def branchStall (s : State) (i : Instr) : Bool :=
  isBranchOp i && (arithIn s .memory2 || arithIn s .writeback)

/-- `D.stalled <- b; F.stalled <- b`. -/
def setStalls (s : State) (b : Bool) : State := setBits s { s.bits with dStalled := b, fStalled := b }

/-- `d.f_val <- R[d.f]` for a field of `sources(op)`; an unused one keeps what Fetch put there, 0 (R34, R109). -/
def sourceValue (s : State) (src : Option Reg) (old : Word) : Word :=
  match src with
  | some r => reg s r
  | none => old

/-- The latch with its source values read and `is_arith` set (R109). -/
def readSources (s : State) (i : Instr) (d : Latch) : Latch :=
  { d with rs1Val := sourceValue s (source1 i) d.rs1Val, rs2Val := sourceValue s (source2 i) d.rs2Val,
           rs3Val := sourceValue s (source3 i) d.rs3Val, isArith := isArithOp i }

/-- `if hasDest(op): Claim(rd)` (R109). -/
def claimDest (s : State) (i : Instr) : State :=
  match dest i with
  | some r => claim s r
  | none => s

/-- `if op = HALT: halt_pending <- 1` (R109, R215). -/
def haltInDecode (s : State) (i : Instr) : State := if isHaltOp i then setHaltPending s true else s

/-- Decode advances `d` (R109): the sources are read before the destination is claimed. -/
def decodeAdvance (s : State) (i : Instr) (d : Latch) : State :=
  let d := readSources s i d
  let s := haltInDecode (claimDest s i) i
  advance (setSlot (setStalls s false) .decode (some d)) .decode .execute1

/-- Decode with a bubble (R105, R106). -/
def decodeBubble (s : State) : State := if s.bits.dBusy then s else setStalls s false

/-- Decode with the instruction `i` in its slot (R105 to R109). -/
def decodeInstr (i : Instr) (s : State) : State :=
  match slot s .decode with
  | none => decodeBubble s
  | some d =>
    if s.bits.dBusy then s
    else if !sourcesReady s i || branchStall s i then setStalls s true
    else decodeAdvance s i d

/-! ### Execute1 (R110) -/

/-- Execute1 with an instruction whose action changes its own latch only. -/
def execute1 (act : Latch → Latch) (s : State) : Result :=
  match slot s .execute1 with
  | none => .next s
  | some e => .next (advance (setSlot s .execute1 (some (act e))) .execute1 .execute2)

/-- The effective address into `mem_addr` (R160). -/
def addressE1 (addr : Latch → Word) : State → Result := execute1 fun e => { e with memAddr := addr e }

/-- The arithmetic action: result and zero flag (R180). -/
def arithE1 (result : Latch → Word) (s : State) : Result :=
  match slot s .execute1 with
  | none => .next s
  | some e => execute1 (fun e => { e with buffer := result e }) (setZ s (zeroFlag (result e)))

/-- The bits a multiply sets in its first cycle and clears in its second (R183). -/
def freeze (b : Bool) : StageBits :=
  { fBusy := b, fStalled := b, dBusy := b, dStalled := b, mulPending := b }

/-- MUL's action: it holds in its first cycle (R183). -/
def multiplyE1 (result : Latch → Word) (s : State) : Result :=
  match slot s .execute1 with
  | none => .next s
  | some _ =>
    if s.bits.mulPending then arithE1 result (setBits s (freeze false))
    else .next (setBits s (freeze true))

/-- The branch decision (R211, R212): `taken` of the zero flag. -/
def branchE1 (taken : Bool → Bool) (target : Latch → Word) (s : State) : Result :=
  execute1 (fun e => if taken s.z then { e with target := target e, flushed := false }
    else { e with target := 0, flushed := true }) s

/-- JUMP's redirect (R213). -/
def jumpE1 (target : Latch → Word) (s : State) : Result :=
  match slot s .execute1 with
  | none => .next s
  | some e => execute1 (fun e => { e with target := target e }) (setPc s (target e))

/-- HALT in Execute1 (R215). -/
def haltE1 (s : State) : Result :=
  match slot s .execute1 with
  | none => .next s
  | some _ => execute1 id (setHaltPending s true)

/-! ### Memory2 (R113) -/

/-- An instruction with no Memory2 action. -/
def passM2 (s : State) : Result :=
  match slot s .memory2 with
  | none => .next s
  | some _ => .next (advance s .memory2 .writeback)

/-- `buffer <- DMRead(mem_addr)` (R161, R162). -/
def readM2 (s : State) : Result :=
  match slot s .memory2 with
  | none => .next s
  | some m => dmRead s m.memAddr fun v => passM2 (setSlot s .memory2 (some { m with buffer := v }))

/-- `DMWrite(mem_addr, rs1_val)` (R163, R164). -/
def writeM2 (s : State) : Result :=
  match slot s .memory2 with
  | none => .next s
  | some m => andThen (dmWrite s m.memAddr m.rs1Val) passM2

/-- The redirect and squash of a taken branch; target 0 is not taken (R210). -/
def branchM2 (s : State) : Result :=
  match slot s .memory2 with
  | none => .next s
  | some m => if m.target ≠ 0 then andThen (squash (setPc s m.target)) passM2 else passM2 s

/-- HALT in Memory2 (R215). -/
def haltM2 (s : State) : Result :=
  match slot s .memory2 with
  | none => .next s
  | some _ => andThen (clearUpstream (setHaltPending s true)) passM2

/-! ### Writeback (R115) -/

/-- Release the destination and write it, where there is one. -/
def commitDest (s : State) (i : Instr) (w : Latch) : Result :=
  match dest i with
  | some r => andThen (release s r) fun s => .next (setReg s r w.buffer)
  | none => .next s

/-- Count the commit; HALT's sets `completed` to N and ends the run. -/
def countCommit (s : State) (i : Instr) : State :=
  if isHaltOp i then setStopped (setCompleted s s.imem.length) true else setCompleted s (s.completed + 1)

/-- Writeback with the instruction `i` in its slot. -/
def writebackInstr (i : Instr) (s : State) : Result :=
  match slot s .writeback with
  | none => .next s
  | some w => andThen (commitDest s i w) fun s => .next (setSlot (countCommit s i) .writeback none)

/-! ### One instruction, at the stage the cycle is at (log 1) -/

/-- What a stage does with a bubble (R35, R104, R106, R110 to R115). -/
def bubble (s : State) : State :=
  match s.stage with
  | .fetch => fetchBubble s
  | .decode => decodeBubble s
  | .execute1 => s
  | .execute2 => advance s .execute2 .memory1
  | .memory1 => advance s .memory1 .memory2
  | .memory2 => s
  | .writeback => s

/-- The instruction `i` at the stage the cycle is at: its own Execute1 and Memory2 actions, and the stages that treat all
instructions alike. -/
def stages (i : Instr) (atExecute1 atMemory2 : State → Result) (s : State) : Result :=
  match s.stage with
  | .fetch => .next (fetchInstr i s)
  | .decode => .next (decodeInstr i s)
  | .execute1 => atExecute1 s
  | .execute2 => .next (advance s .execute2 .memory1)
  | .memory1 => .next (advance s .memory1 .memory2)
  | .memory2 => atMemory2 s
  | .writeback => writebackInstr i s

end Sys2Proof.Machine
end

