-- ==== Sys2Proof/Machine/Arithmetic.lean ====
section
/-! DEFINITION. ADD, SUB, MUL, AND, OR, EXOR, ADDL, SUBL, MOVC (42_arithmetic.md R180 to R189). -/

namespace Sys2Proof.Machine

/-- ADD (R181). -/
def execAdd (rd rs1 rs2 : Reg) (s : State) : Result :=
  stages (.add rd rs1 rs2) (arithE1 fun e => aluAdd e.rs1Val e.rs2Val) passM2 s

/-- SUB (R182): the second source is taken from the first. -/
def execSub (rd rs1 rs2 : Reg) (s : State) : Result :=
  stages (.sub rd rs1 rs2) (arithE1 fun e => aluSub e.rs1Val e.rs2Val) passM2 s

/-- MUL (R183): two cycles in Execute1. -/
def execMul (rd rs1 rs2 : Reg) (s : State) : Result :=
  stages (.mul rd rs1 rs2) (multiplyE1 fun e => aluMul e.rs1Val e.rs2Val) passM2 s

/-- AND (R184). -/
def execAnd (rd rs1 rs2 : Reg) (s : State) : Result :=
  stages (.and rd rs1 rs2) (arithE1 fun e => aluAnd e.rs1Val e.rs2Val) passM2 s

/-- OR (R185). -/
def execOr (rd rs1 rs2 : Reg) (s : State) : Result :=
  stages (.or rd rs1 rs2) (arithE1 fun e => aluOr e.rs1Val e.rs2Val) passM2 s

/-- EXOR (R186). -/
def execExor (rd rs1 rs2 : Reg) (s : State) : Result :=
  stages (.exor rd rs1 rs2) (arithE1 fun e => aluExor e.rs1Val e.rs2Val) passM2 s

/-- ADDL (R187). -/
def execAddl (rd rs1 : Reg) (imm : Word) (s : State) : Result :=
  stages (.addl rd rs1 imm) (arithE1 fun e => aluAdd e.rs1Val imm) passM2 s

/-- SUBL (R188). -/
def execSubl (rd rs1 : Reg) (imm : Word) (s : State) : Result :=
  stages (.subl rd rs1 imm) (arithE1 fun e => aluSub e.rs1Val imm) passM2 s

/-- MOVC (R189): the zero flag is not written. -/
def execMovc (rd : Reg) (imm : Word) (s : State) : Result :=
  stages (.movc rd imm) (execute1 fun e => { e with buffer := imm }) passM2 s

end Sys2Proof.Machine
end

