-- ==== Sys2Proof/Machine/Control.lean ====
section
/-! DEFINITION. BZ, BNZ, JUMP, HALT (43_control.md R210 to R215). -/

namespace Sys2Proof.Machine

/-- BZ (R210, R211). -/
def execBz (imm : Word) (s : State) : Result :=
  stages (.bz imm) (branchE1 takenIfZero (branchTarget imm)) branchM2 s

/-- BNZ (R210, R212). -/
def execBnz (imm : Word) (s : State) : Result :=
  stages (.bnz imm) (branchE1 takenIfNotZero (branchTarget imm)) branchM2 s

/-- JUMP (R213, R214): no squash, so the instruction already in Decode runs. -/
def execJump (rs1 : Reg) (imm : Word) (s : State) : Result :=
  stages (.jump rs1 imm) (jumpE1 (rs1PlusImm imm)) passM2 s

/-- HALT (R215). -/
def execHalt (s : State) : Result :=
  stages .halt haltE1 haltM2 s

end Sys2Proof.Machine
end

