-- ==== Sys2Proof/Machine/LoadStore.lean ====
section
/-! DEFINITION. LOAD, LDR, STORE, STR (41_loads_stores.md R160 to R164). -/

namespace Sys2Proof.Machine

/-- STORE (R163): the data comes from rs1, the base from rs2. -/
def execStore (rs1 rs2 : Reg) (imm : Word) (s : State) : Result :=
  stages (.store rs1 rs2 imm) (addressE1 (rs2PlusImm imm)) writeM2 s

/-- STR (R164): the data comes from rs1, base and index from rs2 and rs3. -/
def execStr (rs1 rs2 rs3 : Reg) (s : State) : Result :=
  stages (.str rs1 rs2 rs3) (addressE1 rs2PlusRs3) writeM2 s

/-- LOAD (R161). -/
def execLoad (rd rs1 : Reg) (imm : Word) (s : State) : Result :=
  stages (.load rd rs1 imm) (addressE1 (rs1PlusImm imm)) readM2 s

/-- LDR (R162). -/
def execLdr (rd rs1 rs2 : Reg) (s : State) : Result :=
  stages (.ldr rd rs1 rs2) (addressE1 rs1PlusRs2) readM2 s

end Sys2Proof.Machine
end

