-- ==== Sys2Proof/Machine/Pipeline.lean ====
section
/-! DEFINITION. One cycle, the driver's checks, and a run (40_pipeline.md R100 to R104, R116 to R118; 60_exceptions.md R244). -/

namespace Sys2Proof.Machine

/-- The position in a store of `n` instructions of the fetchable address `a`; none where `a` is not fetchable (R27). -/
def fetchIndex (n : Nat) (a : Word) : Option Nat :=
  let off := a.toInt - (Config.imemBase : Int)
  let idx := (off / (Config.instrWidth : Int)).toNat
  if 0 ≤ off ∧ off % (Config.instrWidth : Int) = 0 ∧ idx < n then some idx else none

/-- `fetchable(a)` (R27). -/
def fetchable (s : State) (a : Word) : Bool := (fetchIndex s.imem.length a).isSome

/-- The instruction at `pc`, where `pc` is fetchable (R27, R104). -/
def instrAtPc (s : State) : Option Instr :=
  (fetchIndex s.imem.length s.pc).bind (s.imem[·]?)

/-- The instruction the stage the cycle is at has before it, none for a bubble. Fetch reads the one at `pc` unless
`halt_pending = 1` (R104); any other stage has the one in its slot (R101). -/
def stageInput (s : State) : Option Instr :=
  match s.stage with
  | .fetch => if s.haltPending then none else instrAtPc s
  | st => (slot s st).map (·.ins)

/-- One stage transition: the instruction's own, or a bubble's. -/
def transition (st : Stage) (s : State) : Result :=
  let s := setStage s st
  match stageInput s with
  | some i => exec i s
  | none => .next (bubble s)

/-- The transitions of a cycle in their order, each seeing what those before it wrote (R102). -/
def runStages : List Stage → State → Result
  | [], s => .next s
  | st :: rest, s => andThen (transition st s) (runStages rest)

/-- The six transitions before Fetch, in reverse pipeline order (R102). -/
def stagesBeforeFetch : List Stage := [.writeback, .memory2, .memory1, .execute2, .execute1, .decode]

/-- `Cycle()` (R102). -/
def cycle (s : State) : Result :=
  runStages (stagesBeforeFetch ++ [.fetch]) (setClock s (s.clock + 1))

/-- `Drained()` (R117). -/
def drained (s : State) : Bool :=
  s.latches.d.isNone && s.latches.e1.isNone && s.latches.e2.isNone && s.latches.m1.isNone && s.latches.m2.isNone
    && s.latches.w.isNone

/-- `IMEM_BASE + IW*N`, the end of the program (R65; log 13). -/
def endAddress (s : State) : Int := (Config.imemBase : Int) + (Config.instrWidth : Int) * (s.imem.length : Int)

/-- How a run ends without a fault (R116). -/
inductive RunEnd where
  | halted
  | endOfProgram
  deriving DecidableEq, Repr

/-- What the driver answers before a cycle (R116). -/
inductive Check where
  | ended (e : RunEnd)
  | fault (f : Fault)
  | goOn
  deriving DecidableEq, Repr

/-- The driver's checks before every cycle, in their order (R116, R244). -/
def driverCheck (s : State) : Check :=
  if s.stopped then .ended .halted
  else if drained s && !fetchable s s.pc then
    if s.pc.toInt = endAddress s then .ended .endOfProgram else .fault (.fetchOutOfRange s.pc s)
  else if s.clock = s.maxCycles then .fault (.liveness s.clock s)
  else .goOn

/-- One round of the driver's loop: a cycle, a fault, or, when the run has ended, the unchanged state (R116, R251; log 5). -/
def driverRound (s : State) : Result :=
  match driverCheck s with
  | .ended _ => .next s
  | .fault f => .fault f
  | .goOn => cycle s

/-- What a run returns (R116, R253): an end with the final state, or a fault with the state it left. -/
inductive RunResult where
  | ended (e : RunEnd) (final : State)
  | fault (f : Fault)
  deriving DecidableEq, Repr

/-- `Run()` for at most `fuel` rounds of its loop; none if no outcome came within them (R116). -/
def runRounds : Nat → State → Option RunResult
  | 0, _ => none
  | fuel + 1, s =>
    match driverCheck s with
    | .ended e => some (.ended e s)
    | .fault f => some (.fault f)
    | .goOn =>
      match cycle s with
      | .next t => runRounds fuel t
      | .fault f => some (.fault f)
      | .refused _ => none

/-- `Run()` (R116): the cap bounds the rounds of its loop (R118; log 12). -/
def run (s : State) : Option RunResult := runRounds (s.maxCycles - s.clock + 1) s

/-! ### Placing an instruction to be fetched next (log 4) -/

/-- Where in the store the next fetch reads: the position of `pc` where it is fetchable or the end of the store, and
otherwise position 0. -/
def placeIndex (s : State) : Nat := (fetchIndex (s.imem.length + 1) s.pc).getD 0

/-- The state whose next cycle fetches `i`: `i` stands in the store where `pc` points, and the run, the clock, a pending
halt and what is in flight no longer keep Fetch from it. From State.reset only the store changes. -/
def placeNext (i : Instr) (s : State) : State :=
  let k := placeIndex s
  { s with
    imem := s.imem.take k ++ i :: s.imem.drop (k + 1)
    pc := BitVec.ofNat 32 (Config.imemBase + Config.instrWidth * k)
    haltPending := false
    stopped := false
    clock := if s.clock = s.maxCycles then 0 else s.clock
    latches := { Latches.empty with f := s.latches.f }
    bits := StageBits.clear
    sb := Vector.replicate 32 0 }

end Sys2Proof.Machine
end

