-- ==== Sys2Proof/Machine/Step.lean ====
section
/-! DEFINITION. One step of the machine is one round of the driver's loop, so one cycle (40_pipeline.md R100, R116). -/

namespace Sys2Proof.Machine

/-- One step: the driver's checks, then a cycle. -/
def step (s : State) : Host.Outcome State Fault Refusal := driverRound s

/-- `s` with the instruction a row of the opcode table decodes to where the next step fetches. A word that decodes to no
instruction cannot be loaded, and nothing is placed (R87; log 4). -/
def State.withFetchWord (s : State) (nbits w : Nat) : State :=
  match decodeTableWord nbits w with
  | some i => placeNext i s
  | none => s

end Sys2Proof.Machine
end

