-- ==== Sys2Proof/Machine/Load.lean ====
section
/-! DEFINITION. Loading a program (60_exceptions.md R242; 70_reset_and_hazards.md R270; 30_encoding.md R80, R87, R88, R92). -/

namespace Sys2Proof.Machine

/-- A checked register field as a register. -/
def toReg (n : Option Int) : Reg := Fin.ofNat 32 (n.getD 0).toNat

/-- A checked immediate as a Word. -/
def toImm (n : Int) : Word := BitVec.ofInt 32 n

/-- The instruction of a record that passes the checks; unused fields are dropped (R86; log 7). None for an opcode outside
the seventeen. -/
def recordInstr (r : Record) : Option Instr :=
  match r.op with
  | 1 => some (.store (toReg r.rs1) (toReg r.rs2) (toImm r.imm))
  | 2 => some (.str (toReg r.rs1) (toReg r.rs2) (toReg r.rs3))
  | 3 => some (.load (toReg r.rd) (toReg r.rs1) (toImm r.imm))
  | 4 => some (.ldr (toReg r.rd) (toReg r.rs1) (toReg r.rs2))
  | 5 => some (.add (toReg r.rd) (toReg r.rs1) (toReg r.rs2))
  | 6 => some (.sub (toReg r.rd) (toReg r.rs1) (toReg r.rs2))
  | 7 => some (.mul (toReg r.rd) (toReg r.rs1) (toReg r.rs2))
  | 8 => some (.and (toReg r.rd) (toReg r.rs1) (toReg r.rs2))
  | 9 => some (.or (toReg r.rd) (toReg r.rs1) (toReg r.rs2))
  | 10 => some (.exor (toReg r.rd) (toReg r.rs1) (toReg r.rs2))
  | 11 => some (.addl (toReg r.rd) (toReg r.rs1) (toImm r.imm))
  | 12 => some (.subl (toReg r.rd) (toReg r.rs1) (toImm r.imm))
  | 13 => some (.movc (toReg r.rd) (toImm r.imm))
  | 14 => some (.bz (toImm r.imm))
  | 15 => some (.bnz (toImm r.imm))
  | 16 => some (.jump (toReg r.rs1) (toImm r.imm))
  | 17 => some .halt
  | _ => none

/-- The fault a failing field check reports. -/
def fieldFault (index : Nat) : RecordField → Fault
  | .imm => .badImmediate index
  | f => .badRegister index f

/-- The checks of one record in their order: opcode, rd, rs1, rs2, rs3, immediate (R242, decision D37). -/
def recordFault (index : Nat) (r : Record) : Option Fault :=
  if !knownOpcode r.op then some (.unknownOpcode index)
  else
    (([.rd, .rs1, .rs2, .rs3, .imm] : List RecordField).find?
      (fun f => (fieldsUsed r.op).contains f && !fieldOk r f)).map (fieldFault index)

/-- The first failing check of a list of records whose first has the given index (R242). -/
def recordsFault : Nat → List Record → Option Fault
  | _, [] => none
  | index, r :: rs =>
    match recordFault index r with
    | some f => some f
    | none => recordsFault (index + 1) rs

/-- `Load(prog)` with its two parameters (R242, R253). -/
def load (prog : List Record) (dmemSize maxCycles : Nat) : Result :=
  if dmemSize = 0 ∨ maxCycles = 0 then .refused .parameterBelowOne
  else if Config.nMax < prog.length then .fault (.programTooLarge prog.length)
  else
    match recordsFault 0 prog with
    | some f => .fault f
    | none => .next (State.resetWith (prog.filterMap recordInstr) dmemSize maxCycles)

/-- The instructions of a program of interchange words, or the index of the first that is none (R83, R242). -/
def decodeWords : Nat → List (BitVec 64) → Except Nat (List Instr)
  | _, [] => .ok []
  | index, w :: ws =>
    match decode64 w, decodeWords (index + 1) ws with
    | .error _, _ => .error index
    | .ok _, .error j => .error j
    | .ok i, .ok is => .ok (i :: is)

/-- `Load` of a program given as interchange words, where only `UNKNOWN_OPCODE` and `PROGRAM_TOO_LARGE` can arise (R242). -/
def loadWords (prog : List (BitVec 64)) (dmemSize maxCycles : Nat) : Result :=
  if dmemSize = 0 ∨ maxCycles = 0 then .refused .parameterBelowOne
  else if Config.nMax < prog.length then .fault (.programTooLarge prog.length)
  else
    match decodeWords 0 prog with
    | .error index => .fault (.unknownOpcode index)
    | .ok is => .next (State.resetWith is dmemSize maxCycles)

end Sys2Proof.Machine
end

