-- ==== Sys2Proof/Safety.lean ====
section
/-! DEFINITION. The terms claims use: which bits of a word an opcode reads, the invariants of the pipeline between cycles,
and a run of cycles (30_encoding.md R84, R86; 10_state.md R39; 40_pipeline.md R119 to R123; 60_exceptions.md R248). -/

namespace Sys2Proof.Safety

open Sys2Proof.Machine

/-! ### The bits of a word an opcode uses (R81, R84) -/

/-- The bits of one operand field of R81. -/
def fieldMask : RecordField → BitVec 64
  | .rd => 0x03E0000000000000
  | .rs1 => 0x001F000000000000
  | .rs2 => 0x0000F80000000000
  | .rs3 => 0x000007C000000000
  | .imm => 0x00000000FFFFFFFF

/-- The opcode bits and the bits of the fields that opcode uses (R84). -/
def usedMask (op : Nat) : BitVec 64 :=
  (fieldsUsed op).foldl (fun m f => m ||| fieldMask f) 0xFC00000000000000

/-- Two records alike in the opcode and in every field it uses. -/
def sameUsed (r q : Record) : Prop :=
  r.op = q.op ∧ ∀ f ∈ fieldsUsed r.op, match f with
    | .rd => r.rd = q.rd
    | .rs1 => r.rs1 = q.rs1
    | .rs2 => r.rs2 = q.rs2
    | .rs3 => r.rs3 = q.rs3
    | .imm => r.imm = q.imm

/-- The record `r` holds the opcode of `i` by its number in R82, and the operands of `i` in the fields that opcode uses
(R39, R84). What its other fields hold is free (R86). -/
def recordIs (r : Record) : Instr → Prop
  | .store rs1 rs2 imm => r.op = 1 ∧ r.rs1 = some rs1.val ∧ r.rs2 = some rs2.val ∧ r.imm = imm.toInt
  | .str rs1 rs2 rs3 => r.op = 2 ∧ r.rs1 = some rs1.val ∧ r.rs2 = some rs2.val ∧ r.rs3 = some rs3.val
  | .load rd rs1 imm => r.op = 3 ∧ r.rd = some rd.val ∧ r.rs1 = some rs1.val ∧ r.imm = imm.toInt
  | .ldr rd rs1 rs2 => r.op = 4 ∧ r.rd = some rd.val ∧ r.rs1 = some rs1.val ∧ r.rs2 = some rs2.val
  | .add rd rs1 rs2 => r.op = 5 ∧ r.rd = some rd.val ∧ r.rs1 = some rs1.val ∧ r.rs2 = some rs2.val
  | .sub rd rs1 rs2 => r.op = 6 ∧ r.rd = some rd.val ∧ r.rs1 = some rs1.val ∧ r.rs2 = some rs2.val
  | .mul rd rs1 rs2 => r.op = 7 ∧ r.rd = some rd.val ∧ r.rs1 = some rs1.val ∧ r.rs2 = some rs2.val
  | .and rd rs1 rs2 => r.op = 8 ∧ r.rd = some rd.val ∧ r.rs1 = some rs1.val ∧ r.rs2 = some rs2.val
  | .or rd rs1 rs2 => r.op = 9 ∧ r.rd = some rd.val ∧ r.rs1 = some rs1.val ∧ r.rs2 = some rs2.val
  | .exor rd rs1 rs2 => r.op = 10 ∧ r.rd = some rd.val ∧ r.rs1 = some rs1.val ∧ r.rs2 = some rs2.val
  | .addl rd rs1 imm => r.op = 11 ∧ r.rd = some rd.val ∧ r.rs1 = some rs1.val ∧ r.imm = imm.toInt
  | .subl rd rs1 imm => r.op = 12 ∧ r.rd = some rd.val ∧ r.rs1 = some rs1.val ∧ r.imm = imm.toInt
  | .movc rd imm => r.op = 13 ∧ r.rd = some rd.val ∧ r.imm = imm.toInt
  | .bz imm => r.op = 14 ∧ r.imm = imm.toInt
  | .bnz imm => r.op = 15 ∧ r.imm = imm.toInt
  | .jump rs1 imm => r.op = 16 ∧ r.rs1 = some rs1.val ∧ r.imm = imm.toInt
  | .halt => r.op = 17

/-! ### The pipeline between cycles -/

/-- The slots whose instruction has left Decode, youngest first (R23, R120). -/
def issuedSlots (s : State) : List Slot :=
  [s.latches.e1, s.latches.e2, s.latches.m1, s.latches.m2, s.latches.w]

/-- The instruction in a slot and its own address (R26, R119). -/
def placeOf (x : Slot) : Option (Instr × Word) := x.map fun l => (l.ins, l.pc)

/-- The slot holds an instruction that will write `r`. -/
def writesReg (r : Reg) (x : Slot) : Bool := x.bind (fun l => dest l.ins) == some r

/-- The number of slots E1 to W that hold a writer of `r` (R120). -/
def writersInFlight (s : State) (r : Reg) : Nat := (issuedSlots s).countP (writesReg r)

/-- R120: every counter equals the number of in-flight writers. -/
def scoreboardExact (s : State) : Prop := ∀ r : Reg, pending s r = writersInFlight s r

/-- R33, R183: the multiply's bits go together, and stand only with a multiply held in Execute1. -/
def freezeConsistent (s : State) : Prop :=
  s.bits.dBusy = s.bits.mulPending ∧ s.bits.fBusy = s.bits.mulPending ∧ s.bits.fStalled = s.bits.dStalled ∧
  (s.bits.mulPending = true →
    s.bits.dStalled = true ∧ ∃ e rd rs1 rs2, s.latches.e1 = some e ∧ e.ins = .mul rd rs1 rs2)

/-- A stall bit stands only for a multiply or for an instruction Decode holds (R33). -/
def stallsExplained (s : State) : Prop :=
  s.bits.dStalled = true → s.bits.mulPending = true ∨ s.latches.d.isSome = true

/-- The slot holds a HALT. -/
def holdsHalt (x : Slot) : Bool := x.any (fun l => isHaltOp l.ins)

/-- Every slot of the list that holds a HALT has only bubbles before it. -/
def bubblesBeforeHalt : List Slot → Prop
  | [] => True
  | x :: older => (older.any holdsHalt = true → x = none) ∧ bubblesBeforeHalt older

/-- R121: while a HALT stands in E1 to W, `halt_pending = 1` and every younger slot is a bubble. -/
def haltClean (s : State) : Prop :=
  ((issuedSlots s).any holdsHalt = true → s.haltPending = true) ∧
  bubblesBeforeHalt (s.latches.d :: issuedSlots s)

/-- R34: from Execute1 on, `is_arith = 1` exactly for an instruction of the arithmetic class. -/
def arithMarked (s : State) : Prop :=
  ∀ x ∈ issuedSlots s, ∀ l, x = some l → l.isArith = isArithOp l.ins

/-- The data store is in its canonical form and lists only cells that exist (R37). -/
def dataStoreOk (s : State) : Prop := s.dm.wf ∧ ∀ c ∈ s.dm, c.1 < s.dmemSize

/-- R248: the counters' bounds. -/
def countersOk (s : State) : Prop :=
  s.clock ≤ s.maxCycles ∧ (s.stopped = false → s.completed ≤ s.clock)

/-- The invariant of the model between cycles. -/
structure Inv (s : State) : Prop where
  scoreboard : scoreboardExact s
  freeze : freezeConsistent s
  stalls : stallsExplained s
  halt : haltClean s
  arith : arithMarked s
  store : dataStoreOk s
  counters : countersOk s

/-! ### Cycles one after another -/

/-- `ss` are states each the cycle after the one before, `s` the first's predecessor. -/
def cyclesFrom : State → List State → Prop
  | _, [] => True
  | s, t :: rest => cycle s = .next t ∧ cyclesFrom t rest

/-- `ss` are the states of the rounds of the driver's loop after `s`: each time its checks go on and the cycle answers the
next state (R116). -/
def driven : State → List State → Prop
  | _, [] => True
  | s, t :: rest => driverCheck s = .goOn ∧ cycle s = .next t ∧ driven t rest

/-- `o` is what the driver returns at the state `s`: what its checks find there, or the fault its cycle raises (R116). -/
def returnsAt (s : State) (o : RunResult) : Prop :=
  (∃ e, driverCheck s = .ended e ∧ o = .ended e s) ∨ (∃ f, driverCheck s = .fault f ∧ o = .fault f) ∨
  (driverCheck s = .goOn ∧ ∃ f, cycle s = .fault f ∧ o = .fault f)

/-- The machine between two instructions: nothing in flight, nothing frozen or stalled, no claim, no halt. -/
def idle (s : State) : Prop :=
  s.latches.d = none ∧ s.latches.e1 = none ∧ s.latches.e2 = none ∧ s.latches.m1 = none ∧ s.latches.m2 = none ∧
  s.latches.w = none ∧ s.bits = StageBits.clear ∧ (∀ r, pending s r = 0) ∧ s.haltPending = false ∧ s.stopped = false

/-- `i` is the last instruction of the store and the next one Fetch reads. -/
def lastAtPc (i : Instr) (s : State) : Prop :=
  ∃ before, s.imem = before ++ [i] ∧ s.imem.length ≤ Config.nMax ∧
    s.pc.toInt = (Config.imemBase : Int) + (Config.instrWidth : Int) * (before.length : Int)

end Sys2Proof.Safety
end

