-- ==== Sys2Proof/Certificates/Slice0/Obligations.lean ====
section
/-! DEFINITION. The statements for the provers. Each is about every state or every operand; `exec i s` is the transition of
instruction `i` at the stage `s.stage` (log 1), so a statement about an instruction at a stage fixes `s.stage`. A next state
written as `{ s with … }` says at once what changes and that nothing else does. -/

open Sys2Proof Sys2Proof.Machine Sys2Proof.Safety

/-! ### Encoding (30_encoding.md) -/

/-- R91's round trip: the decoder reads every instruction back from the word the encoder writes. -/
def Obligations.DecodeOfEncode : Prop :=
  ∀ i : Instr, decode64 (encode64 i) = .ok i

/-- R86, for words and for records: what a word or a record holds outside its used fields changes nothing, and the encoder
writes 0 there. -/
def Obligations.UnusedFieldsIgnored : Prop :=
  (∀ w v : BitVec 64, opcField w = opcField v →
      w &&& usedMask (opcField w).toNat = v &&& usedMask (opcField w).toNat → decode64 w = decode64 v) ∧
  (∀ i : Instr, encode64 i &&& ~~~ usedMask (opcodeNumber i).toNat = 0) ∧
  (∀ (r q : Record) (index : Nat), sameUsed r q →
      recordFault index r = recordFault index q ∧ recordInstr r = recordInstr q)

/-- R87 for words: exactly the words whose opcode field is 1 to 17 decode; every other word is rejected by name. -/
def Obligations.DecodesExactlyKnownOpcodes : Prop :=
  ∀ w : BitVec 64,
    ((∃ i, decode64 w = .ok i ∧ opcodeNumber i = opcField w) ↔ 1 ≤ (opcField w).toNat ∧ (opcField w).toNat ≤ 17) ∧
    (¬ (1 ≤ (opcField w).toNat ∧ (opcField w).toNat ≤ 17) → decode64 w = .error .unknownOpcode)

/-- Words of 95_test_vectors.md, one of each family, decode to the instruction written beside them there. -/
def Obligations.SpecWordsDecode : Prop :=
  decode64 0x04031000FFFFFFFD = .ok (.store 3 2 (-3)) ∧
  decode64 0x080110C000000000 = .ok (.str 1 2 3) ∧
  decode64 0x1062100000000000 = .ok (.ldr 3 2 2) ∧
  decode64 0x1461100000000000 = .ok (.add 3 1 2) ∧
  decode64 0x3021000000000001 = .ok (.subl 1 1 1) ∧
  decode64 0x3C000000FFFFFFF8 = .ok (.bnz (-8)) ∧
  decode64 0x4005000000000000 = .ok (.jump 5 0) ∧
  decode64 0x4400000000000000 = .ok .halt

/-- The columns `sources(op)`, `hasDest(op)` and ARITH of R84's table. -/
def Obligations.OperandUsageTable : Prop :=
  ∀ (rd rs1 rs2 rs3 : Reg) (imm : Word),
    (sources (.store rs1 rs2 imm) = [rs1, rs2] ∧ dest (.store rs1 rs2 imm) = none ∧ isArithOp (.store rs1 rs2 imm) = false) ∧
    (sources (.str rs1 rs2 rs3) = [rs1, rs2, rs3] ∧ dest (.str rs1 rs2 rs3) = none ∧ isArithOp (.str rs1 rs2 rs3) = false) ∧
    (sources (.load rd rs1 imm) = [rs1] ∧ dest (.load rd rs1 imm) = some rd ∧ isArithOp (.load rd rs1 imm) = false) ∧
    (sources (.ldr rd rs1 rs2) = [rs1, rs2] ∧ dest (.ldr rd rs1 rs2) = some rd ∧ isArithOp (.ldr rd rs1 rs2) = false) ∧
    (∀ i ∈ [Instr.add rd rs1 rs2, .sub rd rs1 rs2, .mul rd rs1 rs2, .and rd rs1 rs2, .or rd rs1 rs2, .exor rd rs1 rs2],
      sources i = [rs1, rs2] ∧ dest i = some rd ∧ isArithOp i = true) ∧
    (∀ i ∈ [Instr.addl rd rs1 imm, .subl rd rs1 imm], sources i = [rs1] ∧ dest i = some rd ∧ isArithOp i = true) ∧
    (sources (.movc rd imm) = [] ∧ dest (.movc rd imm) = some rd ∧ isArithOp (.movc rd imm) = false) ∧
    (∀ i ∈ [Instr.bz imm, .bnz imm, .halt], sources i = [] ∧ dest i = none ∧ isArithOp i = false) ∧
    (sources (.jump rs1 imm) = [rs1] ∧ dest (.jump rs1 imm) = none ∧ isArithOp (.jump rs1 imm) = false)

/-! ### Load and reset (60_exceptions.md R242, 10_state.md R41) -/

/-- R242, R270, R39: a load with legal parameters succeeds exactly on a well-formed program; the state is then the reset state
with one instruction for each record, in order, of that record's opcode, registers and immediate. -/
def Obligations.LoadSucceedsOnWellFormed : Prop :=
  ∀ (prog : List Record) (dmemSize maxCycles : Nat), 1 ≤ dmemSize → 1 ≤ maxCycles →
    (programWellFormed prog = true ↔
      ∃ is : List Instr, prog.map recordInstr = is.map some ∧
        List.Forall₂ (fun r i => recordIs r i ∧ (opcodeNumber i).toNat = r.op) prog is ∧
        load prog dmemSize maxCycles = .next (State.resetWith is dmemSize maxCycles))

/-- R242: a program that is too long fails first; otherwise the first failing record in store order is reported, by its
first failing check in the order opcode, rd, rs1, rs2, rs3, immediate. -/
def Obligations.LoadReportsFirstFailure : Prop :=
  ∀ (dmemSize maxCycles : Nat), 1 ≤ dmemSize → 1 ≤ maxCycles →
    (∀ prog : List Record, Config.nMax < prog.length →
      load prog dmemSize maxCycles = .fault (.programTooLarge prog.length)) ∧
    (∀ (before after : List Record) (r : Record), (before ++ r :: after).length ≤ Config.nMax →
      before.all recordWellFormed = true →
      (knownOpcode r.op = false →
        load (before ++ r :: after) dmemSize maxCycles = .fault (.unknownOpcode before.length)) ∧
      (knownOpcode r.op = true → ∀ (earlier later : List RecordField) (f : RecordField),
        [.rd, .rs1, .rs2, .rs3, .imm] = earlier ++ f :: later →
        (∀ g ∈ earlier, g ∈ fieldsUsed r.op → fieldOk r g = true) → f ∈ fieldsUsed r.op → fieldOk r f = false →
        load (before ++ r :: after) dmemSize maxCycles =
          .fault (if f = .imm then .badImmediate before.length else .badRegister before.length f)))

/-- R242, R83 for a program of words: one that is too long fails first; one whose words all decode leaves the reset state with
the decoded instructions in order; otherwise the first word that decodes to none is reported. -/
def Obligations.LoadWordsDecodesEach : Prop :=
  ∀ (dmemSize maxCycles : Nat), 1 ≤ dmemSize → 1 ≤ maxCycles →
    (∀ prog : List (BitVec 64), Config.nMax < prog.length →
      loadWords prog dmemSize maxCycles = .fault (.programTooLarge prog.length)) ∧
    (∀ (prog : List (BitVec 64)) (is : List Instr), prog.length ≤ Config.nMax → prog.map decode64 = is.map .ok →
      loadWords prog dmemSize maxCycles = .next (State.resetWith is dmemSize maxCycles)) ∧
    (∀ (before after : List (BitVec 64)) (w : BitVec 64), (before ++ w :: after).length ≤ Config.nMax →
      (∀ v ∈ before, ∃ i, decode64 v = .ok i) → decode64 w = .error .unknownOpcode →
      loadWords (before ++ w :: after) dmemSize maxCycles = .fault (.unknownOpcode before.length))

/-- R41: every piece of state after a load, before the first cycle. -/
def Obligations.ResetValues : Prop :=
  ∀ (prog : List Instr) (dmemSize maxCycles : Nat),
    let s := State.resetWith prog dmemSize maxCycles
    (∀ r, reg s r = 0 ∧ pending s r = 0) ∧ (∀ a, a < dmemSize → readCell s.dm a = 0) ∧ s.pc.toInt = 4000 ∧
    s.z = true ∧ s.haltPending = false ∧ s.completed = 0 ∧ s.clock = 0 ∧ s.stopped = false ∧
    (∀ st, slot s st = none) ∧ s.bits.fBusy = false ∧ s.bits.fStalled = false ∧ s.bits.dBusy = false ∧
    s.bits.dStalled = false ∧ s.bits.mulPending = false ∧ s.imem = prog

/-- The invariant holds after every load (and so at State.reset, the load of the empty program). -/
def Obligations.ResetMeetsInvariant : Prop :=
  (∀ (prog : List Instr) (dmemSize maxCycles : Nat), Inv (State.resetWith prog dmemSize maxCycles)) ∧ Inv State.reset

/-- R116's empty program: the run returns END_OF_PROGRAM before any cycle. -/
def Obligations.EmptyProgramEndsAtOnce : Prop :=
  ∀ dmemSize maxCycles : Nat,
    run (State.resetWith [] dmemSize maxCycles) = some (.ended .endOfProgram (State.resetWith [] dmemSize maxCycles))

/-! ### Fetch and Decode, for every instruction (40_pipeline.md sections 2 and 3) -/

/-- R104: Fetch reads the instruction at a fetchable `pc` unless a halt is pending, and hands it to Decode and advances `pc`
unless it is held. Otherwise it makes a bubble. -/
def Obligations.FetchTransition : Prop :=
  ∀ s : State, s.stage = .fetch →
    (∀ (k : Nat) (i : Instr), s.haltPending = false → s.pc.toInt = 4000 + 4 * (k : Int) → s.imem[k]? = some i →
      let f : Slot := some { ins := i, pc := s.pc, rs1Val := 0, rs2Val := 0, rs3Val := 0, memAddr := 0, buffer := 0,
                             target := 0, flushed := false, isArith := false }
      transition .fetch s = exec i s ∧
      exec i s =
        .next (if s.bits.fBusy = true ∨ s.bits.fStalled = true then { s with latches := { s.latches with f := f } }
          else { s with latches := { s.latches with f := f, d := f }, pc := s.pc + 4 })) ∧
    (s.haltPending = true ∨ (∀ k : Nat, k < s.imem.length → s.pc.toInt ≠ 4000 + 4 * (k : Int)) →
      transition .fetch s =
        .next (if s.bits.fBusy = true ∨ s.bits.fStalled = true then { s with latches := { s.latches with f := none } }
          else { s with latches := { s.latches with f := none, d := none } }))

/-- R109: Decode advances an instruction whose sources are ready and which no branch stall holds. -/
def Obligations.DecodeAdvances : Prop :=
  ∀ (i : Instr) (s : State) (d : Latch), s.stage = .decode → s.latches.d = some d → s.bits.dBusy = false →
    (∀ r ∈ sources i, pending s r = 0) →
    ¬ ((∃ imm, i = .bz imm ∨ i = .bnz imm) ∧
        ((∃ m, s.latches.m2 = some m ∧ m.isArith = true) ∨ (∃ w, s.latches.w = some w ∧ w.isArith = true))) →
    exec i s = .next { s with
      sb := (dest i).elim s.sb fun r => s.sb.set r.val (pending s r + 1) r.isLt
      haltPending := if i = .halt then true else s.haltPending
      bits := { s.bits with dStalled := false, fStalled := false }
      latches := { s.latches with
        d := none
        e1 := some { d with
          rs1Val := (source1 i).elim d.rs1Val (reg s)
          rs2Val := (source2 i).elim d.rs2Val (reg s)
          rs3Val := (source3 i).elim d.rs3Val (reg s)
          isArith := isArithOp i } } }

/-- R107 and R108: an instruction with a source that is not ready, or a branch behind an arithmetic instruction in M2 or W,
is held, and only the two stall bits are written. -/
def Obligations.DecodeHolds : Prop :=
  ∀ (i : Instr) (s : State) (d : Latch), s.stage = .decode → s.latches.d = some d → s.bits.dBusy = false →
    ((∃ r ∈ sources i, pending s r ≠ 0) ∨
      ((∃ imm, i = .bz imm ∨ i = .bnz imm) ∧
        ((∃ m, s.latches.m2 = some m ∧ m.isArith = true) ∨ (∃ w, s.latches.w = some w ∧ w.isArith = true)))) →
    exec i s = .next { s with bits := { s.bits with dStalled := true, fStalled := true } }

/-- R105 and R106: a frozen Decode does nothing; Decode with a bubble clears the two stall bits and does nothing else. -/
def Obligations.DecodeFrozenAndBubble : Prop :=
  ∀ s : State, s.stage = .decode →
    (s.bits.dBusy = true → transition .decode s = .next s) ∧
    (s.bits.dBusy = false → s.latches.d = none →
      transition .decode s = .next { s with bits := { s.bits with dStalled := false, fStalled := false } })

/-! ### Execute1 (41_loads_stores.md, 42_arithmetic.md, 43_control.md) -/

/-- R160 to R164, Execute1: the effective address of the four loads and stores. -/
def Obligations.LoadStoreExecute1 : Prop :=
  ∀ (s : State) (e : Latch) (rd rs1 rs2 rs3 : Reg) (imm : Word), s.stage = .execute1 → s.latches.e1 = some e →
    let out := fun a : Word => Host.Outcome.next (φ := Fault) (ρ := Refusal)
      { s with latches := { s.latches with e1 := none, e2 := some { e with memAddr := a } } }
    exec (.load rd rs1 imm) s = out (BitVec.ofInt 32 (e.rs1Val.toInt + imm.toInt)) ∧
    exec (.ldr rd rs1 rs2) s = out (BitVec.ofInt 32 (e.rs1Val.toInt + e.rs2Val.toInt)) ∧
    exec (.store rs1 rs2 imm) s = out (BitVec.ofInt 32 (e.rs2Val.toInt + imm.toInt)) ∧
    exec (.str rs1 rs2 rs3) s = out (BitVec.ofInt 32 (e.rs2Val.toInt + e.rs3Val.toInt))

/-- R181, R182, R187, R188: sums and differences are the integers' wrapped to 32 bits, and the zero flag says whether the
result is 0. -/
def Obligations.AddSubtractExecute1 : Prop :=
  ∀ (s : State) (e : Latch) (rd rs1 rs2 : Reg) (imm : Word), s.stage = .execute1 → s.latches.e1 = some e →
    let out := fun v : Word => Host.Outcome.next (φ := Fault) (ρ := Refusal)
      { s with z := decide (v.toInt = 0), latches := { s.latches with e1 := none, e2 := some { e with buffer := v } } }
    exec (.add rd rs1 rs2) s = out (BitVec.ofInt 32 (e.rs1Val.toInt + e.rs2Val.toInt)) ∧
    exec (.sub rd rs1 rs2) s = out (BitVec.ofInt 32 (e.rs1Val.toInt - e.rs2Val.toInt)) ∧
    exec (.addl rd rs1 imm) s = out (BitVec.ofInt 32 (e.rs1Val.toInt + imm.toInt)) ∧
    exec (.subl rd rs1 imm) s = out (BitVec.ofInt 32 (e.rs1Val.toInt - imm.toInt))

/-- R184, R185, R186: the bitwise operations, bit by bit, and the zero flag. -/
def Obligations.BitwiseExecute1 : Prop :=
  ∀ (s : State) (e : Latch) (rd rs1 rs2 : Reg), s.stage = .execute1 → s.latches.e1 = some e →
    let out := fun v : Word => Host.Outcome.next (φ := Fault) (ρ := Refusal)
      { s with z := decide (v.toInt = 0), latches := { s.latches with e1 := none, e2 := some { e with buffer := v } } }
    (∃ v, exec (.and rd rs1 rs2) s = out v ∧
      ∀ k < 32, v.getLsbD k = (e.rs1Val.getLsbD k && e.rs2Val.getLsbD k)) ∧
    (∃ v, exec (.or rd rs1 rs2) s = out v ∧
      ∀ k < 32, v.getLsbD k = (e.rs1Val.getLsbD k || e.rs2Val.getLsbD k)) ∧
    (∃ v, exec (.exor rd rs1 rs2) s = out v ∧
      ∀ k < 32, v.getLsbD k = (e.rs1Val.getLsbD k ^^ e.rs2Val.getLsbD k))

/-- R183: a multiply's first cycle in Execute1 only sets the freeze; its second lifts it, and gives the low 32 bits of the
product and the zero flag. -/
def Obligations.MultiplyExecute1 : Prop :=
  ∀ (s : State) (e : Latch) (rd rs1 rs2 : Reg), s.stage = .execute1 → s.latches.e1 = some e →
    (s.bits.mulPending = false →
      exec (.mul rd rs1 rs2) s = .next { s with
        bits := { fBusy := true, fStalled := true, dBusy := true, dStalled := true, mulPending := true } }) ∧
    (s.bits.mulPending = true →
      let v := BitVec.ofInt 32 (e.rs1Val.toInt * e.rs2Val.toInt)
      exec (.mul rd rs1 rs2) s = .next { s with
        bits := { fBusy := false, fStalled := false, dBusy := false, dStalled := false, mulPending := false }
        z := decide (v.toInt = 0)
        latches := { s.latches with e1 := none, e2 := some { e with buffer := v } } })

/-- R189: MOVC's result is its immediate, and the zero flag is left alone. -/
def Obligations.MoveConstantExecute1 : Prop :=
  ∀ (s : State) (e : Latch) (rd : Reg) (imm : Word), s.stage = .execute1 → s.latches.e1 = some e →
    exec (.movc rd imm) s =
      .next { s with latches := { s.latches with e1 := none, e2 := some { e with buffer := imm } } }

/-- R211, R212: a branch's decision, from the zero flag as it stands when the branch is in Execute1. -/
def Obligations.BranchExecute1 : Prop :=
  ∀ (s : State) (e : Latch) (imm : Word), s.stage = .execute1 → s.latches.e1 = some e →
    let out := fun l : Latch => Host.Outcome.next (φ := Fault) (ρ := Refusal)
      { s with latches := { s.latches with e1 := none, e2 := some l } }
    let taken := { e with target := BitVec.ofInt 32 (e.pc.toInt + imm.toInt), flushed := false }
    let notTaken := { e with target := 0, flushed := true }
    exec (.bz imm) s = out (if s.z = true then taken else notTaken) ∧
    exec (.bnz imm) s = out (if s.z = false then taken else notTaken)

/-- R213: JUMP writes `pc` in Execute1 and squashes nothing. -/
def Obligations.JumpExecute1 : Prop :=
  ∀ (s : State) (e : Latch) (rs1 : Reg) (imm : Word), s.stage = .execute1 → s.latches.e1 = some e →
    let a := BitVec.ofInt 32 (e.rs1Val.toInt + imm.toInt)
    exec (.jump rs1 imm) s =
      .next { s with pc := a, latches := { s.latches with e1 := none, e2 := some { e with target := a } } }

/-! ### Execute2, Memory1 and Memory2 -/

/-- R111, R112: Execute2 and Memory1 pass every record on unchanged, and a bubble as a bubble. -/
def Obligations.PassOnStages : Prop :=
  ∀ (i : Instr) (s : State),
    (s.stage = .execute2 →
      exec i s = .next { s with latches := { s.latches with e2 := none, m1 := s.latches.e2 } } ∧
      transition .execute2 s = .next { s with latches := { s.latches with e2 := none, m1 := s.latches.e2 } }) ∧
    (s.stage = .memory1 →
      exec i s = .next { s with latches := { s.latches with m1 := none, m2 := s.latches.m1 } } ∧
      transition .memory1 s = .next { s with latches := { s.latches with m1 := none, m2 := s.latches.m1 } })

/-- R113: arithmetic, MOVC and JUMP do nothing in Memory2 but move on. -/
def Obligations.Memory2PassesOthers : Prop :=
  ∀ (s : State) (m : Latch) (rd rs1 rs2 : Reg) (imm : Word), s.stage = .memory2 → s.latches.m2 = some m →
    ∀ i ∈ [Instr.add rd rs1 rs2, .sub rd rs1 rs2, .mul rd rs1 rs2, .and rd rs1 rs2, .or rd rs1 rs2, .exor rd rs1 rs2,
      .addl rd rs1 imm, .subl rd rs1 imm, .movc rd imm, .jump rs1 imm],
      exec i s = .next { s with latches := { s.latches with m2 := none, w := some m } }

/-- R61, R161, R162: a load in Memory2 reads one cell into its buffer, and faults outside the data store. -/
def Obligations.LoadMemory2 : Prop :=
  ∀ (s : State) (m : Latch) (rd rs1 rs2 : Reg) (imm : Word), s.stage = .memory2 → s.latches.m2 = some m →
    ∀ i ∈ [Instr.load rd rs1 imm, .ldr rd rs1 rs2],
      (0 ≤ m.memAddr.toInt ∧ m.memAddr.toInt < s.dmemSize →
        exec i s = .next { s with latches := { s.latches with
          m2 := none, w := some { m with buffer := readCell s.dm m.memAddr.toInt.toNat } } }) ∧
      (¬ (0 ≤ m.memAddr.toInt ∧ m.memAddr.toInt < s.dmemSize) → exec i s = .fault (.dmemOutOfRange m.memAddr s))

/-- R61, R163, R164: a store in Memory2 writes its data to the cell of its address and to no other, and faults outside the
data store. The address is the one `LoadStoreExecute1` puts into `memAddr`. -/
def Obligations.StoreMemory2 : Prop :=
  ∀ (s : State) (m : Latch) (rs1 rs2 rs3 : Reg) (imm : Word), s.stage = .memory2 → s.latches.m2 = some m → s.dm.wf →
    ∀ i ∈ [Instr.store rs1 rs2 imm, .str rs1 rs2 rs3],
      (0 ≤ m.memAddr.toInt ∧ m.memAddr.toInt < s.dmemSize →
        ∃ dm : Memory,
          exec i s = .next { s with dm := dm, latches := { s.latches with m2 := none, w := some m } } ∧ dm.wf ∧
          ∀ a : Nat, readCell dm a = if (a : Int) = m.memAddr.toInt then m.rs1Val else readCell s.dm a) ∧
      (¬ (0 ≤ m.memAddr.toInt ∧ m.memAddr.toInt < s.dmemSize) → exec i s = .fault (.dmemOutOfRange m.memAddr s))

/-- R210, R114: a branch with target 0 moves on; any other target goes to `pc` and squashes E1, E2, M1 and D with their
claims, the freeze, the stalls and a pending halt, but not the zero flag. The premise on the counters holds in every state
that meets the invariant. -/
def Obligations.BranchMemory2 : Prop :=
  ∀ (s : State) (m : Latch) (imm : Word), s.stage = .memory2 → s.latches.m2 = some m →
    ∀ i ∈ [Instr.bz imm, .bnz imm],
      (m.target = 0 → exec i s = .next { s with latches := { s.latches with m2 := none, w := some m } }) ∧
      (m.target ≠ 0 →
        (∀ r, [s.latches.e1, s.latches.e2, s.latches.m1].countP (writesReg r) ≤ pending s r) →
        ∃ sb : Vector Nat 32,
          exec i s = .next { s with
            pc := m.target, sb := sb, haltPending := false, bits := StageBits.clear
            latches := { s.latches with d := none, e1 := none, e2 := none, m1 := none, m2 := none, w := some m } } ∧
          ∀ r : Reg, sb.get r = pending s r - [s.latches.e1, s.latches.e2, s.latches.m1].countP (writesReg r))

/-- R215: HALT in Execute1, in Memory2 and in Writeback (in Decode: `DecodeAdvances`). -/
def Obligations.HaltStages : Prop :=
  ∀ (s : State) (l : Latch),
    (s.stage = .execute1 → s.latches.e1 = some l →
      exec .halt s =
        .next { s with haltPending := true, latches := { s.latches with e1 := none, e2 := some l } }) ∧
    (s.stage = .memory2 → s.latches.m2 = some l →
      (∀ r, [s.latches.e1, s.latches.e2, s.latches.m1].countP (writesReg r) ≤ pending s r) →
      ∃ sb : Vector Nat 32,
        exec .halt s = .next { s with
          sb := sb, haltPending := true
          latches := { s.latches with d := none, e1 := none, e2 := none, m1 := none, m2 := none, w := some l } } ∧
        ∀ r : Reg, sb.get r = pending s r - [s.latches.e1, s.latches.e2, s.latches.m1].countP (writesReg r)) ∧
    (s.stage = .writeback → s.latches.w = some l →
      exec .halt s =
        .next { s with completed := s.imem.length, stopped := true, latches := { s.latches with w := none } })

/-! ### Writeback (R115) -/

/-- R115: Writeback does nothing with a bubble; every instruction in it commits, and a release that finds the counter 0
faults and changes nothing. -/
def Obligations.WritebackCommits : Prop :=
  ∀ s : State, s.stage = .writeback →
    (s.latches.w = none → transition .writeback s = .next s) ∧
    (∀ (i : Instr) (w : Latch), s.latches.w = some w →
      (∀ r, dest i = some r → pending s r ≠ 0 →
        exec i s = .next { s with
          sb := s.sb.set r.val (pending s r - 1) r.isLt
          regs := s.regs.set r.val w.buffer r.isLt
          completed := s.completed + 1
          latches := { s.latches with w := none } }) ∧
      (dest i = none → i ≠ .halt →
        exec i s = .next { s with completed := s.completed + 1, latches := { s.latches with w := none } }) ∧
      (i = .halt →
        exec i s = .next { s with completed := s.imem.length, stopped := true, latches := { s.latches with w := none } }) ∧
      (∀ r, dest i = some r → pending s r = 0 → exec i s = .fault (.scoreboardUnderflow r s)))

/-! ### The cycle and the driver (R100 to R102, R116) -/

/-- What a step does around exec: when the driver goes on, the six other transitions of the cycle come first, and Fetch runs
exec on the instruction whose address `pc` then holds; a machine with nothing in flight runs exec on it at once; every other
stage runs exec on the instruction in its slot. -/
def Obligations.StepRunsDecodedInstruction : Prop :=
  (∀ (s u : State) (i : Instr) (k : Nat), driverCheck s = .goOn →
    runStages [.writeback, .memory2, .memory1, .execute2, .execute1, .decode] { s with clock := s.clock + 1 } = .next u →
    u.haltPending = false → u.pc.toInt = 4000 + 4 * (k : Int) → u.imem[k]? = some i →
    step s = exec i { u with stage := .fetch }) ∧
  (∀ (s : State) (i : Instr) (k : Nat), idle s → s.clock < s.maxCycles → s.pc.toInt = 4000 + 4 * (k : Int) →
    s.imem[k]? = some i → step s = exec i { s with clock := s.clock + 1, stage := .fetch }) ∧
  (∀ (s : State) (st : Stage) (l : Latch), st ≠ .fetch → slot s st = some l →
    transition st s = exec l.ins { s with stage := st })

/-- A word placed with `withFetchWord` is what the very next step fetches, from every state with a legal cap and a loadable
store. -/
def Obligations.PlacedWordIsFetched : Prop :=
  ∀ (s : State) (nbits w : Nat) (i : Instr), decodeTableWord nbits w = some i → 1 ≤ s.maxCycles →
    s.imem.length ≤ Config.nMax →
    ∃ t, step (s.withFetchWord nbits w) = .next t ∧
      t.latches.d = some (fetchedLatch i (s.withFetchWord nbits w).pc) ∧ t.latches.f = t.latches.d ∧
      t.pc = (s.withFetchWord nbits w).pc + 4

/-- R102: the order of a cycle's transitions, the clock first; a raise ends the cycle. -/
def Obligations.CycleOrder : Prop :=
  ∀ s : State, cycle s =
    andThen (transition .writeback { s with clock := s.clock + 1 }) fun s =>
    andThen (transition .memory2 s) fun s => andThen (transition .memory1 s) fun s =>
    andThen (transition .execute2 s) fun s => andThen (transition .execute1 s) fun s =>
    andThen (transition .decode s) fun s => transition .fetch s

/-- R116, R244: the driver's checks in their order, and what the run returns for each; where they go on, the run returns the
fault of the cycle, or goes on with the state after it (within the cap, log 12). That an ended run's step leaves the state
unchanged is the model's choice (DESIGN CHOICE, log 5). -/
def Obligations.DriverChecksInOrder : Prop :=
  ∀ s : State,
    (s.stopped = true → step s = .next s ∧ run s = some (.ended .halted s)) ∧
    (s.stopped = false → drained s = true → fetchable s s.pc = false →
      s.pc.toInt = 4000 + 4 * (s.imem.length : Int) →
      step s = .next s ∧ run s = some (.ended .endOfProgram s)) ∧
    (s.stopped = false → drained s = true → fetchable s s.pc = false →
      s.pc.toInt ≠ 4000 + 4 * (s.imem.length : Int) →
      step s = .fault (.fetchOutOfRange s.pc s) ∧ run s = some (.fault (.fetchOutOfRange s.pc s))) ∧
    (s.stopped = false → (drained s = false ∨ fetchable s s.pc = true) → s.clock = s.maxCycles →
      step s = .fault (.liveness s.clock s) ∧ run s = some (.fault (.liveness s.clock s))) ∧
    (s.stopped = false → (drained s = false ∨ fetchable s s.pc = true) → s.clock ≠ s.maxCycles →
      step s = cycle s ∧ (∀ f, cycle s = .fault f → run s = some (.fault f)) ∧
      ∀ t, cycle s = .next t → s.clock ≤ s.maxCycles → run s = run t)

/-- R116, R118: within its cap every run returns what the driver returns at the last of the states its cycles lead to, after
at most the cycles that are left; a LIVENESS fault comes only when all of them have run, and carries MAX_CYCLES. -/
def Obligations.EveryRunEnds : Prop :=
  ∀ s : State, s.clock ≤ s.maxCycles →
    ∃ (ts : List State) (o : RunResult), run s = some o ∧ driven s ts ∧ ts.length ≤ s.maxCycles - s.clock ∧
      returnsAt (ts.getLast?.getD s) o ∧
      ∀ (c : Nat) (left : State), o = .fault (.liveness c left) → c = s.maxCycles ∧ ts.length = s.maxCycles - s.clock

/-- R240, R241, R247: no step refuses, and a step stops only with one of the four run-time faults. -/
def Obligations.StepStopsOnlyWithRunTimeFaults : Prop :=
  ∀ s : State, (∀ x, step s ≠ .refused x) ∧
    ∀ f, step s = .fault f →
      (∃ a left, f = .dmemOutOfRange a left) ∨ (∃ r left, f = .scoreboardUnderflow r left) ∨
      f = .fetchOutOfRange s.pc s ∨ f = .liveness s.maxCycles s

/-! ### What a cycle writes (10_state.md, 20_memory.md) -/

/-- R21, R115: in a cycle a register changes only by the commit of the instruction that stands in Writeback. -/
def Obligations.RegistersWrittenByWritebackOnly : Prop :=
  ∀ s t : State, cycle s = .next t → ∀ r : Reg,
    (∀ w, s.latches.w = some w → reg t r = if dest w.ins = some r then w.buffer else reg s r) ∧
    (s.latches.w = none → reg t r = reg s r)

/-- R66, R69: in a cycle a data cell changes only by the STORE or STR that stands in Memory2. -/
def Obligations.DataWrittenByMemory2Only : Prop :=
  ∀ s t : State, s.dm.wf → cycle s = .next t → ∀ a : Nat,
    readCell t.dm a = readCell s.dm a ∨
    ∃ m, s.latches.m2 = some m ∧ ((∃ rs1 rs2 imm, m.ins = .store rs1 rs2 imm) ∨ (∃ rs1 rs2 rs3, m.ins = .str rs1 rs2 rs3)) ∧
      (a : Int) = m.memAddr.toInt ∧ a < s.dmemSize ∧ readCell t.dm a = m.rs1Val

/-- R28: in a cycle the zero flag changes only by an arithmetic instruction that leaves Execute1, to whether its result is
0. -/
def Obligations.ZeroFlagWrittenByArithmeticOnly : Prop :=
  ∀ s t : State, cycle s = .next t →
    t.z = s.z ∨
    ∃ e l, s.latches.e1 = some e ∧ isArithOp e.ins = true ∧ t.latches.e2 = some l ∧ l.ins = e.ins ∧
      t.z = decide (l.buffer.toInt = 0)

/-- R29: a cycle sets `halt_pending` only for a HALT in D, E1 or M2, and clears it only for a taken branch in M2. -/
def Obligations.HaltPendingWriters : Prop :=
  ∀ s t : State, cycle s = .next t →
    t.haltPending = s.haltPending ∨
    (t.haltPending = true ∧ ∃ x ∈ [s.latches.d, s.latches.e1, s.latches.m2], holdsHalt x = true) ∨
    (t.haltPending = false ∧ ∃ m, s.latches.m2 = some m ∧ (∃ imm, m.ins = .bz imm ∨ m.ins = .bnz imm) ∧ m.target ≠ 0)

/-- R26: a cycle leaves `pc`, or takes it from a taken branch in Memory2 or a JUMP in Execute1, and Fetch adds 4 or
nothing. -/
def Obligations.PcWritersOnly : Prop :=
  ∀ s t : State, cycle s = .next t →
    (t.pc = s.pc ∨ t.pc = s.pc + 4) ∨
    (∃ m, s.latches.m2 = some m ∧ ((∃ imm, m.ins = .bz imm) ∨ ∃ imm, m.ins = .bnz imm) ∧ m.target ≠ 0 ∧
      (t.pc = m.target ∨ t.pc = m.target + 4)) ∨
    (∃ e rs1 imm, s.latches.e1 = some e ∧ e.ins = .jump rs1 imm ∧
      (t.pc = e.rs1Val + imm ∨ t.pc = e.rs1Val + imm + 4))

/-- R30, R31, R32, R38: what a cycle does to the counters, `stopped`, the instruction store and the parameters. -/
def Obligations.CycleCountsAndKeeps : Prop :=
  ∀ s t : State, cycle s = .next t →
    t.clock = s.clock + 1 ∧
    (∀ w, s.latches.w = some w →
      t.completed = (if w.ins = .halt then s.imem.length else s.completed + 1) ∧
      t.stopped = (if w.ins = .halt then true else s.stopped)) ∧
    (s.latches.w = none → t.completed = s.completed ∧ t.stopped = s.stopped) ∧
    t.imem = s.imem ∧ t.dmemSize = s.dmemSize ∧ t.maxCycles = s.maxCycles

/-- R114, R210 in the cycle of a taken branch: everything behind it is gone, Fetch has read the target in that same cycle,
and the branch stands in Writeback. -/
def Obligations.TakenBranchCycle : Prop :=
  ∀ (s t : State) (m : Latch) (imm : Word), s.latches.m2 = some m → (m.ins = .bz imm ∨ m.ins = .bnz imm) →
    m.target ≠ 0 → cycle s = .next t →
    t.latches.w = some m ∧ t.latches.m2 = none ∧ t.latches.m1 = none ∧ t.latches.e2 = none ∧ t.latches.e1 = none ∧
    t.haltPending = false ∧ t.bits = StageBits.clear ∧ t.z = s.z ∧ t.dm = s.dm ∧
    (∀ (k : Nat) (i : Instr), m.target.toInt = 4000 + 4 * (k : Int) → s.imem[k]? = some i →
      t.latches.d = some (fetchedLatch i m.target) ∧ t.pc = m.target + 4) ∧
    ((∀ k : Nat, k < s.imem.length → m.target.toInt ≠ 4000 + 4 * (k : Int)) → t.latches.d = none ∧ t.pc = m.target)

/-- R214: the instruction in Decode in the cycle a JUMP leaves Execute1 is not squashed: it advances with its sources read,
or is held and kept; when it advances, Fetch has read the target in that same cycle. -/
def Obligations.JumpShadowSurvives : Prop :=
  ∀ (s t : State) (e d : Latch) (rs1 : Reg) (imm : Word), Inv s → s.latches.e1 = some e → e.ins = .jump rs1 imm →
    s.latches.d = some d →
    (∀ m, s.latches.m2 = some m → (∃ a, m.ins = .bz a ∨ m.ins = .bnz a) → m.target = 0) →
    cycle s = .next t →
    t.latches.e2 = some { e with target := e.rs1Val + imm } ∧
    ((t.latches.d = some d ∧ t.bits.dStalled = true ∧ t.pc = e.rs1Val + imm) ∨
      (t.latches.e1 = some (readSources t d.ins d) ∧ t.bits.dStalled = false ∧
        (∀ (k : Nat) (i : Instr), d.ins ≠ .halt → (e.rs1Val + imm).toInt = 4000 + 4 * (k : Int) → s.imem[k]? = some i →
          s.haltPending = false → t.latches.d = some (fetchedLatch i (e.rs1Val + imm)))))

/-! ### Invariants and whole-machine rules (40_pipeline.md section 8) -/

/-- R25, R33, R34, R120, R121, R248: every step keeps the invariant. -/
def Obligations.StepKeepsInvariant : Prop :=
  ∀ s t : State, Inv s → step s = .next t → Inv t

/-- R120: under the invariant SCOREBOARD_UNDERFLOW is unreachable. -/
def Obligations.UnderflowUnreachable : Prop :=
  ∀ (s : State) (r : Reg) (left : State), Inv s → step s ≠ .fault (.scoreboardUnderflow r left)

/-- R25: under the invariant no counter exceeds 5. -/
def Obligations.CountersAtMostFive : Prop :=
  ∀ (s : State) (r : Reg), Inv s → pending s r ≤ 5

/-- R119, R103, R114: in a cycle every instruction moves one slot down or stays, in order. Behind a taken branch there is
nothing left. Otherwise the slots from M1 down move; then either a multiply holds Execute1 and Decode, or Execute1's record
moves and Decode holds its instruction, has none, or passes it on and takes what Fetch has read. -/
def Obligations.SlotsMoveInOrder : Prop :=
  ∀ s t : State, Inv s → cycle s = .next t →
    placeOf t.latches.w = placeOf s.latches.m2 ∧
    ((∃ m, s.latches.m2 = some m ∧ (∃ imm, m.ins = .bz imm ∨ m.ins = .bnz imm) ∧ m.target ≠ 0 ∧ t.latches.m2 = none ∧
        t.latches.m1 = none ∧ t.latches.e2 = none ∧ t.latches.e1 = none ∧ t.latches.d = t.latches.f) ∨
      (t.latches.m2 = s.latches.m1 ∧ t.latches.m1 = s.latches.e2 ∧
        (((∃ e rd rs1 rs2, s.latches.e1 = some e ∧ e.ins = .mul rd rs1 rs2) ∧ t.latches.e2 = none ∧
            t.latches.e1 = s.latches.e1 ∧ t.latches.d = s.latches.d) ∨
          (placeOf t.latches.e2 = placeOf s.latches.e1 ∧
            ((t.latches.e1 = none ∧ t.latches.d = s.latches.d) ∨
              (t.latches.e1 = none ∧ s.latches.d = none ∧ t.latches.d = t.latches.f) ∨
              (s.latches.d ≠ none ∧ placeOf t.latches.e1 = placeOf s.latches.d ∧ t.latches.d = t.latches.f))))))

/-- R123: when a stage that advances runs, the slot it moves into is a bubble: below Decode and Fetch, unless the stage above
is held. -/
def Obligations.NoOverwrite : Prop :=
  ∀ s t : State,
    (runStages [.writeback] s = .next t → t.latches.w = none) ∧
    (runStages [.writeback, .memory2] s = .next t → t.latches.m2 = none) ∧
    (runStages [.writeback, .memory2, .memory1] s = .next t → t.latches.m1 = none) ∧
    (runStages [.writeback, .memory2, .memory1, .execute2] s = .next t → t.latches.e2 = none) ∧
    (runStages [.writeback, .memory2, .memory1, .execute2, .execute1] s = .next t →
      t.latches.e1 = none ∨ t.bits.dBusy = true) ∧
    (Inv s → runStages [.writeback, .memory2, .memory1, .execute2, .execute1, .decode] s = .next t →
      t.latches.d = none ∨ t.bits.fBusy = true ∨ t.bits.fStalled = true)

/-- R122: Decode never holds for more than five cycles in a row. -/
def Obligations.DecodeHoldsAtMostFive : Prop :=
  ∀ (s : State) (ts : List State), Inv s → cyclesFrom s ts → ts.length = 6 → ∃ t ∈ ts, t.bits.dStalled = false

/-- R272: an instruction that leaves Decode has read committed values: no older instruction still in flight writes one of
its sources. (After a cycle Execute1 holds an instruction with `mul_pending = 0` exactly when Decode has just advanced it.) -/
def Obligations.DecodeReadsCommittedValues : Prop :=
  ∀ (s t : State) (d : Latch), Inv s → cycle s = .next t → t.latches.e1 = some d → t.bits.mulPending = false →
    (∀ r ∈ sources d.ins, ∀ x ∈ [t.latches.e2, t.latches.m1, t.latches.m2, t.latches.w], writesReg r x = false) ∧
    (∀ r, source1 d.ins = some r → d.rs1Val = reg t r) ∧ (∀ r, source2 d.ins = some r → d.rs2Val = reg t r) ∧
    (∀ r, source3 d.ins = some r → d.rs3Val = reg t r)

/-- R117: with the pipeline drained and `pc` not fetchable a cycle changes only `clock` and `L[F]` (and the model's own
place in the cycle, log 1). -/
def Obligations.DrainedCycleChangesNothing : Prop :=
  ∀ s : State, Inv s → drained s = true → fetchable s s.pc = false →
    cycle s = .next { s with clock := s.clock + 1, latches := { s.latches with f := none }, stage := .fetch }

/-- R243, R241: what a DMEM_OUT_OF_RANGE leaves: exactly Writeback has run in the faulting cycle, and Memory2 holds the LOAD,
LDR, STORE or STR whose address it is. -/
def Obligations.DataFaultState : Prop :=
  ∀ (s left : State) (a : Word), step s = .fault (.dmemOutOfRange a left) →
    transition .writeback { s with clock := s.clock + 1 } = .next { left with stage := .writeback } ∧
    left.stage = .memory2 ∧ left.clock = s.clock + 1 ∧ left.dm = s.dm ∧ left.z = s.z ∧ left.pc = s.pc ∧
    (∃ m, left.latches.m2 = some m ∧ m.memAddr = a ∧
      ((∃ rd rs1 imm, m.ins = .load rd rs1 imm) ∨ (∃ rd rs1 rs2, m.ins = .ldr rd rs1 rs2) ∨
        (∃ rs1 rs2 imm, m.ins = .store rs1 rs2 imm) ∨ ∃ rs1 rs2 rs3, m.ins = .str rs1 rs2 rs3)) ∧
    ¬ (0 ≤ a.toInt ∧ a.toInt < s.dmemSize)

/-! ### One instruction through the whole pipeline -/

/-- R280, R181, R182, R184 to R189: the last instruction of the store, alone in the pipeline, commits in its seventh cycle:
the destination has the result, the zero flag is set by it (but by MOVC), and nothing else has changed but `pc`, the
counters and `L[F]`. -/
def Obligations.ArithmeticPassage : Prop :=
  ∀ (s : State) (i : Instr) (rd : Reg) (v : Word) (z : Bool), idle s → lastAtPc i s → s.clock + 7 ≤ s.maxCycles →
    ((z = decide (v = 0) ∧
        ((∃ rs1 rs2, (i = .add rd rs1 rs2 ∧ v = reg s rs1 + reg s rs2) ∨ (i = .sub rd rs1 rs2 ∧ v = reg s rs1 - reg s rs2) ∨
            (i = .and rd rs1 rs2 ∧ v = reg s rs1 &&& reg s rs2) ∨ (i = .or rd rs1 rs2 ∧ v = reg s rs1 ||| reg s rs2) ∨
            (i = .exor rd rs1 rs2 ∧ v = reg s rs1 ^^^ reg s rs2)) ∨
          (∃ rs1 imm, (i = .addl rd rs1 imm ∧ v = reg s rs1 + imm) ∨ (i = .subl rd rs1 imm ∧ v = reg s rs1 - imm)))) ∨
      (z = s.z ∧ i = .movc rd v)) →
    ∃ sb : Vector Nat 32, (∀ r : Reg, sb.get r = 0) ∧
      core.run 7 s = .next { s with
        regs := s.regs.set rd.val v rd.isLt, sb := sb, z := z, pc := s.pc + 4, clock := s.clock + 7
        completed := s.completed + 1, latches := { s.latches with f := none }, stage := .fetch }

/-- R280, R183: a multiply alone in the pipeline takes one cycle more, eight. -/
def Obligations.MultiplyPassage : Prop :=
  ∀ (s : State) (rd rs1 rs2 : Reg), idle s → lastAtPc (.mul rd rs1 rs2) s → s.clock + 8 ≤ s.maxCycles →
    ∃ sb : Vector Nat 32, (∀ r : Reg, sb.get r = 0) ∧
      core.run 8 s = .next { s with
        regs := s.regs.set rd.val (reg s rs1 * reg s rs2) rd.isLt, sb := sb, z := decide (reg s rs1 * reg s rs2 = 0)
        pc := s.pc + 4, clock := s.clock + 8, completed := s.completed + 1
        latches := { s.latches with f := none }, stage := .fetch }

/-- R280, R161 to R164: a load or store alone in the pipeline. -/
def Obligations.LoadStorePassage : Prop :=
  ∀ (s : State) (i : Instr) (a : Word), idle s → lastAtPc i s → s.clock + 7 ≤ s.maxCycles → s.dm.wf →
    0 ≤ a.toInt ∧ a.toInt < s.dmemSize →
    (∀ rd rs1 rs2 imm,
      (i = .load rd rs1 imm ∧ a = reg s rs1 + imm) ∨ (i = .ldr rd rs1 rs2 ∧ a = reg s rs1 + reg s rs2) →
      ∃ sb : Vector Nat 32, (∀ r : Reg, sb.get r = 0) ∧
        core.run 7 s = .next { s with
          regs := s.regs.set rd.val (readCell s.dm a.toInt.toNat) rd.isLt, sb := sb, pc := s.pc + 4
          clock := s.clock + 7, completed := s.completed + 1, latches := { s.latches with f := none }, stage := .fetch }) ∧
    (∀ rs1 rs2 rs3 imm,
      (i = .store rs1 rs2 imm ∧ a = reg s rs2 + imm) ∨ (i = .str rs1 rs2 rs3 ∧ a = reg s rs2 + reg s rs3) →
      ∃ dm : Memory, (∀ b : Nat, readCell dm b = if (b : Int) = a.toInt then reg s rs1 else readCell s.dm b) ∧
        core.run 7 s = .next { s with
          dm := dm, pc := s.pc + 4, clock := s.clock + 7, completed := s.completed + 1
          latches := { s.latches with f := none }, stage := .fetch })

/-- R280, R210 to R212, R215: HALT alone in the pipeline stops the machine in its seventh cycle; a branch that is not taken
commits and changes nothing but `pc` and the counters. -/
def Obligations.HaltAndUntakenBranchPassage : Prop :=
  ∀ s : State, idle s → s.clock + 7 ≤ s.maxCycles →
    (lastAtPc .halt s →
      core.run 7 s = .next { s with
        haltPending := true, stopped := true, pc := s.pc + 4, clock := s.clock + 7, completed := s.imem.length
        latches := { s.latches with f := none }, stage := .fetch }) ∧
    (∀ imm i, ((i = .bz imm ∧ s.z = false) ∨ (i = .bnz imm ∧ s.z = true)) → lastAtPc i s →
      core.run 7 s = .next { s with
        pc := s.pc + 4, clock := s.clock + 7, completed := s.completed + 1
        latches := { s.latches with f := none }, stage := .fetch })
end

