-- ==== Sys2Proof/Laws/Load.lean ====
section
/-! SUPPORT. What the checks of a load find, what a record's instruction is, and what decoding a list of words gives
(60_exceptions.md R242; 30_encoding.md R83, R87, R88). -/

namespace Sys2Proof.Machine

open Sys2Proof.Safety

/-- A register field that passes its check is the register it is read as. -/
theorem registerOk_eq {n : Option Int} (h : registerOk n = true) : n = some ((toReg n).val : Int) := by
  cases n with
  | none => simp [registerOk] at h
  | some n =>
    simp only [registerOk, Bool.and_eq_true, decide_eq_true_eq] at h
    simp only [toReg, Option.getD_some, Fin.ofNat, Option.some.injEq]
    omega

/-- An immediate that passes its check is the Word it is read as. -/
theorem immediateOk_eq {n : Int} (h : immediateOk n = true) : n = (toImm n).toInt := by
  simp only [immediateOk, Bool.and_eq_true, decide_eq_true_eq] at h
  simp only [toImm, BitVec.toInt_ofInt]
  rw [Int.bmod_eq_of_le] <;> omega

/-- A well-formed record has an instruction, with the record's opcode, registers and immediate. -/
theorem recordInstr_of_wellFormed {r : Record} (h : recordWellFormed r = true) :
    ∃ i, recordInstr r = some i ∧ recordIs r i ∧ (opcodeNumber i).toNat = r.op := by
  obtain ⟨op, rd, rs1, rs2, rs3, imm⟩ := r
  simp only [recordWellFormed, knownOpcode, Bool.and_eq_true, decide_eq_true_eq] at h
  obtain ⟨⟨h1, h2⟩, h3⟩ := h
  interval_cases op <;>
    simp only [fieldsUsed, fieldOk, List.all_cons, List.all_nil, Bool.and_eq_true, Bool.and_true] at h3 <;>
    refine ⟨_, rfl, ?_, rfl⟩ <;> simp only [recordIs, true_and]
  all_goals first
    | exact ⟨registerOk_eq h3.1, registerOk_eq h3.2.1, registerOk_eq h3.2.2⟩
    | exact ⟨registerOk_eq h3.1, registerOk_eq h3.2.1, immediateOk_eq h3.2.2⟩
    | exact ⟨registerOk_eq h3.1, immediateOk_eq h3.2⟩
    | exact immediateOk_eq h3

/-- A record fails no check exactly when it is well formed. -/
theorem recordFault_eq_none {r : Record} {index : Nat} : recordFault index r = none ↔ recordWellFormed r = true := by
  simp only [recordFault, recordWellFormed]
  cases hk : knownOpcode r.op
  · simp
  · simp only [Bool.not_true, Bool.false_eq_true, if_false, Bool.true_and, Option.map_eq_none_iff, List.find?_eq_none,
      List.all_eq_true]
    constructor
    · intro h f hf
      have := h f (by cases f <;> simp)
      simpa [hf] using this
    · intro h f _
      by_cases hf : f ∈ fieldsUsed r.op
      · simp [h f hf]
      · simp [hf]

/-- A list of records fails no check exactly when each is well formed. -/
theorem recordsFault_eq_none {prog : List Record} {index : Nat} :
    recordsFault index prog = none ↔ prog.all recordWellFormed = true := by
  induction prog generalizing index with
  | nil => simp [recordsFault]
  | cons r rs ih =>
    simp only [recordsFault, List.all_cons, Bool.and_eq_true]
    cases h : recordFault index r with
    | some f => simp [← recordFault_eq_none (index := index), h]
    | none => simp [ih, recordFault_eq_none.mp h]

/-- Well-formed records before a list leave its checks as they are, but for the index. -/
theorem recordsFault_append {before rest : List Record} {index : Nat} (h : before.all recordWellFormed = true) :
    recordsFault index (before ++ rest) = recordsFault (index + before.length) rest := by
  induction before generalizing index with
  | nil => simp
  | cons r rs ih =>
    simp only [List.all_cons, Bool.and_eq_true] at h
    simp only [List.cons_append, recordsFault, recordFault_eq_none.mpr h.1, ih h.2, List.length_cons]
    congr 1
    omega

/-- A word that decodes puts its instruction before those of the words after it. -/
theorem decodeWords_cons_ok {w : BitVec 64} {i : Instr} (h : decode64 w = .ok i) (index : Nat) (ws : List (BitVec 64)) :
    decodeWords index (w :: ws) = (decodeWords (index + 1) ws).map (i :: ·) := by
  simp only [decodeWords, h]
  cases decodeWords (index + 1) ws <;> rfl

/-- A word that decodes to none ends the decoding with its index. -/
theorem decodeWords_cons_error {w : BitVec 64} {e : DecodeError} (h : decode64 w = .error e) (index : Nat)
    (ws : List (BitVec 64)) : decodeWords index (w :: ws) = .error index := by
  simp only [decodeWords, h]

end Sys2Proof.Machine
end

