-- ==== Sys2Proof/Laws/Memory.lean ====
section
/-! SUPPORT. The data store: a read after a write, and the canonical form kept. -/

namespace Sys2Proof.Machine

theorem Memory.wf_nil : Memory.wf [] := ⟨List.Pairwise.nil, by simp⟩

theorem Memory.wf_cons {b : Nat} {x : Word} {m : Memory} :
    Memory.wf ((b, x) :: m) ↔ (∀ c ∈ m, b < c.1) ∧ x ≠ 0 ∧ Memory.wf m := by
  simp only [Memory.wf, List.pairwise_cons, List.mem_cons, forall_eq_or_imp]
  tauto

/-- A cell below every listed address reads 0. -/
theorem readCell_below {m : Memory} {a : Nat} (h : ∀ c ∈ m, a < c.1) : readCell m a = 0 := by
  induction m with
  | nil => rfl
  | cons c m ih =>
    obtain ⟨b, x⟩ := c
    have hb : a < b := h (b, x) (by simp)
    rw [readCell, if_neg (by omega)]
    exact ih fun c hc => h c (by simp [hc])

/-- Every entry after a write was there before, or is the one written. -/
theorem mem_writeCell {m : Memory} {a : Nat} {v : Word} {c : Nat × Word} (h : c ∈ writeCell m a v) :
    c ∈ m ∨ (c = (a, v) ∧ v ≠ 0) := by
  induction m with
  | nil =>
    rw [writeCell] at h
    split_ifs at h with hv
    · exact .inl h
    · exact .inr ⟨List.mem_singleton.mp h, hv⟩
  | cons d m ih =>
    obtain ⟨b, x⟩ := d
    rw [writeCell] at h
    split_ifs at h with h1 h2 h3 h4
    · exact .inl h
    · rcases List.mem_cons.mp h with rfl | h'
      · exact .inr ⟨rfl, h2⟩
      · exact .inl h'
    · exact .inl (List.mem_cons_of_mem _ h)
    · rcases List.mem_cons.mp h with rfl | h'
      · exact .inr ⟨rfl, h4⟩
      · exact .inl (List.mem_cons_of_mem _ h')
    · rcases List.mem_cons.mp h with rfl | h'
      · exact .inl (by simp)
      · exact (ih h').imp (List.mem_cons_of_mem _) id

/-- A write keeps the canonical form. -/
theorem writeCell_wf {m : Memory} (h : m.wf) (a : Nat) (v : Word) : (writeCell m a v).wf := by
  induction m with
  | nil =>
    rw [writeCell]
    split_ifs with hv
    · exact h
    · exact Memory.wf_cons.mpr ⟨by simp, hv, h⟩
  | cons c m ih =>
    obtain ⟨b, x⟩ := c
    obtain ⟨hlt, hx, hm⟩ := Memory.wf_cons.mp h
    rw [writeCell]
    split_ifs with h1 h2 h3 h4
    · exact h
    · refine Memory.wf_cons.mpr ⟨fun c hc => ?_, h2, h⟩
      rcases List.mem_cons.mp hc with rfl | hc'
      · exact h1
      · exact h1.trans (hlt c hc')
    · exact hm
    · exact Memory.wf_cons.mpr ⟨fun c hc => h3 ▸ hlt c hc, h4, hm⟩
    · refine Memory.wf_cons.mpr ⟨fun c hc => ?_, hx, ih hm⟩
      rcases mem_writeCell hc with hc' | ⟨rfl, -⟩
      · exact hlt c hc'
      · show b < a
        omega

/-- A read after a write: the value written at its address, the old value at every other. -/
theorem readCell_writeCell {m : Memory} (h : m.wf) (a : Nat) (v : Word) (b : Nat) :
    readCell (writeCell m a v) b = if b = a then v else readCell m b := by
  induction m with
  | nil =>
    rw [writeCell]
    split_ifs with hv hb hb <;> simp_all [readCell]
  | cons c m ih =>
    obtain ⟨d, x⟩ := c
    obtain ⟨hlt, hx, hm⟩ := Memory.wf_cons.mp h
    rw [writeCell]
    split_ifs with h1 h2 h3 h4 h5 h6 h7 h8
    · subst h2 h3
      refine readCell_below fun c hc => ?_
      rcases List.mem_cons.mp hc with rfl | hc'
      · exact h1
      · exact h1.trans (hlt c hc')
    · rfl
    · simp [readCell, h4]
    · simp [readCell, h4]
    · subst h5 h6 h7
      exact readCell_below hlt
    · rw [readCell, if_neg (by omega)]
    · simp [readCell, h8]
    · have : b ≠ d := by omega
      simp [readCell, this, h8]
    · have : b ≠ d := by omega
      rw [readCell, if_neg this, ih hm, if_pos ‹_›]
    · rw [readCell, ih hm]
      split_ifs with h9
      · subst h9; simp [readCell]
      · simp [readCell, h9]

end Sys2Proof.Machine
end

