-- ==== Sys2Proof/Laws/PerInstr.lean ====
section
/-! SUPPORT. The family EncodedOpcode: the word the encoder writes for an instruction carries that instruction's opcode
number in its field `opc` (30_encoding.md R81, R82, R91), one lemma for each constructor. -/

namespace Sys2Proof.Laws

open Sys2Proof

/-- The field `opc` of a packed word is what was packed there. -/
theorem opcField_packWord (opc : BitVec 6) (rd rs1 rs2 rs3 : Reg) (imm : Word) :
    opcField (packWord opc rd rs1 rs2 rs3 imm) = opc := by
  apply BitVec.eq_of_getLsbD_eq
  intro k hk
  simp only [opcField, packWord, BitVec.getLsbD_extractLsb', BitVec.getLsbD_append, hk, decide_true, Bool.true_and]
  interval_cases k <;> simp

/-- R91: the encoder writes the opcode number of R82. -/
def EncodedOpcode.Statement (i : Instr) : Prop := opcField (encode64 i) = opcodeNumber i

theorem EncodedOpcode.store (rs1 rs2 : Reg) (imm : Word) : EncodedOpcode.Statement (.store rs1 rs2 imm) :=
  opcField_packWord _ _ _ _ _ _

theorem EncodedOpcode.str (rs1 rs2 rs3 : Reg) : EncodedOpcode.Statement (.str rs1 rs2 rs3) :=
  opcField_packWord _ _ _ _ _ _

theorem EncodedOpcode.load (rd rs1 : Reg) (imm : Word) : EncodedOpcode.Statement (.load rd rs1 imm) :=
  opcField_packWord _ _ _ _ _ _

theorem EncodedOpcode.ldr (rd rs1 rs2 : Reg) : EncodedOpcode.Statement (.ldr rd rs1 rs2) :=
  opcField_packWord _ _ _ _ _ _

theorem EncodedOpcode.add (rd rs1 rs2 : Reg) : EncodedOpcode.Statement (.add rd rs1 rs2) :=
  opcField_packWord _ _ _ _ _ _

theorem EncodedOpcode.sub (rd rs1 rs2 : Reg) : EncodedOpcode.Statement (.sub rd rs1 rs2) :=
  opcField_packWord _ _ _ _ _ _

theorem EncodedOpcode.mul (rd rs1 rs2 : Reg) : EncodedOpcode.Statement (.mul rd rs1 rs2) :=
  opcField_packWord _ _ _ _ _ _

theorem EncodedOpcode.and (rd rs1 rs2 : Reg) : EncodedOpcode.Statement (.and rd rs1 rs2) :=
  opcField_packWord _ _ _ _ _ _

theorem EncodedOpcode.or (rd rs1 rs2 : Reg) : EncodedOpcode.Statement (.or rd rs1 rs2) :=
  opcField_packWord _ _ _ _ _ _

theorem EncodedOpcode.exor (rd rs1 rs2 : Reg) : EncodedOpcode.Statement (.exor rd rs1 rs2) :=
  opcField_packWord _ _ _ _ _ _

theorem EncodedOpcode.addl (rd rs1 : Reg) (imm : Word) : EncodedOpcode.Statement (.addl rd rs1 imm) :=
  opcField_packWord _ _ _ _ _ _

theorem EncodedOpcode.subl (rd rs1 : Reg) (imm : Word) : EncodedOpcode.Statement (.subl rd rs1 imm) :=
  opcField_packWord _ _ _ _ _ _

theorem EncodedOpcode.movc (rd : Reg) (imm : Word) : EncodedOpcode.Statement (.movc rd imm) :=
  opcField_packWord _ _ _ _ _ _

theorem EncodedOpcode.bz (imm : Word) : EncodedOpcode.Statement (.bz imm) :=
  opcField_packWord _ _ _ _ _ _

theorem EncodedOpcode.bnz (imm : Word) : EncodedOpcode.Statement (.bnz imm) :=
  opcField_packWord _ _ _ _ _ _

theorem EncodedOpcode.jump (rs1 : Reg) (imm : Word) : EncodedOpcode.Statement (.jump rs1 imm) :=
  opcField_packWord _ _ _ _ _ _

theorem EncodedOpcode.halt : EncodedOpcode.Statement .halt :=
  opcField_packWord _ _ _ _ _ _

end Sys2Proof.Laws
end

