-- ==== Sys2Proof/Laws/State.lean ====
section
/-! SUPPORT. Every field after every named update of the state, and what the accessors read after it. -/

namespace Sys2Proof.Machine

variable (s : State)

/-! ### setReg -/

@[simp] theorem setReg_regs (r : Reg) (v : Word) : (setReg s r v).regs = s.regs.set r.val v r.isLt := rfl
@[simp] theorem setReg_sb (r : Reg) (v : Word) : (setReg s r v).sb = s.sb := rfl
@[simp] theorem setReg_dm (r : Reg) (v : Word) : (setReg s r v).dm = s.dm := rfl
@[simp] theorem setReg_pc (r : Reg) (v : Word) : (setReg s r v).pc = s.pc := rfl
@[simp] theorem setReg_z (r : Reg) (v : Word) : (setReg s r v).z = s.z := rfl
@[simp] theorem setReg_haltPending (r : Reg) (v : Word) : (setReg s r v).haltPending = s.haltPending := rfl
@[simp] theorem setReg_completed (r : Reg) (v : Word) : (setReg s r v).completed = s.completed := rfl
@[simp] theorem setReg_clock (r : Reg) (v : Word) : (setReg s r v).clock = s.clock := rfl
@[simp] theorem setReg_stopped (r : Reg) (v : Word) : (setReg s r v).stopped = s.stopped := rfl
@[simp] theorem setReg_latches (r : Reg) (v : Word) : (setReg s r v).latches = s.latches := rfl
@[simp] theorem setReg_bits (r : Reg) (v : Word) : (setReg s r v).bits = s.bits := rfl
@[simp] theorem setReg_imem (r : Reg) (v : Word) : (setReg s r v).imem = s.imem := rfl
@[simp] theorem setReg_dmemSize (r : Reg) (v : Word) : (setReg s r v).dmemSize = s.dmemSize := rfl
@[simp] theorem setReg_maxCycles (r : Reg) (v : Word) : (setReg s r v).maxCycles = s.maxCycles := rfl
@[simp] theorem setReg_stage (r : Reg) (v : Word) : (setReg s r v).stage = s.stage := rfl

/-! ### setPending -/

@[simp] theorem setPending_regs (r : Reg) (n : Nat) : (setPending s r n).regs = s.regs := rfl
@[simp] theorem setPending_sb (r : Reg) (n : Nat) : (setPending s r n).sb = s.sb.set r.val n r.isLt := rfl
@[simp] theorem setPending_dm (r : Reg) (n : Nat) : (setPending s r n).dm = s.dm := rfl
@[simp] theorem setPending_pc (r : Reg) (n : Nat) : (setPending s r n).pc = s.pc := rfl
@[simp] theorem setPending_z (r : Reg) (n : Nat) : (setPending s r n).z = s.z := rfl
@[simp] theorem setPending_haltPending (r : Reg) (n : Nat) : (setPending s r n).haltPending = s.haltPending := rfl
@[simp] theorem setPending_completed (r : Reg) (n : Nat) : (setPending s r n).completed = s.completed := rfl
@[simp] theorem setPending_clock (r : Reg) (n : Nat) : (setPending s r n).clock = s.clock := rfl
@[simp] theorem setPending_stopped (r : Reg) (n : Nat) : (setPending s r n).stopped = s.stopped := rfl
@[simp] theorem setPending_latches (r : Reg) (n : Nat) : (setPending s r n).latches = s.latches := rfl
@[simp] theorem setPending_bits (r : Reg) (n : Nat) : (setPending s r n).bits = s.bits := rfl
@[simp] theorem setPending_imem (r : Reg) (n : Nat) : (setPending s r n).imem = s.imem := rfl
@[simp] theorem setPending_dmemSize (r : Reg) (n : Nat) : (setPending s r n).dmemSize = s.dmemSize := rfl
@[simp] theorem setPending_maxCycles (r : Reg) (n : Nat) : (setPending s r n).maxCycles = s.maxCycles := rfl
@[simp] theorem setPending_stage (r : Reg) (n : Nat) : (setPending s r n).stage = s.stage := rfl

/-! ### setDm -/

@[simp] theorem setDm_regs (m : Memory) : (setDm s m).regs = s.regs := rfl
@[simp] theorem setDm_sb (m : Memory) : (setDm s m).sb = s.sb := rfl
@[simp] theorem setDm_dm (m : Memory) : (setDm s m).dm = m := rfl
@[simp] theorem setDm_pc (m : Memory) : (setDm s m).pc = s.pc := rfl
@[simp] theorem setDm_z (m : Memory) : (setDm s m).z = s.z := rfl
@[simp] theorem setDm_haltPending (m : Memory) : (setDm s m).haltPending = s.haltPending := rfl
@[simp] theorem setDm_completed (m : Memory) : (setDm s m).completed = s.completed := rfl
@[simp] theorem setDm_clock (m : Memory) : (setDm s m).clock = s.clock := rfl
@[simp] theorem setDm_stopped (m : Memory) : (setDm s m).stopped = s.stopped := rfl
@[simp] theorem setDm_latches (m : Memory) : (setDm s m).latches = s.latches := rfl
@[simp] theorem setDm_bits (m : Memory) : (setDm s m).bits = s.bits := rfl
@[simp] theorem setDm_imem (m : Memory) : (setDm s m).imem = s.imem := rfl
@[simp] theorem setDm_dmemSize (m : Memory) : (setDm s m).dmemSize = s.dmemSize := rfl
@[simp] theorem setDm_maxCycles (m : Memory) : (setDm s m).maxCycles = s.maxCycles := rfl
@[simp] theorem setDm_stage (m : Memory) : (setDm s m).stage = s.stage := rfl

/-! ### setPc -/

@[simp] theorem setPc_regs (a : Word) : (setPc s a).regs = s.regs := rfl
@[simp] theorem setPc_sb (a : Word) : (setPc s a).sb = s.sb := rfl
@[simp] theorem setPc_dm (a : Word) : (setPc s a).dm = s.dm := rfl
@[simp] theorem setPc_pc (a : Word) : (setPc s a).pc = a := rfl
@[simp] theorem setPc_z (a : Word) : (setPc s a).z = s.z := rfl
@[simp] theorem setPc_haltPending (a : Word) : (setPc s a).haltPending = s.haltPending := rfl
@[simp] theorem setPc_completed (a : Word) : (setPc s a).completed = s.completed := rfl
@[simp] theorem setPc_clock (a : Word) : (setPc s a).clock = s.clock := rfl
@[simp] theorem setPc_stopped (a : Word) : (setPc s a).stopped = s.stopped := rfl
@[simp] theorem setPc_latches (a : Word) : (setPc s a).latches = s.latches := rfl
@[simp] theorem setPc_bits (a : Word) : (setPc s a).bits = s.bits := rfl
@[simp] theorem setPc_imem (a : Word) : (setPc s a).imem = s.imem := rfl
@[simp] theorem setPc_dmemSize (a : Word) : (setPc s a).dmemSize = s.dmemSize := rfl
@[simp] theorem setPc_maxCycles (a : Word) : (setPc s a).maxCycles = s.maxCycles := rfl
@[simp] theorem setPc_stage (a : Word) : (setPc s a).stage = s.stage := rfl

/-! ### setZ -/

@[simp] theorem setZ_regs (b : Bool) : (setZ s b).regs = s.regs := rfl
@[simp] theorem setZ_sb (b : Bool) : (setZ s b).sb = s.sb := rfl
@[simp] theorem setZ_dm (b : Bool) : (setZ s b).dm = s.dm := rfl
@[simp] theorem setZ_pc (b : Bool) : (setZ s b).pc = s.pc := rfl
@[simp] theorem setZ_z (b : Bool) : (setZ s b).z = b := rfl
@[simp] theorem setZ_haltPending (b : Bool) : (setZ s b).haltPending = s.haltPending := rfl
@[simp] theorem setZ_completed (b : Bool) : (setZ s b).completed = s.completed := rfl
@[simp] theorem setZ_clock (b : Bool) : (setZ s b).clock = s.clock := rfl
@[simp] theorem setZ_stopped (b : Bool) : (setZ s b).stopped = s.stopped := rfl
@[simp] theorem setZ_latches (b : Bool) : (setZ s b).latches = s.latches := rfl
@[simp] theorem setZ_bits (b : Bool) : (setZ s b).bits = s.bits := rfl
@[simp] theorem setZ_imem (b : Bool) : (setZ s b).imem = s.imem := rfl
@[simp] theorem setZ_dmemSize (b : Bool) : (setZ s b).dmemSize = s.dmemSize := rfl
@[simp] theorem setZ_maxCycles (b : Bool) : (setZ s b).maxCycles = s.maxCycles := rfl
@[simp] theorem setZ_stage (b : Bool) : (setZ s b).stage = s.stage := rfl

/-! ### setHaltPending -/

@[simp] theorem setHaltPending_regs (b : Bool) : (setHaltPending s b).regs = s.regs := rfl
@[simp] theorem setHaltPending_sb (b : Bool) : (setHaltPending s b).sb = s.sb := rfl
@[simp] theorem setHaltPending_dm (b : Bool) : (setHaltPending s b).dm = s.dm := rfl
@[simp] theorem setHaltPending_pc (b : Bool) : (setHaltPending s b).pc = s.pc := rfl
@[simp] theorem setHaltPending_z (b : Bool) : (setHaltPending s b).z = s.z := rfl
@[simp] theorem setHaltPending_haltPending (b : Bool) : (setHaltPending s b).haltPending = b := rfl
@[simp] theorem setHaltPending_completed (b : Bool) : (setHaltPending s b).completed = s.completed := rfl
@[simp] theorem setHaltPending_clock (b : Bool) : (setHaltPending s b).clock = s.clock := rfl
@[simp] theorem setHaltPending_stopped (b : Bool) : (setHaltPending s b).stopped = s.stopped := rfl
@[simp] theorem setHaltPending_latches (b : Bool) : (setHaltPending s b).latches = s.latches := rfl
@[simp] theorem setHaltPending_bits (b : Bool) : (setHaltPending s b).bits = s.bits := rfl
@[simp] theorem setHaltPending_imem (b : Bool) : (setHaltPending s b).imem = s.imem := rfl
@[simp] theorem setHaltPending_dmemSize (b : Bool) : (setHaltPending s b).dmemSize = s.dmemSize := rfl
@[simp] theorem setHaltPending_maxCycles (b : Bool) : (setHaltPending s b).maxCycles = s.maxCycles := rfl
@[simp] theorem setHaltPending_stage (b : Bool) : (setHaltPending s b).stage = s.stage := rfl

/-! ### setCompleted -/

@[simp] theorem setCompleted_regs (n : Nat) : (setCompleted s n).regs = s.regs := rfl
@[simp] theorem setCompleted_sb (n : Nat) : (setCompleted s n).sb = s.sb := rfl
@[simp] theorem setCompleted_dm (n : Nat) : (setCompleted s n).dm = s.dm := rfl
@[simp] theorem setCompleted_pc (n : Nat) : (setCompleted s n).pc = s.pc := rfl
@[simp] theorem setCompleted_z (n : Nat) : (setCompleted s n).z = s.z := rfl
@[simp] theorem setCompleted_haltPending (n : Nat) : (setCompleted s n).haltPending = s.haltPending := rfl
@[simp] theorem setCompleted_completed (n : Nat) : (setCompleted s n).completed = n := rfl
@[simp] theorem setCompleted_clock (n : Nat) : (setCompleted s n).clock = s.clock := rfl
@[simp] theorem setCompleted_stopped (n : Nat) : (setCompleted s n).stopped = s.stopped := rfl
@[simp] theorem setCompleted_latches (n : Nat) : (setCompleted s n).latches = s.latches := rfl
@[simp] theorem setCompleted_bits (n : Nat) : (setCompleted s n).bits = s.bits := rfl
@[simp] theorem setCompleted_imem (n : Nat) : (setCompleted s n).imem = s.imem := rfl
@[simp] theorem setCompleted_dmemSize (n : Nat) : (setCompleted s n).dmemSize = s.dmemSize := rfl
@[simp] theorem setCompleted_maxCycles (n : Nat) : (setCompleted s n).maxCycles = s.maxCycles := rfl
@[simp] theorem setCompleted_stage (n : Nat) : (setCompleted s n).stage = s.stage := rfl

/-! ### setClock -/

@[simp] theorem setClock_regs (n : Nat) : (setClock s n).regs = s.regs := rfl
@[simp] theorem setClock_sb (n : Nat) : (setClock s n).sb = s.sb := rfl
@[simp] theorem setClock_dm (n : Nat) : (setClock s n).dm = s.dm := rfl
@[simp] theorem setClock_pc (n : Nat) : (setClock s n).pc = s.pc := rfl
@[simp] theorem setClock_z (n : Nat) : (setClock s n).z = s.z := rfl
@[simp] theorem setClock_haltPending (n : Nat) : (setClock s n).haltPending = s.haltPending := rfl
@[simp] theorem setClock_completed (n : Nat) : (setClock s n).completed = s.completed := rfl
@[simp] theorem setClock_clock (n : Nat) : (setClock s n).clock = n := rfl
@[simp] theorem setClock_stopped (n : Nat) : (setClock s n).stopped = s.stopped := rfl
@[simp] theorem setClock_latches (n : Nat) : (setClock s n).latches = s.latches := rfl
@[simp] theorem setClock_bits (n : Nat) : (setClock s n).bits = s.bits := rfl
@[simp] theorem setClock_imem (n : Nat) : (setClock s n).imem = s.imem := rfl
@[simp] theorem setClock_dmemSize (n : Nat) : (setClock s n).dmemSize = s.dmemSize := rfl
@[simp] theorem setClock_maxCycles (n : Nat) : (setClock s n).maxCycles = s.maxCycles := rfl
@[simp] theorem setClock_stage (n : Nat) : (setClock s n).stage = s.stage := rfl

/-! ### setStopped -/

@[simp] theorem setStopped_regs (b : Bool) : (setStopped s b).regs = s.regs := rfl
@[simp] theorem setStopped_sb (b : Bool) : (setStopped s b).sb = s.sb := rfl
@[simp] theorem setStopped_dm (b : Bool) : (setStopped s b).dm = s.dm := rfl
@[simp] theorem setStopped_pc (b : Bool) : (setStopped s b).pc = s.pc := rfl
@[simp] theorem setStopped_z (b : Bool) : (setStopped s b).z = s.z := rfl
@[simp] theorem setStopped_haltPending (b : Bool) : (setStopped s b).haltPending = s.haltPending := rfl
@[simp] theorem setStopped_completed (b : Bool) : (setStopped s b).completed = s.completed := rfl
@[simp] theorem setStopped_clock (b : Bool) : (setStopped s b).clock = s.clock := rfl
@[simp] theorem setStopped_stopped (b : Bool) : (setStopped s b).stopped = b := rfl
@[simp] theorem setStopped_latches (b : Bool) : (setStopped s b).latches = s.latches := rfl
@[simp] theorem setStopped_bits (b : Bool) : (setStopped s b).bits = s.bits := rfl
@[simp] theorem setStopped_imem (b : Bool) : (setStopped s b).imem = s.imem := rfl
@[simp] theorem setStopped_dmemSize (b : Bool) : (setStopped s b).dmemSize = s.dmemSize := rfl
@[simp] theorem setStopped_maxCycles (b : Bool) : (setStopped s b).maxCycles = s.maxCycles := rfl
@[simp] theorem setStopped_stage (b : Bool) : (setStopped s b).stage = s.stage := rfl

/-! ### setBits -/

@[simp] theorem setBits_regs (b : StageBits) : (setBits s b).regs = s.regs := rfl
@[simp] theorem setBits_sb (b : StageBits) : (setBits s b).sb = s.sb := rfl
@[simp] theorem setBits_dm (b : StageBits) : (setBits s b).dm = s.dm := rfl
@[simp] theorem setBits_pc (b : StageBits) : (setBits s b).pc = s.pc := rfl
@[simp] theorem setBits_z (b : StageBits) : (setBits s b).z = s.z := rfl
@[simp] theorem setBits_haltPending (b : StageBits) : (setBits s b).haltPending = s.haltPending := rfl
@[simp] theorem setBits_completed (b : StageBits) : (setBits s b).completed = s.completed := rfl
@[simp] theorem setBits_clock (b : StageBits) : (setBits s b).clock = s.clock := rfl
@[simp] theorem setBits_stopped (b : StageBits) : (setBits s b).stopped = s.stopped := rfl
@[simp] theorem setBits_latches (b : StageBits) : (setBits s b).latches = s.latches := rfl
@[simp] theorem setBits_bits (b : StageBits) : (setBits s b).bits = b := rfl
@[simp] theorem setBits_imem (b : StageBits) : (setBits s b).imem = s.imem := rfl
@[simp] theorem setBits_dmemSize (b : StageBits) : (setBits s b).dmemSize = s.dmemSize := rfl
@[simp] theorem setBits_maxCycles (b : StageBits) : (setBits s b).maxCycles = s.maxCycles := rfl
@[simp] theorem setBits_stage (b : StageBits) : (setBits s b).stage = s.stage := rfl

/-! ### setStage -/

@[simp] theorem setStage_regs (st : Stage) : (setStage s st).regs = s.regs := rfl
@[simp] theorem setStage_sb (st : Stage) : (setStage s st).sb = s.sb := rfl
@[simp] theorem setStage_dm (st : Stage) : (setStage s st).dm = s.dm := rfl
@[simp] theorem setStage_pc (st : Stage) : (setStage s st).pc = s.pc := rfl
@[simp] theorem setStage_z (st : Stage) : (setStage s st).z = s.z := rfl
@[simp] theorem setStage_haltPending (st : Stage) : (setStage s st).haltPending = s.haltPending := rfl
@[simp] theorem setStage_completed (st : Stage) : (setStage s st).completed = s.completed := rfl
@[simp] theorem setStage_clock (st : Stage) : (setStage s st).clock = s.clock := rfl
@[simp] theorem setStage_stopped (st : Stage) : (setStage s st).stopped = s.stopped := rfl
@[simp] theorem setStage_latches (st : Stage) : (setStage s st).latches = s.latches := rfl
@[simp] theorem setStage_bits (st : Stage) : (setStage s st).bits = s.bits := rfl
@[simp] theorem setStage_imem (st : Stage) : (setStage s st).imem = s.imem := rfl
@[simp] theorem setStage_dmemSize (st : Stage) : (setStage s st).dmemSize = s.dmemSize := rfl
@[simp] theorem setStage_maxCycles (st : Stage) : (setStage s st).maxCycles = s.maxCycles := rfl
@[simp] theorem setStage_stage (st : Stage) : (setStage s st).stage = st := rfl

/-! ### setSlot -/

@[simp] theorem setSlot_regs (st : Stage) (x : Slot) : (setSlot s st x).regs = s.regs := rfl
@[simp] theorem setSlot_sb (st : Stage) (x : Slot) : (setSlot s st x).sb = s.sb := rfl
@[simp] theorem setSlot_dm (st : Stage) (x : Slot) : (setSlot s st x).dm = s.dm := rfl
@[simp] theorem setSlot_pc (st : Stage) (x : Slot) : (setSlot s st x).pc = s.pc := rfl
@[simp] theorem setSlot_z (st : Stage) (x : Slot) : (setSlot s st x).z = s.z := rfl
@[simp] theorem setSlot_haltPending (st : Stage) (x : Slot) : (setSlot s st x).haltPending = s.haltPending := rfl
@[simp] theorem setSlot_completed (st : Stage) (x : Slot) : (setSlot s st x).completed = s.completed := rfl
@[simp] theorem setSlot_clock (st : Stage) (x : Slot) : (setSlot s st x).clock = s.clock := rfl
@[simp] theorem setSlot_stopped (st : Stage) (x : Slot) : (setSlot s st x).stopped = s.stopped := rfl
@[simp] theorem setSlot_latches (st : Stage) (x : Slot) : (setSlot s st x).latches = putLatch s.latches st x := rfl
@[simp] theorem setSlot_bits (st : Stage) (x : Slot) : (setSlot s st x).bits = s.bits := rfl
@[simp] theorem setSlot_imem (st : Stage) (x : Slot) : (setSlot s st x).imem = s.imem := rfl
@[simp] theorem setSlot_dmemSize (st : Stage) (x : Slot) : (setSlot s st x).dmemSize = s.dmemSize := rfl
@[simp] theorem setSlot_maxCycles (st : Stage) (x : Slot) : (setSlot s st x).maxCycles = s.maxCycles := rfl
@[simp] theorem setSlot_stage (st : Stage) (x : Slot) : (setSlot s st x).stage = s.stage := rfl

/-! ### The accessors -/

@[simp] theorem reg_setReg (r q : Reg) (v : Word) : reg (setReg s r v) q = if q = r then v else reg s q := by
  simp only [reg, setReg, Vector.get_eq_getElem, Vector.getElem_set, Fin.ext_iff, eq_comm]

@[simp] theorem pending_setPending (r q : Reg) (n : Nat) :
    pending (setPending s r n) q = if q = r then n else pending s q := by
  simp only [pending, setPending, Vector.get_eq_getElem, Vector.getElem_set, Fin.ext_iff, eq_comm]

@[simp] theorem pending_setReg (r : Reg) (v : Word) (q : Reg) : pending (setReg s r v) q = pending s q := rfl
@[simp] theorem slot_setReg (r : Reg) (v : Word) (t : Stage) : slot (setReg s r v) t = slot s t := rfl
@[simp] theorem reg_setPending (r : Reg) (n : Nat) (q : Reg) : reg (setPending s r n) q = reg s q := rfl
@[simp] theorem slot_setPending (r : Reg) (n : Nat) (t : Stage) : slot (setPending s r n) t = slot s t := rfl
@[simp] theorem reg_setDm (m : Memory) (q : Reg) : reg (setDm s m) q = reg s q := rfl
@[simp] theorem pending_setDm (m : Memory) (q : Reg) : pending (setDm s m) q = pending s q := rfl
@[simp] theorem slot_setDm (m : Memory) (t : Stage) : slot (setDm s m) t = slot s t := rfl
@[simp] theorem reg_setPc (a : Word) (q : Reg) : reg (setPc s a) q = reg s q := rfl
@[simp] theorem pending_setPc (a : Word) (q : Reg) : pending (setPc s a) q = pending s q := rfl
@[simp] theorem slot_setPc (a : Word) (t : Stage) : slot (setPc s a) t = slot s t := rfl
@[simp] theorem reg_setZ (b : Bool) (q : Reg) : reg (setZ s b) q = reg s q := rfl
@[simp] theorem pending_setZ (b : Bool) (q : Reg) : pending (setZ s b) q = pending s q := rfl
@[simp] theorem slot_setZ (b : Bool) (t : Stage) : slot (setZ s b) t = slot s t := rfl
@[simp] theorem reg_setHaltPending (b : Bool) (q : Reg) : reg (setHaltPending s b) q = reg s q := rfl
@[simp] theorem pending_setHaltPending (b : Bool) (q : Reg) : pending (setHaltPending s b) q = pending s q := rfl
@[simp] theorem slot_setHaltPending (b : Bool) (t : Stage) : slot (setHaltPending s b) t = slot s t := rfl
@[simp] theorem reg_setCompleted (n : Nat) (q : Reg) : reg (setCompleted s n) q = reg s q := rfl
@[simp] theorem pending_setCompleted (n : Nat) (q : Reg) : pending (setCompleted s n) q = pending s q := rfl
@[simp] theorem slot_setCompleted (n : Nat) (t : Stage) : slot (setCompleted s n) t = slot s t := rfl
@[simp] theorem reg_setClock (n : Nat) (q : Reg) : reg (setClock s n) q = reg s q := rfl
@[simp] theorem pending_setClock (n : Nat) (q : Reg) : pending (setClock s n) q = pending s q := rfl
@[simp] theorem slot_setClock (n : Nat) (t : Stage) : slot (setClock s n) t = slot s t := rfl
@[simp] theorem reg_setStopped (b : Bool) (q : Reg) : reg (setStopped s b) q = reg s q := rfl
@[simp] theorem pending_setStopped (b : Bool) (q : Reg) : pending (setStopped s b) q = pending s q := rfl
@[simp] theorem slot_setStopped (b : Bool) (t : Stage) : slot (setStopped s b) t = slot s t := rfl
@[simp] theorem reg_setBits (b : StageBits) (q : Reg) : reg (setBits s b) q = reg s q := rfl
@[simp] theorem pending_setBits (b : StageBits) (q : Reg) : pending (setBits s b) q = pending s q := rfl
@[simp] theorem slot_setBits (b : StageBits) (t : Stage) : slot (setBits s b) t = slot s t := rfl
@[simp] theorem reg_setStage (st : Stage) (q : Reg) : reg (setStage s st) q = reg s q := rfl
@[simp] theorem pending_setStage (st : Stage) (q : Reg) : pending (setStage s st) q = pending s q := rfl
@[simp] theorem slot_setStage (st : Stage) (t : Stage) : slot (setStage s st) t = slot s t := rfl
@[simp] theorem reg_setSlot (st : Stage) (x : Slot) (q : Reg) : reg (setSlot s st x) q = reg s q := rfl
@[simp] theorem pending_setSlot (st : Stage) (x : Slot) (q : Reg) : pending (setSlot s st x) q = pending s q := rfl

@[simp] theorem getLatch_putLatch (l : Latches) (st t : Stage) (x : Slot) :
    getLatch (putLatch l st x) t = if t = st then x else getLatch l t := by
  cases st <;> cases t <;> rfl

@[simp] theorem slot_setSlot (st t : Stage) (x : Slot) :
    slot (setSlot s st x) t = if t = st then x else slot s t := getLatch_putLatch s.latches st t x

end Sys2Proof.Machine
end

