-- ==== Sys2Proof/Laws/Stages.lean ====
section
/-! SUPPORT. One lemma for each shared operation, saying once what it can do, and what exec is at each stage. -/

namespace Sys2Proof.Machine

/-! ### Sequencing -/

@[simp] theorem andThen_next (s : State) (f : State → Result) : andThen (.next s) f = f s := rfl
@[simp] theorem andThen_fault (e : Fault) (f : State → Result) : andThen (.fault e) f = .fault e := rfl
@[simp] theorem andThen_refused (e : Refusal) (f : State → Result) : andThen (.refused e) f = .refused e := rfl

/-- A sequence answers a next state exactly when both parts do. -/
theorem andThen_eq_next {r : Result} {f : State → Result} {t : State} :
    andThen r f = .next t ↔ ∃ u, r = .next u ∧ f u = .next t := by
  cases r <;> simp

/-- A sequence faults exactly when its first part does, or its second does after it. -/
theorem andThen_eq_fault {r : Result} {f : State → Result} {e : Fault} :
    andThen r f = .fault e ↔ r = .fault e ∨ ∃ u, r = .next u ∧ f u = .fault e := by
  cases r <;> simp

/-- A sequence refuses exactly when its first part does, or its second does after it. -/
theorem andThen_eq_refused {r : Result} {f : State → Result} {e : Refusal} :
    andThen r f = .refused e ↔ r = .refused e ∨ ∃ u, r = .next u ∧ f u = .refused e := by
  cases r <;> simp

/-! ### The scoreboard -/

@[simp] theorem pending_claim (s : State) (r q : Reg) :
    pending (claim s r) q = if q = r then pending s r + 1 else pending s q := by
  simp [claim]

theorem release_eq_next {s t : State} {r : Reg} :
    release s r = .next t ↔ pending s r ≠ 0 ∧ t = setPending s r (pending s r - 1) := by
  unfold release
  split_ifs with h <;> simp [h, eq_comm]

theorem release_eq_fault {s : State} {r : Reg} {e : Fault} :
    release s r = .fault e ↔ pending s r = 0 ∧ e = .scoreboardUnderflow r s := by
  unfold release
  split_ifs with h <;> simp [h, eq_comm]

theorem release_ne_refused {s : State} {r : Reg} {e : Refusal} : release s r ≠ .refused e := by
  unfold release
  split_ifs <;> simp

/-! ### Slots -/

/-- The number of claims the instruction of a slot holds on `r`. -/
def claimsOn (r : Reg) (x : Slot) : Nat := if x.bind (fun l => dest l.ins) = some r then 1 else 0

/-- A slot dropped: it is empty, its claim is released, and nothing else has changed. -/
theorem dropSlot_eq_next {st : Stage} {s t : State} (h : dropSlot st s = .next t) :
    (∀ r, claimsOn r (slot s st) ≤ pending s r) ∧
    ∃ sb : Vector Nat 32, t = { s with sb := sb, latches := putLatch s.latches st none } ∧
      ∀ r : Reg, sb.get r = pending s r - claimsOn r (slot s st) := by
  unfold dropSlot at h
  obtain ⟨u, hu, ht⟩ := andThen_eq_next.mp h
  obtain rfl : setSlot u st none = t := by simpa using ht
  cases hd : (slot s st).bind (fun l => dest l.ins) with
  | none =>
    rw [hd] at hu
    obtain rfl : s = u := by simpa using hu
    exact ⟨fun r => by simp [claimsOn, hd], s.sb, rfl, fun r => by simp [claimsOn, hd, pending]⟩
  | some q =>
    rw [hd] at hu
    obtain ⟨hq, rfl⟩ := release_eq_next.mp hu
    refine ⟨fun r => ?_, _, rfl, fun r => ?_⟩
    · by_cases hr : q = r
      · subst hr; simp only [claimsOn, hd, if_true]; omega
      · simp [claimsOn, hd, hr]
    · have := pending_setPending s q r (pending s q - 1)
      rw [show (setPending s q (pending s q - 1)).sb.get r = _ from this]
      by_cases hr : r = q
      · subst hr; simp [claimsOn, hd, pending]
      · simp [claimsOn, hd, hr, Ne.symm hr, pending]

/-- A slot whose claim is counted can be dropped. -/
theorem dropSlot_answers {st : Stage} {s : State} (h : ∀ r, claimsOn r (slot s st) ≤ pending s r) :
    ∃ t, dropSlot st s = .next t := by
  unfold dropSlot
  cases hd : (slot s st).bind (fun l => dest l.ins) with
  | none => exact ⟨_, rfl⟩
  | some q =>
    have hq := h q
    simp only [claimsOn, hd, if_true] at hq
    exact ⟨_, andThen_eq_next.mpr ⟨_, release_eq_next.mpr ⟨by omega, rfl⟩, rfl⟩⟩

/-- Dropping a slot faults only by a release of a counter that is 0. -/
theorem dropSlot_eq_fault {st : Stage} {s : State} {e : Fault} (h : dropSlot st s = .fault e) :
    ∃ r, claimsOn r (slot s st) = 1 ∧ pending s r = 0 ∧ e = .scoreboardUnderflow r s := by
  unfold dropSlot at h
  rcases andThen_eq_fault.mp h with h | ⟨u, -, hu⟩
  · cases hd : (slot s st).bind (fun l => dest l.ins) with
    | none => rw [hd] at h; simp at h
    | some q =>
      rw [hd] at h
      obtain ⟨h0, rfl⟩ := release_eq_fault.mp h
      exact ⟨q, by simp [claimsOn, hd], h0, rfl⟩
  · simp at hu

theorem dropSlot_ne_refused {st : Stage} {s : State} {e : Refusal} : dropSlot st s ≠ .refused e := by
  unfold dropSlot
  intro h
  rcases andThen_eq_refused.mp h with h | ⟨u, -, hu⟩
  · cases hd : (slot s st).bind (fun l => dest l.ins) with
    | none => rw [hd] at h; simp at h
    | some q => rw [hd] at h; exact release_ne_refused h
  · simp at hu

/-- The claims of the slots a squash or a HALT drops. -/
def squashedClaims (s : State) (r : Reg) : Nat :=
  claimsOn r s.latches.m1 + claimsOn r s.latches.e2 + claimsOn r s.latches.e1

/-- Upstream of Memory2 cleared: D, E1, E2 and M1 are bubbles, their claims are released, and nothing else has changed. -/
theorem clearUpstream_eq_next {s t : State} (h : clearUpstream s = .next t) :
    (∀ r, squashedClaims s r ≤ pending s r) ∧
    ∃ sb : Vector Nat 32, t = { s with
        sb := sb, latches := { s.latches with d := none, e1 := none, e2 := none, m1 := none } } ∧
      ∀ r : Reg, sb.get r = pending s r - squashedClaims s r := by
  unfold clearUpstream at h
  obtain ⟨u, hu, h⟩ := andThen_eq_next.mp h
  obtain ⟨v, hv, h⟩ := andThen_eq_next.mp h
  obtain ⟨w, hw, h⟩ := andThen_eq_next.mp h
  obtain rfl : setSlot w .decode none = t := by simpa using h
  obtain ⟨a1, sb1, rfl, b1⟩ := dropSlot_eq_next hu
  obtain ⟨a2, sb2, rfl, b2⟩ := dropSlot_eq_next hv
  obtain ⟨a3, sb3, rfl, b3⟩ := dropSlot_eq_next hw
  simp only [slot, getLatch, putLatch, pending] at a1 b1 a2 b2 a3 b3
  refine ⟨fun r => ?_, sb3, rfl, fun r => ?_⟩
  · have := a1 r; have := a2 r; have := a3 r; have := b1 r; have := b2 r
    simp only [squashedClaims, pending]
    omega
  · have := a1 r; have := a2 r; have := a3 r; have := b1 r; have := b2 r; have := b3 r
    simp only [squashedClaims, pending]
    omega

/-- With every dropped claim counted, clearing upstream answers a next state. -/
theorem clearUpstream_answers {s : State} (h : ∀ r, squashedClaims s r ≤ pending s r) :
    ∃ t, clearUpstream s = .next t := by
  have c1 : ∀ r, claimsOn r (slot s .memory1) ≤ pending s r := fun r => by
    have := h r; simp only [squashedClaims] at this; simp only [slot, getLatch]; omega
  obtain ⟨u, hu⟩ := dropSlot_answers c1
  obtain ⟨-, sb1, eu, b1⟩ := dropSlot_eq_next hu
  have c2 : ∀ r, claimsOn r (slot u .execute2) ≤ pending u r := fun r => by
    have := h r; have := b1 r; subst eu
    simp only [squashedClaims, pending, slot, getLatch, putLatch] at *; omega
  obtain ⟨v, hv⟩ := dropSlot_answers c2
  obtain ⟨-, sb2, ev, b2⟩ := dropSlot_eq_next hv
  have c3 : ∀ r, claimsOn r (slot v .execute1) ≤ pending v r := fun r => by
    have := h r; have := b1 r; have := b2 r; subst eu; subst ev
    simp only [squashedClaims, pending, slot, getLatch, putLatch] at *; omega
  obtain ⟨w, hw⟩ := dropSlot_answers c3
  refine ⟨setSlot w .decode none, ?_⟩
  unfold clearUpstream
  rw [hu, andThen_next, hv, andThen_next, hw, andThen_next]

/-- Clearing upstream faults only by a release of a counter that is 0, which cannot be where every claim is counted. -/
theorem clearUpstream_eq_fault {s : State} {e : Fault} (h : clearUpstream s = .fault e) :
    ∃ r left, e = .scoreboardUnderflow r left := by
  unfold clearUpstream at h
  rcases andThen_eq_fault.mp h with h | ⟨u, -, h⟩
  · obtain ⟨r, -, -, h⟩ := dropSlot_eq_fault h; exact ⟨r, _, h⟩
  rcases andThen_eq_fault.mp h with h | ⟨v, -, h⟩
  · obtain ⟨r, -, -, h⟩ := dropSlot_eq_fault h; exact ⟨r, _, h⟩
  rcases andThen_eq_fault.mp h with h | ⟨w, -, h⟩
  · obtain ⟨r, -, -, h⟩ := dropSlot_eq_fault h; exact ⟨r, _, h⟩
  · simp at h

theorem clearUpstream_ne_refused {s : State} {e : Refusal} : clearUpstream s ≠ .refused e := by
  unfold clearUpstream
  intro h
  rcases andThen_eq_refused.mp h with h | ⟨u, -, h⟩
  · exact dropSlot_ne_refused h
  rcases andThen_eq_refused.mp h with h | ⟨v, -, h⟩
  · exact dropSlot_ne_refused h
  rcases andThen_eq_refused.mp h with h | ⟨w, -, h⟩
  · exact dropSlot_ne_refused h
  · simp at h

/-! ### exec at the stages that treat all instructions alike -/

theorem exec_fetch {s : State} (h : s.stage = .fetch) (i : Instr) : exec i s = .next (fetchInstr i s) := by
  cases i <;> simp only [exec, execStore, execStr, execLoad, execLdr, execAdd, execSub, execMul, execAnd, execOr, execExor,
    execAddl, execSubl, execMovc, execBz, execBnz, execJump, execHalt, stages, h]

theorem exec_decode {s : State} (h : s.stage = .decode) (i : Instr) : exec i s = .next (decodeInstr i s) := by
  cases i <;> simp only [exec, execStore, execStr, execLoad, execLdr, execAdd, execSub, execMul, execAnd, execOr, execExor,
    execAddl, execSubl, execMovc, execBz, execBnz, execJump, execHalt, stages, h]

theorem exec_execute2 {s : State} (h : s.stage = .execute2) (i : Instr) :
    exec i s = .next (advance s .execute2 .memory1) := by
  cases i <;> simp only [exec, execStore, execStr, execLoad, execLdr, execAdd, execSub, execMul, execAnd, execOr, execExor,
    execAddl, execSubl, execMovc, execBz, execBnz, execJump, execHalt, stages, h]

theorem exec_memory1 {s : State} (h : s.stage = .memory1) (i : Instr) :
    exec i s = .next (advance s .memory1 .memory2) := by
  cases i <;> simp only [exec, execStore, execStr, execLoad, execLdr, execAdd, execSub, execMul, execAnd, execOr, execExor,
    execAddl, execSubl, execMovc, execBz, execBnz, execJump, execHalt, stages, h]

theorem exec_writeback {s : State} (h : s.stage = .writeback) (i : Instr) : exec i s = writebackInstr i s := by
  cases i <;> simp only [exec, execStore, execStr, execLoad, execLdr, execAdd, execSub, execMul, execAnd, execOr, execExor,
    execAddl, execSubl, execMovc, execBz, execBnz, execJump, execHalt, stages, h]

/-! ### Execute1 and Memory2: every way they can go on -/

/-- `i` is a MUL. -/
def isMulOp (i : Instr) : Prop := ∃ rd rs1 rs2, i = .mul rd rs1 rs2

/-- What an instruction that leaves Execute1 may have done there: it moved its record to E2 unchanged in `ins`, `isArith`
and `pc`, and wrote at most the zero flag (arithmetic), `pc` (JUMP), `halt_pending` (HALT) and the freeze (a multiply's second
cycle). -/
structure LeavesExecute1 (i : Instr) (s : State) (e : Latch) (t : State) : Prop where
  moved : ∃ (l : Latch) (z hp : Bool) (pc : Word) (b : StageBits),
    t = { s with z := z, haltPending := hp, pc := pc, bits := b,
                 latches := { s.latches with e1 := none, e2 := some l } } ∧
    l.ins = e.ins ∧ l.isArith = e.isArith ∧ l.pc = e.pc ∧
    (z = s.z ∨ isArithOp i = true ∧ z = zeroFlag l.buffer) ∧
    (hp = s.haltPending ∨ i = .halt ∧ hp = true) ∧
    (pc = s.pc ∨ ∃ rs1 imm, i = .jump rs1 imm ∧ pc = e.rs1Val + imm) ∧
    (b = s.bits ∧ ¬ isMulOp i ∨ isMulOp i ∧ s.bits.mulPending = true ∧ b = freeze false)

/-- Execute1 answers a next state for every instruction: the instruction leaves, or it is a multiply in its first cycle. -/
theorem exec_execute1_cases {s : State} {e : Latch} (h : s.stage = .execute1) (he : s.latches.e1 = some e) (i : Instr) :
    ∃ t, exec i s = .next t ∧
      (LeavesExecute1 i s e t ∨
        isMulOp i ∧ s.bits.mulPending = false ∧ t = setBits s (freeze true)) := by
  have hs : slot s .execute1 = some e := he
  have hm := Bool.eq_false_or_eq_true s.bits.mulPending
  cases i <;> simp only [exec, execStore, execStr, execLoad, execLdr, execAdd, execSub, execMul, execAnd, execOr, execExor,
    execAddl, execSubl, execMovc, execBz, execBnz, execJump, execHalt, stages, h, addressE1, arithE1, multiplyE1, branchE1,
    jumpE1, haltE1, execute1, hs, slot_setZ, slot_setBits, slot_setPc, slot_setHaltPending]
  case mul rd rs1 rs2 =>
    rcases hm with hm | hm
    · rw [if_pos hm]
      exact ⟨_, rfl, .inl ⟨_, _, _, _, _, rfl, rfl, rfl, rfl, .inr ⟨rfl, rfl⟩, .inl rfl, .inl rfl,
        .inr ⟨⟨rd, rs1, rs2, rfl⟩, hm, rfl⟩⟩⟩
    · rw [if_neg (by simp [hm])]
      exact ⟨_, rfl, .inr ⟨⟨rd, rs1, rs2, rfl⟩, hm, rfl⟩⟩
  case bz imm =>
    refine ⟨_, rfl, .inl ⟨_, _, _, _, _, rfl, ?_, ?_, ?_, .inl rfl, .inl rfl, .inl rfl, .inl ⟨rfl, by simp [isMulOp]⟩⟩⟩ <;> split <;> rfl
  case bnz imm =>
    refine ⟨_, rfl, .inl ⟨_, _, _, _, _, rfl, ?_, ?_, ?_, .inl rfl, .inl rfl, .inl rfl, .inl ⟨rfl, by simp [isMulOp]⟩⟩⟩ <;> split <;> rfl
  case jump rs1 imm =>
    exact ⟨_, rfl, .inl ⟨_, _, _, _, _, rfl, rfl, rfl, rfl, .inl rfl, .inl rfl, .inr ⟨rs1, imm, rfl, rfl⟩, .inl ⟨rfl, by simp [isMulOp]⟩⟩⟩
  case halt =>
    exact ⟨_, rfl, .inl ⟨_, _, _, _, _, rfl, rfl, rfl, rfl, .inl rfl, .inr ⟨rfl, rfl⟩, .inl rfl, .inl ⟨rfl, by simp [isMulOp]⟩⟩⟩
  case store | str | load | ldr | movc =>
    exact ⟨_, rfl, .inl ⟨_, _, _, _, _, rfl, rfl, rfl, rfl, .inl rfl, .inl rfl, .inl rfl, .inl ⟨rfl, by simp [isMulOp]⟩⟩⟩
  all_goals
    exact ⟨_, rfl, .inl ⟨_, _, _, _, _, rfl, rfl, rfl, rfl, .inr ⟨rfl, rfl⟩, .inl rfl, .inl rfl, .inl ⟨rfl, by simp [isMulOp]⟩⟩⟩

/-- `i` is a STORE or a STR. -/
def isStoreOp (i : Instr) : Prop := (∃ rs1 rs2 imm, i = .store rs1 rs2 imm) ∨ ∃ rs1 rs2 rs3, i = .str rs1 rs2 rs3

/-- `i` is a LOAD or an LDR. -/
def isLoadOp (i : Instr) : Prop := (∃ rd rs1 imm, i = .load rd rs1 imm) ∨ ∃ rd rs1 rs2, i = .ldr rd rs1 rs2

/-- Every way Memory2 goes on: the record moves to W, a load's with the cell it has read in its buffer; a store has written
its cell; a taken branch has squashed and redirected; a HALT has cleared upstream. -/
inductive LeavesMemory2 (i : Instr) (s : State) (m : Latch) : State → Prop where
  | moved (v : Word) (hs : ¬ isStoreOp i) (hh : i ≠ .halt) (hb : (∃ imm, i = .bz imm ∨ i = .bnz imm) → m.target = 0)
      (hv : isLoadOp i ∧ inDataStore s m.memAddr = true ∧ v = readCell s.dm m.memAddr.toNat ∨
        ¬ isLoadOp i ∧ v = m.buffer) :
      LeavesMemory2 i s m
        { s with latches := { s.latches with m2 := none, w := some { m with buffer := v } } }
  | stored (hi : isStoreOp i) (ha : inDataStore s m.memAddr = true) :
      LeavesMemory2 i s m
        { s with dm := writeCell s.dm m.memAddr.toNat m.rs1Val, latches := { s.latches with m2 := none, w := some m } }
  | redirected (sb : Vector Nat 32) (hi : ∃ imm, i = .bz imm ∨ i = .bnz imm) (ht : m.target ≠ 0)
      (hle : ∀ r, squashedClaims s r ≤ pending s r) (hsb : ∀ r : Reg, sb.get r = pending s r - squashedClaims s r) :
      LeavesMemory2 i s m
        { s with pc := m.target, sb := sb, haltPending := false, bits := StageBits.clear,
                 latches := { s.latches with d := none, e1 := none, e2 := none, m1 := none, m2 := none, w := some m } }
  | halting (sb : Vector Nat 32) (hi : i = .halt)
      (hle : ∀ r, squashedClaims s r ≤ pending s r) (hsb : ∀ r : Reg, sb.get r = pending s r - squashedClaims s r) :
      LeavesMemory2 i s m
        { s with sb := sb, haltPending := true,
                 latches := { s.latches with d := none, e1 := none, e2 := none, m1 := none, m2 := none, w := some m } }

theorem passM2_eq {s : State} {m : Latch} (hm : s.latches.m2 = some m) :
    passM2 s = .next { s with latches := { s.latches with m2 := none, w := some m } } := by
  simp only [passM2, slot, getLatch, hm, advance, setSlot, putLatch]

theorem LeavesMemory2.of_pass {s t : State} {m : Latch} (hm : s.latches.m2 = some m) {i : Instr} (hs : ¬ isStoreOp i)
    (hl : ¬ isLoadOp i) (hh : i ≠ .halt) (hb : (∃ imm, i = .bz imm ∨ i = .bnz imm) → m.target = 0)
    (ht : passM2 s = .next t) : LeavesMemory2 i s m t := by
  rw [passM2_eq hm, Host.Outcome.next.injEq] at ht
  exact ht ▸ .moved m.buffer hs hh hb (.inr ⟨hl, rfl⟩)

theorem readM2_eq {s : State} {m : Latch} (hm : s.latches.m2 = some m) :
    readM2 s = if inDataStore s m.memAddr then
        .next { s with latches := { s.latches with
          m2 := none, w := some { m with buffer := readCell s.dm m.memAddr.toNat } } }
      else .fault (.dmemOutOfRange m.memAddr s) := by
  simp only [readM2, slot, getLatch, hm, dmRead]
  rfl

theorem writeM2_eq {s : State} {m : Latch} (hm : s.latches.m2 = some m) :
    writeM2 s = if inDataStore s m.memAddr then
        .next { s with dm := writeCell s.dm m.memAddr.toNat m.rs1Val,
                       latches := { s.latches with m2 := none, w := some m } }
      else .fault (.dmemOutOfRange m.memAddr s) := by
  simp only [writeM2, slot, getLatch, hm, dmWrite]
  split_ifs
  · rw [andThen_next, passM2_eq (m := m) (by exact hm)]; rfl
  · rfl

theorem LeavesMemory2.of_branch {s t : State} {m : Latch} (hm : s.latches.m2 = some m) {i : Instr}
    (hi : ∃ imm, i = .bz imm ∨ i = .bnz imm) (ht : branchM2 s = .next t) : LeavesMemory2 i s m t := by
  simp only [branchM2, slot, getLatch, hm] at ht
  split_ifs at ht with h0
  · obtain ⟨u, hu, hp⟩ := andThen_eq_next.mp ht
    obtain ⟨v, hv, hq⟩ := andThen_eq_next.mp hu
    obtain ⟨hle, sb, rfl, hsb⟩ := clearUpstream_eq_next hv
    rw [Host.Outcome.next.injEq] at hq
    subst hq
    rw [passM2_eq (m := m) (by exact hm), Host.Outcome.next.injEq] at hp
    exact hp ▸ .redirected sb hi h0 hle hsb
  · have h0 : m.target = 0 := by simpa using h0
    obtain ⟨imm, rfl | rfl⟩ := hi <;>
      exact .of_pass hm (by simp [isStoreOp]) (by simp [isLoadOp]) (by simp) (fun _ => h0) ht

theorem LeavesMemory2.of_halt {s t : State} {m : Latch} (hm : s.latches.m2 = some m)
    (ht : haltM2 s = .next t) : LeavesMemory2 .halt s m t := by
  simp only [haltM2, slot, getLatch, hm] at ht
  obtain ⟨u, hu, hp⟩ := andThen_eq_next.mp ht
  obtain ⟨hle, sb, rfl, hsb⟩ := clearUpstream_eq_next hu
  rw [passM2_eq (m := m) (by exact hm), Host.Outcome.next.injEq] at hp
  exact hp ▸ .halting sb rfl hle hsb

theorem exec_memory2_cases {s t : State} {m : Latch} (h : s.stage = .memory2) (hm : s.latches.m2 = some m) {i : Instr}
    (ht : exec i s = .next t) : LeavesMemory2 i s m t := by
  cases i <;> simp only [exec, execStore, execStr, execLoad, execLdr, execAdd, execSub, execMul, execAnd, execOr, execExor,
    execAddl, execSubl, execMovc, execBz, execBnz, execJump, execHalt, stages, h] at ht
  case store rs1 rs2 imm =>
    rw [writeM2_eq hm] at ht
    split_ifs at ht with ha
    exact (Host.Outcome.next.inj ht) ▸ .stored (.inl ⟨rs1, rs2, imm, rfl⟩) ha
  case str rs1 rs2 rs3 =>
    rw [writeM2_eq hm] at ht
    split_ifs at ht with ha
    exact (Host.Outcome.next.inj ht) ▸ .stored (.inr ⟨rs1, rs2, rs3, rfl⟩) ha
  case load | ldr =>
    rw [readM2_eq hm] at ht
    split_ifs at ht with ha
    exact (Host.Outcome.next.inj ht) ▸ .moved _ (by simp [isStoreOp]) (by simp) (by simp)
      (.inl ⟨by simp [isLoadOp], ha, rfl⟩)
  case bz imm => exact .of_branch hm ⟨imm, .inl rfl⟩ ht
  case bnz imm => exact .of_branch hm ⟨imm, .inr rfl⟩ ht
  case halt => exact .of_halt hm ht
  all_goals exact .of_pass hm (by simp [isStoreOp]) (by simp [isLoadOp]) (by simp) (by simp) ht

/-- Memory2 stops only with a load or store outside the data store or a release of a counter that is 0, and never refuses. -/
theorem exec_memory2_stops {s : State} {m : Latch} (h : s.stage = .memory2) (hm : s.latches.m2 = some m) (i : Instr) :
    (∀ x, exec i s ≠ .refused x) ∧
    ∀ f, exec i s = .fault f →
      (f = .dmemOutOfRange m.memAddr s ∧ inDataStore s m.memAddr = false ∧ (isLoadOp i ∨ isStoreOp i)) ∨
      (∃ r left, f = .scoreboardUnderflow r left ∧ ∃ q, ¬ squashedClaims s q ≤ pending s q) := by
  have clear : ∀ u : State, (∀ r, squashedClaims u r = squashedClaims s r ∧ pending u r = pending s r) →
      ∀ f, clearUpstream u = .fault f → 
        ∃ r left, f = .scoreboardUnderflow r left ∧ ∃ q, ¬ squashedClaims s q ≤ pending s q := by
    intro u hu f hf
    obtain ⟨r, left, rfl⟩ := clearUpstream_eq_fault hf
    refine ⟨r, left, rfl, ?_⟩
    by_contra hc
    push Not at hc
    obtain ⟨t, ht⟩ := clearUpstream_answers (s := u) fun r => by rw [(hu r).1, (hu r).2]; exact hc r
    rw [ht] at hf
    simp at hf
  have pass : ∀ u : State, u.latches.m2 = some m → (∀ x, passM2 u ≠ .refused x) ∧ ∀ f, passM2 u ≠ .fault f := by
    intro u hu; rw [passM2_eq hu]; simp
  have branch : (∀ x, branchM2 s ≠ .refused x) ∧ ∀ f, branchM2 s = .fault f →
      ∃ r left, f = .scoreboardUnderflow r left ∧ ∃ q, ¬ squashedClaims s q ≤ pending s q := by
    simp only [branchM2, slot, getLatch, hm]
    split_ifs with h0
    · refine ⟨fun x hx => ?_, fun f hf => ?_⟩
      · rcases andThen_eq_refused.mp hx with hx | ⟨u, hu, hx⟩
        · rcases andThen_eq_refused.mp hx with hx | ⟨v, -, hx⟩
          · exact clearUpstream_ne_refused hx
          · simp at hx
        · obtain ⟨v, hv, hq⟩ := andThen_eq_next.mp hu
          obtain ⟨-, sb, rfl, -⟩ := clearUpstream_eq_next hv
          rw [Host.Outcome.next.injEq] at hq
          subst hq
          exact (pass _ (by exact hm)).1 x hx
      · rcases andThen_eq_fault.mp hf with hf | ⟨u, hu, hf⟩
        · rcases andThen_eq_fault.mp hf with hf | ⟨v, -, hf⟩
          · exact clear (setPc s m.target) (fun r => ⟨rfl, rfl⟩) f hf
          · simp at hf
        · obtain ⟨v, hv, hq⟩ := andThen_eq_next.mp hu
          obtain ⟨-, sb, rfl, -⟩ := clearUpstream_eq_next hv
          rw [Host.Outcome.next.injEq] at hq
          subst hq
          exact (pass _ (by exact hm)).2 f hf |>.elim
    · exact ⟨(pass s hm).1, fun f hf => absurd hf ((pass s hm).2 f)⟩
  cases i <;> simp only [exec, execStore, execStr, execLoad, execLdr, execAdd, execSub, execMul, execAnd, execOr, execExor,
    execAddl, execSubl, execMovc, execBz, execBnz, execJump, execHalt, stages, h]
  case store | str =>
    rw [writeM2_eq hm]
    split_ifs with ha
    · simp
    · exact ⟨by simp, fun f hf => .inl ⟨(Host.Outcome.fault.inj hf).symm, by simpa using ha, .inr (by simp [isStoreOp])⟩⟩
  case load | ldr =>
    rw [readM2_eq hm]
    split_ifs with ha
    · simp
    · exact ⟨by simp, fun f hf => .inl ⟨(Host.Outcome.fault.inj hf).symm, by simpa using ha, .inl (by simp [isLoadOp])⟩⟩
  case bz | bnz => exact ⟨branch.1, fun f hf => .inr (branch.2 f hf)⟩
  case halt =>
    simp only [haltM2, slot, getLatch, hm]
    refine ⟨fun x hx => ?_, fun f hf => ?_⟩
    · rcases andThen_eq_refused.mp hx with hx | ⟨u, hu, hx⟩
      · exact clearUpstream_ne_refused hx
      · obtain ⟨-, sb, rfl, -⟩ := clearUpstream_eq_next hu
        exact (pass _ (by exact hm)).1 x hx
    · rcases andThen_eq_fault.mp hf with hf | ⟨u, hu, hf⟩
      · exact .inr (clear (setHaltPending s true) (fun r => ⟨rfl, rfl⟩) f hf)
      · obtain ⟨-, sb, rfl, -⟩ := clearUpstream_eq_next hu
        exact (pass _ (by exact hm)).2 f hf |>.elim
  all_goals exact ⟨(pass s hm).1, fun f hf => absurd hf ((pass s hm).2 f)⟩

end Sys2Proof.Machine
end

