-- ==== Sys2Proof/Laws/Transitions.lean ====
section
/-! SUPPORT. Each stage transition inverted: if it answers a next state, what that state is; and the cycle taken apart. -/

namespace Sys2Proof.Machine

/-! ### A transition by what its stage has before it -/

/-- A stage below Fetch runs exec on the instruction in its slot. -/
theorem transition_some {st : Stage} {s : State} {l : Latch} (hst : st ≠ .fetch) (h : slot s st = some l) :
    transition st s = exec l.ins (setStage s st) := by
  have hi : stageInput (setStage s st) = (slot s st).map (·.ins) := by cases st <;> first | contradiction | rfl
  simp only [transition, hi, h, Option.map_some]

/-- A stage below Fetch with a bubble does what the bubble's transition does. -/
theorem transition_none {st : Stage} {s : State} (hst : st ≠ .fetch) (h : slot s st = none) :
    transition st s = .next (bubble (setStage s st)) := by
  have hi : stageInput (setStage s st) = (slot s st).map (·.ins) := by cases st <;> first | contradiction | rfl
  simp only [transition, hi, h, Option.map_none]

/-! ### Writeback -/

/-- `completed` after a Writeback. -/
def completedAfter (s : State) : Nat :=
  match s.latches.w with
  | some w => if w.ins = .halt then s.imem.length else s.completed + 1
  | none => s.completed

/-- `stopped` after a Writeback. -/
def stoppedAfter (s : State) : Bool :=
  match s.latches.w with
  | some w => if w.ins = .halt then true else s.stopped
  | none => s.stopped

/-- A register after a Writeback. -/
def regAfter (s : State) (r : Reg) : Word :=
  match s.latches.w with
  | some w => if dest w.ins = some r then w.buffer else reg s r
  | none => reg s r

theorem isHaltOp_iff (i : Instr) : isHaltOp i = true ↔ i = .halt := by cases i <;> simp [isHaltOp]

theorem countCommit_eq (s : State) (i : Instr) :
    countCommit s i = { s with
      completed := if i = .halt then s.imem.length else s.completed + 1
      stopped := if i = .halt then true else s.stopped } := by
  unfold countCommit
  by_cases h : i = .halt
  · rw [if_pos ((isHaltOp_iff i).mpr h), if_pos h, if_pos h]; rfl
  · rw [if_neg (mt (isHaltOp_iff i).mp h), if_neg h, if_neg h]; rfl

/-- What a Writeback does: it needs the claim it releases, empties its slot, commits and counts. -/
theorem transition_writeback_next {s t : State} (h : transition .writeback s = .next t) :
    ∃ (regs : Vector Word 32) (sb : Vector Nat 32),
      t = { s with regs := regs, sb := sb, completed := completedAfter s, stopped := stoppedAfter s,
                   latches := { s.latches with w := none }, stage := .writeback } ∧
      (∀ r : Reg, regs.get r = regAfter s r) ∧ (∀ r, claimsOn r s.latches.w ≤ pending s r) ∧
      ∀ r : Reg, sb.get r = pending s r - claimsOn r s.latches.w := by
  cases hw : s.latches.w with
  | none =>
    rw [transition_none (st := .writeback) (s := s) (by decide) hw, Host.Outcome.next.injEq] at h
    refine ⟨s.regs, s.sb, ?_, fun r => by simp [regAfter, hw, reg], fun r => by simp [claimsOn],
      fun r => by simp [claimsOn, pending]⟩
    rw [← h, completedAfter, stoppedAfter, hw]
    have hl : { s.latches with w := none } = s.latches := by rw [← hw]
    rw [hl]
    rfl
  | some w =>
    rw [transition_some (st := .writeback) (s := s) (l := w) (by decide) hw, exec_writeback rfl] at h
    simp only [writebackInstr, slot_setStage, show slot s .writeback = some w from hw] at h
    obtain ⟨u, hu, hv⟩ := andThen_eq_next.mp h
    rw [Host.Outcome.next.injEq] at hv
    subst hv
    rw [countCommit_eq]
    cases hd : dest w.ins with
    | none =>
      simp only [commitDest, hd, Host.Outcome.next.injEq] at hu
      subst hu
      refine ⟨s.regs, s.sb, ?_, fun r => by simp [regAfter, hw, hd, reg], fun r => by simp [claimsOn, hd],
        fun r => by simp [claimsOn, hd, pending]⟩
      simp only [completedAfter, stoppedAfter, hw, setSlot, putLatch]
      rfl
    | some q =>
      simp only [commitDest, hd] at hu
      obtain ⟨v, hv, hq⟩ := andThen_eq_next.mp hu
      obtain ⟨h0, rfl⟩ := release_eq_next.mp hv
      rw [Host.Outcome.next.injEq] at hq
      subst hq
      refine ⟨s.regs.set q.val w.buffer q.isLt, s.sb.set q.val (pending s q - 1) q.isLt, ?_, fun r => ?_, fun r => ?_,
        fun r => ?_⟩
      · simp only [completedAfter, stoppedAfter, hw, setSlot, putLatch, setReg, setPending, pending]
        rfl
      · have := reg_setReg s q r w.buffer
        rw [show (s.regs.set q.val w.buffer q.isLt).get r = _ from this]
        simp [regAfter, hw, hd, eq_comm]
      · have h1 : pending s q ≠ 0 := h0
        by_cases hr : q = r
        · subst hr; simp only [claimsOn, Option.bind_some, hd, if_true]; omega
        · simp [claimsOn, hd, hr]
      · have := pending_setPending s q r (pending s q - 1)
        rw [show (s.sb.set q.val (pending s q - 1) q.isLt).get r = _ from this]
        by_cases hr : r = q
        · subst hr; simp [claimsOn, hd]
        · simp [claimsOn, hd, hr, Ne.symm hr]

/-- A Writeback never refuses, and faults only by a release of a counter that is 0. -/
theorem transition_writeback_stops (s : State) :
    (∀ x, transition .writeback s ≠ .refused x) ∧
    ∀ f, transition .writeback s = .fault f →
      ∃ r left, f = .scoreboardUnderflow r left ∧ ¬ claimsOn r s.latches.w ≤ pending s r := by
  cases hw : s.latches.w with
  | none => simp [transition_none (st := .writeback) (s := s) (by decide) hw]
  | some w =>
    rw [transition_some (st := .writeback) (s := s) (l := w) (by decide) hw, exec_writeback rfl]
    simp only [writebackInstr, slot_setStage, show slot s .writeback = some w from hw]
    cases hd : dest w.ins with
    | none => simp [commitDest, hd]
    | some q =>
      simp only [commitDest, hd]
      refine ⟨fun x hx => ?_, fun f hf => ?_⟩
      · rcases andThen_eq_refused.mp hx with hx | ⟨u, -, hx⟩
        · rcases andThen_eq_refused.mp hx with hx | ⟨u, -, hx⟩
          · exact release_ne_refused hx
          · simp at hx
        · simp at hx
      · rcases andThen_eq_fault.mp hf with hf | ⟨u, -, hf⟩
        · rcases andThen_eq_fault.mp hf with hf | ⟨u, -, hf⟩
          · obtain ⟨h0, rfl⟩ := release_eq_fault.mp hf
            refine ⟨q, _, rfl, ?_⟩
            have h1 : pending s q = 0 := h0
            simp [claimsOn, hd, h1]
          · simp at hf
        · simp at hf

/-! ### Memory2 -/

/-- What a Memory2 does: nothing with a bubble, and otherwise one of the ways an instruction leaves it. -/
theorem transition_memory2_next {s t : State} (h : transition .memory2 s = .next t) :
    (s.latches.m2 = none ∧ t = { s with stage := .memory2 }) ∨
    ∃ m, s.latches.m2 = some m ∧ LeavesMemory2 m.ins { s with stage := .memory2 } m t := by
  cases hm : s.latches.m2 with
  | none =>
    rw [transition_none (st := .memory2) (s := s) (by decide) hm, Host.Outcome.next.injEq] at h
    exact .inl ⟨rfl, h.symm⟩
  | some m =>
    rw [transition_some (st := .memory2) (s := s) (l := m) (by decide) hm] at h
    exact .inr ⟨m, rfl, exec_memory2_cases rfl (by exact hm) h⟩

/-- A Memory2 never refuses, and faults only by a load or store outside the data store or a release of a counter that is 0. -/
theorem transition_memory2_stops (s : State) :
    (∀ x, transition .memory2 s ≠ .refused x) ∧
    ∀ f, transition .memory2 s = .fault f →
      (∃ m, s.latches.m2 = some m ∧ f = .dmemOutOfRange m.memAddr { s with stage := .memory2 } ∧
        inDataStore s m.memAddr = false ∧ (isLoadOp m.ins ∨ isStoreOp m.ins)) ∨
      (∃ r left, f = .scoreboardUnderflow r left ∧ ∃ q, ¬ squashedClaims s q ≤ pending s q) := by
  cases hm : s.latches.m2 with
  | none => simp [transition_none (st := .memory2) (s := s) (by decide) hm]
  | some m =>
    rw [transition_some (st := .memory2) (s := s) (l := m) (by decide) hm]
    obtain ⟨h1, h2⟩ := exec_memory2_stops (s := { s with stage := .memory2 }) rfl hm m.ins
    refine ⟨h1, fun f hf => ?_⟩
    rcases h2 f hf with ⟨h3, h4⟩ | h3
    · exact .inl ⟨m, rfl, h3, h4⟩
    · exact .inr h3

/-! ### Memory1, Execute2 -/

theorem transition_memory1 (s : State) :
    transition .memory1 s =
      .next { s with stage := .memory1, latches := { s.latches with m1 := none, m2 := s.latches.m1 } } := by
  simp only [transition]
  split
  · rw [exec_memory1 rfl]; rfl
  · rfl

theorem transition_execute2 (s : State) :
    transition .execute2 s =
      .next { s with stage := .execute2, latches := { s.latches with e2 := none, m1 := s.latches.e2 } } := by
  simp only [transition]
  split
  · rw [exec_execute2 rfl]; rfl
  · rfl

/-! ### Execute1 -/

/-- What an Execute1 does. -/
theorem transition_execute1_cases (s : State) :
    ∃ t, transition .execute1 s = .next t ∧
      ((s.latches.e1 = none ∧ t = { s with stage := .execute1 }) ∨
        ∃ e, s.latches.e1 = some e ∧
          (LeavesExecute1 e.ins { s with stage := .execute1 } e t ∨
            isMulOp e.ins ∧ s.bits.mulPending = false ∧
              t = { s with stage := .execute1, bits := freeze true })) := by
  cases he : s.latches.e1 with
  | none =>
    exact ⟨_, transition_none (st := .execute1) (s := s) (by decide) he, .inl ⟨rfl, rfl⟩⟩
  | some e =>
    obtain ⟨t, ht, hc⟩ := exec_execute1_cases (s := { s with stage := .execute1 }) rfl he e.ins
    exact ⟨t, (transition_some (st := .execute1) (s := s) (l := e) (by decide) he).trans ht, .inr ⟨e, rfl, hc⟩⟩

/-! ### Decode -/

theorem transition_decode (s : State) :
    transition .decode s = .next (match s.latches.d with
      | none => decodeBubble { s with stage := .decode }
      | some d => decodeInstr d.ins { s with stage := .decode }) := by
  cases hd : s.latches.d with
  | none => exact transition_none (st := .decode) (s := s) (by decide) hd
  | some d => exact (transition_some (st := .decode) (s := s) (l := d) (by decide) hd).trans (exec_decode rfl _)

/-- What a Decode does: it leaves its slot alone (frozen, a bubble, or a hold), or it advances its instruction. -/
theorem transition_decode_cases (s : State) :
    ∃ t, transition .decode s = .next t ∧
      ((s.bits.dBusy = true ∧ t = { s with stage := .decode }) ∨
       (s.bits.dBusy = false ∧ s.latches.d = none ∧ t = setStalls { s with stage := .decode } false) ∨
       (∃ d, s.bits.dBusy = false ∧ s.latches.d = some d ∧ t = setStalls { s with stage := .decode } true ∧
          (sourcesReady s d.ins = false ∨ branchStall s d.ins = true)) ∨
       (∃ d, s.bits.dBusy = false ∧ s.latches.d = some d ∧ sourcesReady s d.ins = true ∧ branchStall s d.ins = false ∧
          ∃ sb : Vector Nat 32,
          t = { s with
            sb := sb, haltPending := if d.ins = .halt then true else s.haltPending
            bits := { s.bits with dStalled := false, fStalled := false }
            latches := { s.latches with d := none, e1 := some (readSources s d.ins d) }, stage := .decode } ∧
          ∀ r : Reg, sb.get r = pending s r + if dest d.ins = some r then 1 else 0)) := by
  refine ⟨_, transition_decode s, ?_⟩
  cases hd : s.latches.d with
  | none =>
    by_cases hb : s.bits.dBusy = true
    · exact .inl ⟨hb, by simp only [decodeBubble, hb, if_true]⟩
    · exact .inr (.inl ⟨by simpa using hb, rfl, by simp only [decodeBubble, hb]; rfl⟩)
  | some d =>
    by_cases hb : s.bits.dBusy = true
    · exact .inl ⟨hb, by simp only [decodeInstr, slot, getLatch, hd, hb, if_true]⟩
    · have hb' : s.bits.dBusy = false := by simpa using hb
      right; right
      by_cases hr : (!sourcesReady s d.ins || branchStall s d.ins) = true
      · refine .inl ⟨d, hb', rfl, ?_, by simpa using hr⟩
        simp only [decodeInstr, slot, getLatch, hd, hb', Bool.false_eq_true, if_false]
        exact if_pos hr
      · have hr2 : sourcesReady s d.ins = true ∧ branchStall s d.ins = false := by simpa using hr
        refine .inr ⟨d, hb', rfl, hr2.1, hr2.2, (claimDest s d.ins).sb, ?_, fun r => ?_⟩
        · simp only [decodeInstr, slot, getLatch, hd, hb', Bool.false_eq_true, if_false]
          refine (if_neg hr).trans ?_
          simp only [decodeAdvance, advance, haltInDecode, isHaltOp_iff, setStalls, setBits, setSlot, putLatch, slot,
            getLatch, setHaltPending, claimDest, claim, setPending]
          cases dest d.ins <;> by_cases hh : d.ins = .halt <;> simp only [hh, if_true, if_false, hb'] <;> rfl
        · cases hq : dest d.ins with
          | none => simp [claimDest, hq, pending]
          | some q =>
            simp only [claimDest, hq, claim]
            rw [show (setPending s q (pending s q + 1)).sb.get r = _ from pending_setPending s q r _]
            by_cases hrq : r = q
            · subst hrq; simp
            · simp [hrq, Ne.symm hrq, pending]

/-! ### Fetch -/

/-- What Fetch reads: the instruction at `pc`, or a bubble. -/
def fetchReads (s : State) : Slot :=
  (if s.haltPending then none else instrAtPc s).map fun i => fetchedLatch i s.pc

/-- What a Fetch does. -/
theorem transition_fetch (s : State) :
    transition .fetch s = .next (if fetchHeld s then
        { s with stage := .fetch, latches := { s.latches with f := fetchReads s } }
      else { s with stage := .fetch, latches := { s.latches with f := fetchReads s, d := fetchReads s },
                    pc := if (fetchReads s).isSome then nextPc s.pc else s.pc }) := by
  have hi : stageInput (setStage s .fetch) = if s.haltPending then none else instrAtPc s := rfl
  unfold transition
  dsimp only
  rw [hi, fetchReads]
  cases hq : (if s.haltPending then none else instrAtPc s) with
  | none =>
    show Host.Outcome.next (if fetchHeld s then _ else _) = _
    congr 1
  | some i =>
    show exec i (setStage s .fetch) = _
    rw [exec_fetch rfl]
    show Host.Outcome.next (if fetchHeld s then _ else _) = _
    congr 1

/-! ### The cycle -/

/-- A cycle that answers a next state went through the seven transitions. -/
theorem cycle_eq_next {s t : State} :
    cycle s = .next t ↔ ∃ s1 s2 s3 s4 s5 s6,
      transition .writeback { s with clock := s.clock + 1 } = .next s1 ∧ transition .memory2 s1 = .next s2 ∧
      transition .memory1 s2 = .next s3 ∧ transition .execute2 s3 = .next s4 ∧ transition .execute1 s4 = .next s5 ∧
      transition .decode s5 = .next s6 ∧ transition .fetch s6 = .next t := by
  simp only [cycle, stagesBeforeFetch, List.cons_append, List.nil_append, runStages, andThen_eq_next, setClock,
    Host.Outcome.next.injEq, exists_eq_right]
  constructor
  · rintro ⟨s1, h1, s2, h2, s3, h3, s4, h4, s5, h5, s6, h6, h7⟩
    exact ⟨s1, s2, s3, s4, s5, s6, h1, h2, h3, h4, h5, h6, h7⟩
  · rintro ⟨s1, s2, s3, s4, s5, s6, h1, h2, h3, h4, h5, h6, h7⟩
    exact ⟨s1, h1, s2, h2, s3, h3, s4, h4, s5, h5, s6, h6, h7⟩

/-- The state Memory2 works on, after a Writeback that left the registers `regs` and the counters `sb`. -/
def atMemory2 (s : State) (regs : Vector Word 32) (sb : Vector Nat 32) : State :=
  { s with
    clock := s.clock + 1, regs := regs, sb := sb, completed := completedAfter s, stopped := stoppedAfter s
    latches := { s.latches with w := none }, stage := .memory2 }

/-- The state Execute1 works on, after the Memory2 that left `s`: Memory1 and Execute2 have moved their records. -/
def atExecute1 (s : State) : State :=
  { s with
    latches := { s.latches with m2 := s.latches.m1, m1 := s.latches.e2, e2 := none }, stage := .execute1 }

/-- The state Fetch leaves. -/
def afterFetch (s : State) : State :=
  if fetchHeld s then { s with stage := .fetch, latches := { s.latches with f := fetchReads s } }
  else { s with
    stage := .fetch, latches := { s.latches with f := fetchReads s, d := fetchReads s }
    pc := if (fetchReads s).isSome then nextPc s.pc else s.pc }

/-- Everything a cycle that answers a next state has done: `s2`, `s5` and `s6` are the states Memory2, Execute1 and Decode
left. -/
theorem cycle_cases {s t : State} (h : cycle s = .next t) :
    ∃ (regs : Vector Word 32) (sb : Vector Nat 32) (s2 s5 s6 : State),
      (∀ r : Reg, regs.get r = regAfter s r) ∧
      (∀ r, claimsOn r s.latches.w ≤ pending s r) ∧ (∀ r : Reg, sb.get r = pending s r - claimsOn r s.latches.w) ∧
      ((s.latches.m2 = none ∧ s2 = atMemory2 s regs sb) ∨
        ∃ m, s.latches.m2 = some m ∧ LeavesMemory2 m.ins (atMemory2 s regs sb) m s2) ∧
      ((s2.latches.e1 = none ∧ s5 = atExecute1 s2) ∨
        ∃ e, s2.latches.e1 = some e ∧
          (LeavesExecute1 e.ins (atExecute1 s2) e s5 ∨
            isMulOp e.ins ∧ s2.bits.mulPending = false ∧ s5 = { atExecute1 s2 with bits := freeze true })) ∧
      ((s5.bits.dBusy = true ∧ s6 = { s5 with stage := .decode }) ∨
        (s5.bits.dBusy = false ∧ s5.latches.d = none ∧ s6 = setStalls { s5 with stage := .decode } false) ∨
        (∃ d, s5.bits.dBusy = false ∧ s5.latches.d = some d ∧ s6 = setStalls { s5 with stage := .decode } true ∧
          (sourcesReady s5 d.ins = false ∨ branchStall s5 d.ins = true)) ∨
        (∃ d, s5.bits.dBusy = false ∧ s5.latches.d = some d ∧ sourcesReady s5 d.ins = true ∧
          branchStall s5 d.ins = false ∧ ∃ sb : Vector Nat 32,
            s6 = { s5 with
              sb := sb, haltPending := if d.ins = .halt then true else s5.haltPending
              bits := { s5.bits with dStalled := false, fStalled := false }
              latches := { s5.latches with d := none, e1 := some (readSources s5 d.ins d) }, stage := .decode } ∧
            ∀ r : Reg, sb.get r = pending s5 r + if dest d.ins = some r then 1 else 0)) ∧
      t = afterFetch s6 := by
  obtain ⟨s1, s2, s3, s4, s5, s6, h1, h2, h3, h4, h5, h6, h7⟩ := cycle_eq_next.mp h
  obtain ⟨regs, sb, rfl, hreg, hc, hsb⟩ := transition_writeback_next h1
  rw [transition_memory1] at h3
  cases h3
  rw [transition_execute2] at h4
  cases h4
  obtain ⟨t5, h5', hc5⟩ := transition_execute1_cases _
  rw [h5] at h5'
  cases h5'
  obtain ⟨t6, h6', hc6⟩ := transition_decode_cases s5
  rw [h6] at h6'
  cases h6'
  rw [transition_fetch] at h7
  exact ⟨regs, sb, s2, s5, s6, hreg, hc, hsb, transition_memory2_next h2, hc5, hc6, (Host.Outcome.next.inj h7).symm⟩

/-- A cycle counts itself, and keeps the instruction store and the parameters. -/
theorem cycle_keeps {s t : State} (h : cycle s = .next t) :
    t.clock = s.clock + 1 ∧ t.maxCycles = s.maxCycles ∧ t.dmemSize = s.dmemSize ∧ t.imem = s.imem := by
  obtain ⟨regs, sb, s2, s5, s6, -, -, -, h2, h5, h6, rfl⟩ := cycle_cases h
  have e2 : s2.clock = s.clock + 1 ∧ s2.maxCycles = s.maxCycles ∧ s2.dmemSize = s.dmemSize ∧ s2.imem = s.imem := by
    rcases h2 with ⟨-, rfl⟩ | ⟨m, -, hl⟩
    · exact ⟨rfl, rfl, rfl, rfl⟩
    · cases hl <;> exact ⟨rfl, rfl, rfl, rfl⟩
  have e5 : s5.clock = s.clock + 1 ∧ s5.maxCycles = s.maxCycles ∧ s5.dmemSize = s.dmemSize ∧ s5.imem = s.imem := by
    rcases h5 with ⟨-, rfl⟩ | ⟨e, -, hl | ⟨-, -, rfl⟩⟩
    · exact e2
    · obtain ⟨l, z, hp, pc, b, rfl, -⟩ := hl.moved
      exact e2
    · exact e2
  have e6 : s6.clock = s.clock + 1 ∧ s6.maxCycles = s.maxCycles ∧ s6.dmemSize = s.dmemSize ∧ s6.imem = s.imem := by
    rcases h6 with ⟨-, rfl⟩ | ⟨-, -, rfl⟩ | ⟨_, -, -, rfl, -⟩ | ⟨_, -, -, -, -, _, rfl, -⟩ <;> exact e5
  unfold afterFetch
  split_ifs <;> exact e6

/-- The driver's checks go on only below or above the cap. -/
theorem driverCheck_goOn_clock {s : State} (h : driverCheck s = .goOn) : s.clock ≠ s.maxCycles := by
  intro he
  simp only [driverCheck] at h
  split_ifs at h

/-- A cycle that stops stops in Writeback or, after it, in Memory2. -/
theorem cycle_stops (s : State) :
    (∀ x, cycle s ≠ .refused x) ∧
    ∀ f, cycle s = .fault f →
      transition .writeback { s with clock := s.clock + 1 } = .fault f ∨
      ∃ s1, transition .writeback { s with clock := s.clock + 1 } = .next s1 ∧ transition .memory2 s1 = .fault f := by
  have tail : ∀ s2 : State, ∃ t, runStages [.memory1, .execute2, .execute1, .decode, .fetch] s2 = .next t := by
    intro s2
    obtain ⟨t5, h5, -⟩ := transition_execute1_cases
      { s2 with stage := .execute2, latches := { s2.latches with m1 := s2.latches.e2, m2 := s2.latches.m1, e2 := none } }
    obtain ⟨t6, h6, -⟩ := transition_decode_cases t5
    simp only [runStages, transition_memory1, transition_execute2, andThen_next]
    rw [h5, andThen_next, h6, andThen_next, transition_fetch, andThen_next]
    exact ⟨_, rfl⟩
  have hc : cycle s = andThen (transition .writeback { s with clock := s.clock + 1 }) fun s1 =>
      andThen (transition .memory2 s1) (runStages [.memory1, .execute2, .execute1, .decode, .fetch]) := rfl
  rw [hc]
  refine ⟨fun x hx => ?_, fun f hf => ?_⟩
  · rcases andThen_eq_refused.mp hx with hx | ⟨s1, -, hx⟩
    · exact (transition_writeback_stops _).1 x hx
    rcases andThen_eq_refused.mp hx with hx | ⟨s2, -, hx⟩
    · exact (transition_memory2_stops _).1 x hx
    · obtain ⟨t, ht⟩ := tail s2
      rw [ht] at hx; simp at hx
  · rcases andThen_eq_fault.mp hf with hf | ⟨s1, h1, hf⟩
    · exact .inl hf
    rcases andThen_eq_fault.mp hf with hf | ⟨s2, -, hf⟩
    · exact .inr ⟨s1, h1, hf⟩
    · obtain ⟨t, ht⟩ := tail s2
      rw [ht] at hf; simp at hf

end Sys2Proof.Machine
end

