-- ==== Sys2Proof/Machine/Observe.lean ====
section
/-! DEFINITION. What the host observes (60_exceptions.md R241, R252) and the assembler's spelling (30_encoding.md R93, R94).
Layout is presentation and is left out (decision D39). -/

namespace Sys2Proof.Machine

/-- The spec's numeric code of a fault (R241). -/
def faultCode : Fault → Nat
  | .unknownOpcode _ => 1
  | .badRegister _ _ => 2
  | .badImmediate _ => 3
  | .programTooLarge _ => 4
  | .dmemOutOfRange _ _ => 5
  | .scoreboardUnderflow _ _ => 6
  | .fetchOutOfRange _ _ => 7
  | .liveness _ _ => 8

/-- The state a fault leaves for observation (R243); a failed load leaves none (R242). -/
def faultState : Fault → Option State
  | .unknownOpcode _ => none
  | .badRegister _ _ => none
  | .badImmediate _ => none
  | .programTooLarge _ => none
  | .dmemOutOfRange _ s => some s
  | .scoreboardUnderflow _ s => some s
  | .fetchOutOfRange _ s => some s
  | .liveness _ s => some s

/-- The per-cycle stage trace: for each stage the instruction its slot holds, none for `EMPTY` (R252). -/
def stageTrace (s : State) : List (Stage × Option Instr) :=
  ([.fetch, .decode, .execute1, .execute2, .memory1, .memory2, .writeback] : List Stage).map
    fun st => (st, (slot s st).map (·.ins))

/-- The final register dump: each register's value and whether it is "Valid" (R252). -/
def registerDump (s : State) : List (Word × Bool) :=
  (List.finRange 32).map fun r => (reg s r, pending s r == 0)

/-- The final data-store dump: every cell from 0 to `DMEM_SIZE - 1` (R252). -/
def dataDump (s : State) : List Word := (List.range s.dmemSize).map (readCell s.dm)

/-- `R<index>` (R93). -/
def asmReg (r : Reg) : String := "R" ++ toString r.val

/-- `#` and a signed decimal (R93). -/
def asmImm (v : Word) : String := "#" ++ toString v.toInt

/-- The assembler spelling of an instruction (R93, R94). -/
def asm : Instr → String
  | .store rs1 rs2 imm => "STORE " ++ asmReg rs1 ++ "," ++ asmReg rs2 ++ "," ++ asmImm imm
  | .str rs1 rs2 rs3 => "STR " ++ asmReg rs1 ++ "," ++ asmReg rs2 ++ "," ++ asmReg rs3
  | .load rd rs1 imm => "LOAD " ++ asmReg rd ++ "," ++ asmReg rs1 ++ "," ++ asmImm imm
  | .ldr rd rs1 rs2 => "LDR " ++ asmReg rd ++ "," ++ asmReg rs1 ++ "," ++ asmReg rs2
  | .add rd rs1 rs2 => "ADD " ++ asmReg rd ++ "," ++ asmReg rs1 ++ "," ++ asmReg rs2
  | .sub rd rs1 rs2 => "SUB " ++ asmReg rd ++ "," ++ asmReg rs1 ++ "," ++ asmReg rs2
  | .mul rd rs1 rs2 => "MUL " ++ asmReg rd ++ "," ++ asmReg rs1 ++ "," ++ asmReg rs2
  | .and rd rs1 rs2 => "AND " ++ asmReg rd ++ "," ++ asmReg rs1 ++ "," ++ asmReg rs2
  | .or rd rs1 rs2 => "OR " ++ asmReg rd ++ "," ++ asmReg rs1 ++ "," ++ asmReg rs2
  | .exor rd rs1 rs2 => "EXOR " ++ asmReg rd ++ "," ++ asmReg rs1 ++ "," ++ asmReg rs2
  | .addl rd rs1 imm => "ADDL " ++ asmReg rd ++ "," ++ asmReg rs1 ++ "," ++ asmImm imm
  | .subl rd rs1 imm => "SUBL " ++ asmReg rd ++ "," ++ asmReg rs1 ++ "," ++ asmImm imm
  | .movc rd imm => "MOVC " ++ asmReg rd ++ "," ++ asmImm imm
  | .bz imm => "BZ " ++ asmImm imm
  | .bnz imm => "BNZ " ++ asmImm imm
  | .jump rs1 imm => "JUMP " ++ asmReg rs1 ++ "," ++ asmImm imm
  | .halt => "HALT"

end Sys2Proof.Machine
end

