-- ==== Sys2Proof/Tests/Slice0.lean ====
section
/-! SUPPORT. Tests of the model against 95_test_vectors.md and the encodings of 30_encoding.md, and, for each statement that
has hypotheses, a state and operands that meet them (`witness_…`). Expected values are the spec's; a word the spec does not
list is written out from R81 and R82. -/

namespace Sys2Proof.Tests

open Sys2Proof Sys2Proof.Machine Sys2Proof.Safety

/-! ### Helpers -/

/-- The next state, where there is one. -/
def nextOf (r : Result) : Option State :=
  match r with
  | .next s => some s
  | _ => none

/-- The fault, where there is one. -/
def faultOf (r : Result) : Option Fault :=
  match r with
  | .fault f => some f
  | _ => none

theorem exists_next {r : Result} (h : (nextOf r).isSome = true) : ∃ t, r = .next t := by
  cases r <;> simp_all [nextOf]

theorem exists_fault {r : Result} {f : Fault} (h : faultOf r = some f) : r = .fault f := by
  cases r <;> simp_all [faultOf]

/-- A freshly loaded machine with 16 data cells and 100 cycles. -/
def fresh (prog : List Instr) : State := State.resetWith prog 16 100

/-- The record of an instruction at an address, with its source values. -/
def latchOf (i : Instr) (pc a b c : Word) : Latch :=
  { fetchedLatch i pc with rs1Val := a, rs2Val := b, rs3Val := c, isArith := isArithOp i }

/-- A fresh machine with one record, at the stage whose slot holds it; the claim of its destination is counted. -/
def holding (st : Stage) (l : Latch) : State :=
  let s := setSlot (setStage (fresh [.halt, .halt]) st) st (some l)
  match dest l.ins with
  | some r => claim s r
  | none => s

/-- Buffer and zero flag after Execute1. -/
def execute1Gives (i : Instr) (a b : Word) (z : Bool) : Option (Word × Bool) :=
  (nextOf (exec i (setZ (holding .execute1 (latchOf i 4000 a b 0)) z))).bind fun t =>
    t.latches.e2.map fun l => (l.buffer, t.z)

/-- The address an Execute1 computes. -/
def addressOf (i : Instr) (a b c : Word) : Option Word :=
  (nextOf (exec i (holding .execute1 (latchOf i 4000 a b c)))).bind fun t => t.latches.e2.map (·.memAddr)

/-- The target and `flushed` a branch decides on. -/
def targetOf (i : Instr) (pc : Word) (z : Bool) : Option (Word × Bool) :=
  (nextOf (exec i (setZ (holding .execute1 (latchOf i pc 0 0 0)) z))).bind fun t =>
    t.latches.e2.map fun l => (l.target, l.flushed)

/-! ### Records (section 6 of the vectors) -/

theorem test_wellformed_accepts : recordWellFormed { op := 5, rd := some 3, rs1 := some 0, rs2 := some 31 } = true := by decide
theorem test_wellformed_unused_field : recordWellFormed { op := 14, rd := some 40, imm := 8 } = true := by decide
theorem test_illformed_opcode_zero : recordWellFormed { op := 0 } = false := by decide
theorem test_illformed_opcode_above : recordWellFormed { op := 18 } = false := by decide
theorem test_illformed_register_absent : recordWellFormed { op := 16, rs1 := none } = false := by decide
theorem test_illformed_register_above : recordWellFormed { op := 5, rd := some 3, rs1 := some 1, rs2 := some 32 } = false := by
  decide
theorem test_illformed_register_negative : recordWellFormed { op := 2, rs1 := some 0, rs2 := some 0, rs3 := some (-1) } = false := by
  decide
theorem test_illformed_immediate_above : recordWellFormed { op := 13, rd := some 1, imm := 2147483648 } = false := by decide
theorem test_illformed_immediate_below : recordWellFormed { op := 13, rd := some 1, imm := -2147483649 } = false := by decide
theorem test_wellformed_immediate_ends :
    programWellFormed [{ op := 13, rd := some 1, imm := 2147483647 }, { op := 14, imm := -2147483648 }] = true := by decide

/-- LD1, LD7: the first failing record is reported. -/
theorem test_load_first_record :
    faultOf (load [{ op := 13, rd := some 1, imm := 5 }, { op := 99 }, { op := 5, rd := some 40, rs1 := some 1, rs2 := some 1 }]
      4096 10000) = some (.unknownOpcode 1) := by decide

/-- LD5: rd is checked before rs1. LD4: rs2 = 32. -/
theorem test_load_register_order :
    faultOf (load [{ op := 5, rd := some 32, rs1 := some 33, rs2 := some 1 }] 4096 10000) = some (.badRegister 0 .rd) ∧
    faultOf (load [{ op := 5, rd := some 3, rs1 := some 1, rs2 := some 32 }] 4096 10000) = some (.badRegister 0 .rs2) := by
  decide

/-- LD6, LD8: an immediate that is no Word, and registers checked before it. -/
theorem test_load_immediate :
    faultOf (load [{ op := 13, rd := some 1, imm := 2147483648 }] 4096 10000) = some (.badImmediate 0) ∧
    faultOf (load [{ op := 13, rd := some 40, imm := 2147483648 }] 4096 10000) = some (.badRegister 0 .rd) := by decide

/-- LD9: an unused field is not checked. -/
theorem test_load_unused_field : (nextOf (load [{ op := 14, rd := some 40, imm := 8 }] 4096 10000)).map (·.imem) = some [.bz 8] := by
  decide

/-- LD2, LD3: words with `opc` 18 and 0. -/
theorem test_load_words :
    faultOf (loadWords [0x4800000000000000] 4096 10000) = some (.unknownOpcode 0) ∧
    faultOf (loadWords [0x0000000000000000] 4096 10000) = some (.unknownOpcode 0) := by decide

/-! ### Words -/

theorem test_decode_loads_stores :
    decode64 0x04031000FFFFFFFD = .ok (.store 3 2 (-3)) ∧ decode64 0x080110C000000000 = .ok (.str 1 2 3) ∧
    decode64 0x0C80000000000005 = .ok (.load 4 0 5) ∧ decode64 0x1062100000000000 = .ok (.ldr 3 2 2) := by
  refine ⟨rfl, rfl, rfl, rfl⟩

theorem test_decode_register_arithmetic :
    decode64 0x1461100000000000 = .ok (.add 3 1 2) ∧ decode64 0x1861100000000000 = .ok (.sub 3 1 2) ∧
    decode64 0x1C61100000000000 = .ok (.mul 3 1 2) ∧ decode64 0x2061100000000000 = .ok (.and 3 1 2) ∧
    decode64 0x2461100000000000 = .ok (.or 3 1 2) ∧ decode64 0x2861100000000000 = .ok (.exor 3 1 2) := by
  refine ⟨rfl, rfl, rfl, rfl, rfl, rfl⟩

theorem test_decode_literals :
    decode64 0x2C41000000000001 = .ok (.addl 2 1 1) ∧ decode64 0x3021000000000001 = .ok (.subl 1 1 1) ∧
    decode64 0x3420000000000005 = .ok (.movc 1 5) := by
  refine ⟨rfl, rfl, rfl⟩

theorem test_decode_control :
    decode64 0x3800000000000008 = .ok (.bz 8) ∧ decode64 0x3C000000FFFFFFF8 = .ok (.bnz (-8)) ∧
    decode64 0x4005000000000000 = .ok (.jump 5 0) ∧ decode64 0x4400000000000000 = .ok .halt := by
  refine ⟨rfl, rfl, rfl, rfl⟩

/-- R87: `opc` 0, 18 and 63 are rejected; R86: the reserved bits and every unused field of HALT are ignored. -/
theorem test_decode_ends :
    decode64 0 = .error .unknownOpcode ∧ decode64 0x4800000000000000 = .error .unknownOpcode ∧
    decode64 0xFFFFFFFFFFFFFFFF = .error .unknownOpcode ∧ decode64 0x47FFFFFFFFFFFFFF = .ok .halt := by
  refine ⟨rfl, rfl, rfl, rfl⟩

/-- The top register in every field of STR, and the most negative immediate. -/
theorem test_decode_field_ends :
    decode64 0x081FFFC000000000 = .ok (.str 31 31 31) ∧ decode64 0x37E0000080000000 = .ok (.movc 31 (-2147483648)) := by
  refine ⟨rfl, rfl⟩

theorem test_decodeTableWord :
    decodeTableWord 64 0x1461100000000000 = some (.add 3 1 2) ∧ decodeTableWord 64 0x4800000000000000 = none := by
  refine ⟨rfl, rfl⟩

/-- The step after placing HALT's word at State.reset has fetched it into Decode. -/
theorem test_withFetchWord :
    (nextOf (step (State.reset.withFetchWord 64 0x4400000000000000))).map (fun t => (t.latches.d, t.pc, t.clock)) =
      some (some (fetchedLatch .halt 4000), 4004, 1) := by decide

/-! ### The arithmetic class (section 2.1 of the vectors) -/

theorem test_add_wraps : execute1Gives (.add 3 1 2) 2147483647 1 true = some (-2147483648, false) := by decide
theorem test_add_zero : execute1Gives (.add 3 1 2) (-1) 1 false = some (0, true) := by decide
theorem test_sub_wraps : execute1Gives (.sub 3 1 2) (-2147483648) 1 true = some (2147483647, false) := by decide
theorem test_sub_negative : execute1Gives (.sub 3 1 2) 7 9 true = some (-2, false) := by decide
theorem test_and : execute1Gives (.and 3 1 2) 12 10 true = some (8, false) := by decide
theorem test_or : execute1Gives (.or 3 1 2) 12 10 true = some (14, false) := by decide
theorem test_exor : execute1Gives (.exor 3 1 2) 12 10 true = some (6, false) := by decide
theorem test_exor_zero : execute1Gives (.exor 3 1 2) 77 77 false = some (0, true) := by decide
theorem test_addl : execute1Gives (.addl 3 1 (-5)) 5 0 false = some (0, true) := by decide
theorem test_subl : execute1Gives (.subl 3 1 (-2147483648)) 0 0 true = some (-2147483648, false) := by decide

/-- M2 of the vectors: MOVC #0 leaves `Z = 0`. -/
theorem test_movc_keeps_z : execute1Gives (.movc 3 0) 0 0 false = some (0, false) := by decide

/-- A multiply in its second cycle: 65536 times 65536 is 0 in 32 bits. -/
theorem test_mul_second_cycle :
    (nextOf (exec (.mul 3 1 2) (setBits (holding .execute1 (latchOf (.mul 3 1 2) 4000 65536 65536 0)) (freeze true)))).map
      (fun t => (t.latches.e2.map (·.buffer), t.z, t.bits)) = some (some 0, true, StageBits.clear) := by decide

/-- R183: its first cycle holds it and freezes Fetch and Decode. -/
theorem test_mul_first_cycle :
    (nextOf (exec (.mul 3 1 2) (holding .execute1 (latchOf (.mul 3 1 2) 4000 (-7) 6 0)))).map
      (fun t => (t.latches.e1.isSome, t.latches.e2, t.bits)) = some (true, none, freeze true) := by decide

/-- R115: the commit of the ADD of scenario 1. -/
theorem test_add_commits :
    (nextOf (exec (.add 3 1 2) (holding .writeback { latchOf (.add 3 1 2) 4008 5 10 0 with buffer := 15 }))).map
      (fun t => (reg t 3, pending t 3, t.completed, t.latches.w)) = some (15, 0, 1, none) := by decide

/-! ### Loads and stores (section 3 of the vectors) -/

/-- L1: the address wraps. P7: LOAD R4,R0,#0 reads cell 0. -/
theorem test_load_address : addressOf (.load 2 1 1) 2147483647 0 0 = some (-2147483648) := by decide
theorem test_load_reads :
    (nextOf (exec (.load 2 0 7) (setDm (holding .memory2 { latchOf (.load 2 0 7) 4008 0 0 0 with memAddr := 7 }) [(7, 42)]))).bind
      (fun t => t.latches.w.map (·.buffer)) = some 42 := by decide

/-- L3: 10 + 10 = 20 is outside 16 cells. -/
theorem test_ldr_address : addressOf (.ldr 2 1 1) 10 10 0 = some 20 := by decide
theorem test_ldr_out_of_range :
    faultOf (exec (.ldr 2 1 1) (holding .memory2 { latchOf (.ldr 2 1 1) 4004 10 10 0 with memAddr := 20 })) =
      some (.dmemOutOfRange 20 (holding .memory2 { latchOf (.ldr 2 1 1) 4004 10 10 0 with memAddr := 20 })) := by decide

/-- P7: STORE R3,R2,#-3 with R3 = 7 and R2 = 3 goes to cell 0. -/
theorem test_store_address : addressOf (.store 3 2 (-3)) 7 3 0 = some 0 := by decide
/-- P10: the highest cell of 16. -/
theorem test_store_writes :
    (nextOf (exec (.store 1 0 15) (holding .memory2 { latchOf (.store 1 0 15) 4004 5 0 0 with memAddr := 15 }))).map (·.dm) =
      some [(15, 5)] := by decide

/-- L2: base 2 and index 3, and the data is the first source. -/
theorem test_str_address : addressOf (.str 1 2 3) (-9) 2 3 = some 5 := by decide
theorem test_str_writes :
    (nextOf (exec (.str 1 2 3) (setDm (holding .memory2 { latchOf (.str 1 2 3) 4012 (-9) 2 3 with memAddr := 5 }) [(3, 1), (5, 4)]))).map
      (·.dm) = some [(3, 1), (5, -9)] := by decide

/-- Writing 0 removes the entry. -/
theorem test_writeCell_zero : writeCell [(3, 1), (5, 4)] 3 0 = [(5, 4)] := by decide

/-! ### Control flow (sections 1.3 and 4 of the vectors) -/

/-- Scenario 2: taken to 4012. P13: target 0 is the null target. -/
theorem test_bz_target :
    targetOf (.bz 8) 4004 true = some (4012, false) ∧ targetOf (.bz (-4000)) 4000 true = some (0, false) := by decide

/-- P16 before the taken BZ's Memory2 in cycle 6: a MOVC in M1, the MUL between its two cycles, an instruction in Decode. -/
def beforeSquash : State :=
  let s := holding .memory2 { latchOf (.bz 16) 4000 0 0 0 with target := 4016 }
  let s := setSlot (claim s 1) .memory1 (some (latchOf (.movc 1 2) 4004 0 0 0))
  let s := setSlot (claim s 3) .execute1 (some (latchOf (.mul 3 0 0) 4008 0 0 0))
  setHaltPending (setBits (setSlot s .decode (some (fetchedLatch (.movc 2 3) 4012))) (freeze true)) true

/-- P16: what is behind the branch is squashed with its claims; the freeze and a pending halt go with it. -/
theorem test_bz_squashes :
    (nextOf (exec (.bz 16) beforeSquash)).map (fun t => (t.latches, t.pc, t.bits)) =
      some ({ Latches.empty with w := some { latchOf (.bz 16) 4000 0 0 0 with target := 4016 } }, 4016, StageBits.clear) ∧
    (nextOf (exec (.bz 16) beforeSquash)).map (fun t => (pending t 1, pending t 3, t.haltPending)) = some (0, 0, false) := by
  decide

/-- C1: BNZ after reset is not taken. P4: BNZ #-8 at 4016 goes to 4008. -/
theorem test_bnz_target :
    targetOf (.bnz 8) 4000 true = some (0, true) ∧ targetOf (.bnz (-8)) 4016 false = some (4008, false) := by decide

/-- P5, cycle 8: JUMP R5,#0 with R5 = 4016, and its shadow in Decode stays. -/
theorem test_jump :
    let s := setSlot (holding .execute1 (latchOf (.jump 5 0) 4004 4016 0 0)) .decode (some (fetchedLatch (.movc 1 1) 4008))
    (nextOf (exec (.jump 5 0) s)).map (fun t => (t.pc, t.latches.d)) = some (4016, s.latches.d) := by decide

/-- S1, cycle 9: HALT leaves Decode and sets `halt_pending`. -/
theorem test_halt_decode :
    (nextOf (exec .halt (holding .decode (fetchedLatch .halt 4012)))).map (fun t => (t.haltPending, t.latches.d, t.latches.e1.isSome)) =
      some (true, none, true) := by decide

/-- R215, R30: HALT's commit sets `completed` to N and ends the run. -/
theorem test_halt_commits :
    (nextOf (exec .halt (holding .writeback (latchOf .halt 4000 0 0 0)))).map (fun t => (t.completed, t.stopped)) = some (2, true) := by
  decide

/-- 30_encoding.md R93, R94: the assembler spelling. -/
theorem test_asm : asm (.store 3 2 (-3)) = "STORE R3,R2,#-3" ∧ asm (.ldr 3 2 31) = "LDR R3,R2,R31" := by
  refine ⟨rfl, rfl⟩

/-! ### Witnesses: encoding, load and reset -/

/-- UnusedFieldsIgnored: two words and two records that differ only outside what their opcode uses. -/
theorem witness_UnusedFieldsIgnored :
    (opcField 0x3800000000000008 = opcField 0x3BFFFFFF00000008 ∧
      (0x3800000000000008 : BitVec 64) &&& usedMask 14 = 0x3BFFFFFF00000008 &&& usedMask 14) ∧
    sameUsed { op := 14, imm := 8 } { op := 14, rd := some 40, rs1 := some (-1), imm := 8 } := by
  refine ⟨⟨rfl, rfl⟩, rfl, ?_⟩
  simp [fieldsUsed]

/-- DecodesExactlyKnownOpcodes: both ends of the known opcodes and of the others. -/
theorem witness_DecodesExactlyKnownOpcodes :
    (opcField 0x0400000000000000).toNat = 1 ∧ (opcField 0x4400000000000000).toNat = 17 ∧
    (opcField 0).toNat = 0 ∧ (opcField 0x4800000000000000).toNat = 18 ∧ (opcField 0xFC00000000000000).toNat = 63 := by
  refine ⟨rfl, rfl, rfl, rfl, rfl⟩

/-- LoadSucceedsOnWellFormed: a program that loads, with the least parameters; P7's STORE R3,R2,#-3 is its record's
instruction. -/
theorem witness_LoadSucceedsOnWellFormed :
    programWellFormed [{ op := 14, rd := some 40, imm := 8 }] = true ∧
    (nextOf (load [{ op := 14, rd := some 40, imm := 8 }] 1 1)).isSome = true ∧
    (nextOf (load [{ op := 1, rs1 := some 3, rs2 := some 2, imm := -3 }] 1 1)).map (·.imem) = some [.store 3 2 (-3)] ∧
    recordIs { op := 1, rs1 := some 3, rs2 := some 2, imm := -3 } (.store 3 2 (-3)) := by
  refine ⟨by decide, by decide, by decide, rfl, rfl, rfl, rfl⟩

/-- LoadWordsDecodesEach: a program one longer than `nMax`; words that all decode; a good word before a bad one. -/
theorem witness_LoadWordsDecodesEach :
    Config.nMax < (List.replicate 536869912 (0 : BitVec 64)).length ∧
    [(0x3420000000000005 : BitVec 64), 0x4400000000000000].map decode64 = [Instr.movc 1 5, .halt].map .ok ∧
    ((∀ v ∈ [(0x4400000000000000 : BitVec 64)], ∃ i, decode64 v = .ok i) ∧
      decode64 0x4800000000000000 = .error .unknownOpcode) := by
  refine ⟨by rw [List.length_replicate]; decide, rfl, ?_, rfl⟩
  simp only [List.mem_cons, List.not_mem_nil, or_false]
  rintro v rfl
  exact ⟨.halt, rfl⟩

/-- LoadReportsFirstFailure, the first clause: a program one longer than `nMax` (LD10). -/
theorem witness_LoadReportsFirstFailure_length : Config.nMax < (List.replicate 536869912 ({ op := 17 } : Record)).length := by
  rw [List.length_replicate]; decide

/-- LoadReportsFirstFailure, the other clauses: a good record before one with a bad opcode, a bad register behind a good one
(LD4), and a bad immediate behind a good register (LD6). -/
theorem witness_LoadReportsFirstFailure :
    ([{ op := 17 }] : List Record).all recordWellFormed = true ∧ knownOpcode 99 = false ∧
    (([.rd, .rs1, .rs2, .rs3, .imm] : List RecordField) = [.rd, .rs1] ++ .rs2 :: [.rs3, .imm] ∧
      (∀ g ∈ [RecordField.rd, .rs1], g ∈ fieldsUsed 5 →
        fieldOk { op := 5, rd := some 3, rs1 := some 1, rs2 := some 32 } g = true) ∧
      RecordField.rs2 ∈ fieldsUsed 5 ∧ fieldOk { op := 5, rd := some 3, rs1 := some 1, rs2 := some 32 } .rs2 = false) ∧
    ((∀ g ∈ [RecordField.rd, .rs1, .rs2, .rs3], g ∈ fieldsUsed 13 →
        fieldOk { op := 13, rd := some 1, imm := 2147483648 } g = true) ∧
      RecordField.imm ∈ fieldsUsed 13 ∧ fieldOk { op := 13, rd := some 1, imm := 2147483648 } .imm = false) := by
  decide

/-! ### Witnesses: the stages -/

/-- FetchTransition, a fetch: the first and the last instruction of a program, free and held. -/
theorem witness_FetchTransition_reads :
    ((fresh [.halt, .movc 1 5]).pc.toInt = 4000 + 4 * ((0 : Nat) : Int) ∧ (fresh [.halt, .movc 1 5]).imem[0]? = some .halt) ∧
    ((setPc (fresh [.halt, .movc 1 5]) 4004).pc.toInt = 4000 + 4 * ((1 : Nat) : Int) ∧
      (setPc (fresh [.halt, .movc 1 5]) 4004).imem[1]? = some (.movc 1 5)) ∧
    (fresh [.halt, .movc 1 5]).stage = .fetch ∧ (setPc (fresh [.halt, .movc 1 5]) 4004).stage = .fetch ∧
    (fresh [.halt]).haltPending = false ∧ (fresh [.halt]).bits.fBusy = false ∧ (fresh [.halt]).bits.fStalled = false ∧
    (setStalls (fresh [.halt]) true).bits.fStalled = true ∧ (setBits (fresh [.halt]) (freeze true)).bits.fBusy = true := by
  decide

/-- FetchTransition, a bubble: a pending halt; an address between two instructions, one past the end, and 0. -/
theorem witness_FetchTransition_bubble :
    (setHaltPending (fresh [.halt]) true).haltPending = true ∧
    (∀ k : Nat, k < 1 → (4002 : Word).toInt ≠ 4000 + 4 * (k : Int)) ∧
    (∀ k : Nat, k < 1 → (4004 : Word).toInt ≠ 4000 + 4 * (k : Int)) ∧
    (∀ k : Nat, k < 1 → (0 : Word).toInt ≠ 4000 + 4 * (k : Int)) := by
  refine ⟨rfl, ?_, ?_, ?_⟩ <;> decide

/-- An instruction in Decode with another in the stage `st`. -/
def behind (i : Instr) (st : Stage) (older : Instr) : State :=
  setSlot (holding .decode (fetchedLatch i 4008)) st (some (latchOf older 4000 0 0 0))

/-- DecodeAdvances: a MUL, a HALT, an STR, and a branch with a MOVC in M2. -/
theorem witness_DecodeAdvances :
    (∀ i ∈ [Instr.mul 3 1 2, .halt, .str 1 2 3], ∃ d, (holding .decode (fetchedLatch i 4000)).stage = .decode ∧
      (holding .decode (fetchedLatch i 4000)).latches.d = some d ∧ d.ins = i ∧
      (holding .decode (fetchedLatch i 4000)).bits.dBusy = false ∧ isBranchOp i = false) ∧
    (∀ r ∈ sources (.str 1 2 3), pending (holding .decode (fetchedLatch (.str 1 2 3) 4000)) r = 0) ∧
    ((behind (.bz 8) .memory2 (.movc 1 5)).stage = .decode ∧
      (behind (.bz 8) .memory2 (.movc 1 5)).latches.d = some (fetchedLatch (.bz 8) 4008) ∧
      (behind (.bz 8) .memory2 (.movc 1 5)).bits.dBusy = false ∧ sources (.bz 8) = [] ∧
      ¬ ((∃ m, (behind (.bz 8) .memory2 (.movc 1 5)).latches.m2 = some m ∧ m.isArith = true) ∨
          (∃ w, (behind (.bz 8) .memory2 (.movc 1 5)).latches.w = some w ∧ w.isArith = true))) := by
  refine ⟨?_, by decide, rfl, rfl, rfl, rfl, ?_⟩
  · simp only [List.mem_cons, List.not_mem_nil, or_false]
    rintro i (rfl | rfl | rfl) <;> exact ⟨_, rfl, rfl, rfl, rfl, rfl⟩
  · rintro (⟨m, hm, ha⟩ | ⟨w, hw, -⟩)
    · cases hm; cases ha
    · cases hw

/-- DecodeHolds: a source with one claim; a branch behind an arithmetic instruction in M2; one behind it in W. -/
theorem witness_DecodeHolds :
    ((claim (behind (.addl 2 1 1) .execute1 (.movc 1 5)) 1).stage = .decode ∧
      (claim (behind (.addl 2 1 1) .execute1 (.movc 1 5)) 1).latches.d = some (fetchedLatch (.addl 2 1 1) 4008) ∧
      (claim (behind (.addl 2 1 1) .execute1 (.movc 1 5)) 1).bits.dBusy = false ∧
      ∃ r ∈ sources (.addl 2 1 1), pending (claim (behind (.addl 2 1 1) .execute1 (.movc 1 5)) 1) r ≠ 0) ∧
    ((behind (.bnz 8) .memory2 (.addl 1 0 0)).stage = .decode ∧
      (behind (.bnz 8) .memory2 (.addl 1 0 0)).latches.d = some (fetchedLatch (.bnz 8) 4008) ∧
      (behind (.bnz 8) .memory2 (.addl 1 0 0)).bits.dBusy = false ∧
      ∃ m, (behind (.bnz 8) .memory2 (.addl 1 0 0)).latches.m2 = some m ∧ m.isArith = true) ∧
    ((behind (.bz 8) .writeback (.addl 1 0 0)).stage = .decode ∧
      (behind (.bz 8) .writeback (.addl 1 0 0)).latches.d = some (fetchedLatch (.bz 8) 4008) ∧
      (behind (.bz 8) .writeback (.addl 1 0 0)).bits.dBusy = false ∧
      ∃ w, (behind (.bz 8) .writeback (.addl 1 0 0)).latches.w = some w ∧ w.isArith = true) :=
  ⟨⟨rfl, rfl, rfl, 1, by decide, by decide⟩, ⟨rfl, rfl, rfl, _, rfl, rfl⟩, rfl, rfl, rfl, _, rfl, rfl⟩

/-- DecodeFrozenAndBubble. -/
theorem witness_DecodeFrozenAndBubble :
    ((setStage (setBits (fresh []) (freeze true)) .decode).stage = .decode ∧
      (setStage (setBits (fresh []) (freeze true)) .decode).bits.dBusy = true) ∧
    ((setStage (setStalls (fresh []) true) .decode).stage = .decode ∧
      (setStage (setStalls (fresh []) true) .decode).bits.dBusy = false ∧
      (setStage (setStalls (fresh []) true) .decode).latches.d = none) := by decide

/-- LoadStoreExecute1, AddSubtractExecute1, BitwiseExecute1, MoveConstantExecute1, JumpExecute1 and BranchExecute1 with
either zero flag: a record in Execute1. -/
theorem witness_Execute1 :
    ∃ (s : State) (e : Latch), s.stage = .execute1 ∧ s.latches.e1 = some e ∧ s.z = true ∧ (setZ s false).z = false ∧
      (setZ s false).latches.e1 = some e :=
  ⟨holding .execute1 (latchOf (.add 3 1 2) 4000 5 10 0), _, rfl, rfl, rfl, rfl, rfl⟩

/-- MultiplyExecute1: the first cycle and the second. -/
theorem witness_MultiplyExecute1 :
    ∃ (s : State) (e : Latch), s.stage = .execute1 ∧ s.latches.e1 = some e ∧ s.bits.mulPending = false ∧
      (setBits s (freeze true)).bits.mulPending = true :=
  ⟨holding .execute1 (latchOf (.mul 3 1 2) 4000 3 4 0), _, rfl, rfl, rfl, rfl⟩

/-- PassOnStages. -/
theorem witness_PassOnStages :
    (holding .execute2 (latchOf (.movc 1 5) 4000 0 0 0)).stage = .execute2 ∧
    (holding .memory1 (latchOf (.movc 1 5) 4000 0 0 0)).stage = .memory1 := by decide

/-- A load or store (or any other instruction) in Memory2 with the address `a`, and 16 data cells. -/
def accessing (i : Instr) (a : Word) : State := holding .memory2 { latchOf i 4004 5 0 0 with memAddr := a }

/-- Memory2PassesOthers, LoadMemory2 and StoreMemory2: both ends of the data store, and the cells beyond each. -/
theorem witness_Memory2 :
    (∀ a ∈ [(0 : Word), 15], ∃ m, (accessing (.store 1 0 0) a).stage = .memory2 ∧
      (accessing (.store 1 0 0) a).latches.m2 = some m ∧ (accessing (.store 1 0 0) a).dm.wf ∧
      0 ≤ m.memAddr.toInt ∧ m.memAddr.toInt < (accessing (.store 1 0 0) a).dmemSize) ∧
    (∀ a ∈ [(16 : Word), -1], ∃ m, (accessing (.load 1 0 0) a).stage = .memory2 ∧
      (accessing (.load 1 0 0) a).latches.m2 = some m ∧ (accessing (.load 1 0 0) a).dm.wf ∧
      ¬ (0 ≤ m.memAddr.toInt ∧ m.memAddr.toInt < (accessing (.load 1 0 0) a).dmemSize)) := by
  simp only [List.mem_cons, List.not_mem_nil, or_false]
  constructor
  · rintro a (rfl | rfl) <;> exact ⟨_, rfl, rfl, by decide, by decide, by decide⟩
  · rintro a (rfl | rfl) <;> exact ⟨_, rfl, rfl, by decide, by decide⟩

/-- BranchMemory2: the null target, and a taken branch with two claims behind it. -/
theorem witness_BranchMemory2 :
    (∃ m, (holding .memory2 (latchOf (.bz 8) 4000 0 0 0)).latches.m2 = some m ∧ m.target = 0) ∧
    (∃ m, beforeSquash.latches.m2 = some m ∧ m.target ≠ 0) ∧ beforeSquash.stage = .memory2 ∧
    ∀ r, [beforeSquash.latches.e1, beforeSquash.latches.e2, beforeSquash.latches.m1].countP (writesReg r) ≤ pending beforeSquash r :=
  ⟨⟨_, rfl, rfl⟩, ⟨_, rfl, by decide⟩, rfl, by decide⟩

/-- HaltStages: HALT in each of its three stages; the counters meet the premise. -/
theorem witness_HaltStages :
    (∃ l, (holding .execute1 (latchOf .halt 4000 0 0 0)).latches.e1 = some l) ∧
    (∃ l, (holding .memory2 (latchOf .halt 4000 0 0 0)).latches.m2 = some l) ∧
    (∃ l, (holding .writeback (latchOf .halt 4000 0 0 0)).latches.w = some l) ∧
    ∀ r, [(holding .memory2 (latchOf .halt 4000 0 0 0)).latches.e1, (holding .memory2 (latchOf .halt 4000 0 0 0)).latches.e2,
      (holding .memory2 (latchOf .halt 4000 0 0 0)).latches.m1].countP (writesReg r) ≤
        pending (holding .memory2 (latchOf .halt 4000 0 0 0)) r :=
  ⟨⟨_, rfl⟩, ⟨_, rfl⟩, ⟨_, rfl⟩, by decide⟩

/-- WritebackCommits: a counted destination, none, and a destination whose counter is 0. -/
theorem witness_WritebackCommits :
    (∃ w, (holding .writeback (latchOf (.movc 1 5) 4000 0 0 0)).latches.w = some w) ∧
    (dest (.movc 1 5) = some 1 ∧ pending (holding .writeback (latchOf (.movc 1 5) 4000 0 0 0)) 1 ≠ 0) ∧
    (dest (.jump 1 0) = none ∧ Instr.jump 1 0 ≠ .halt) ∧
    (dest (.movc 2 5) = some 2 ∧ pending (holding .writeback (latchOf (.movc 1 5) 4000 0 0 0)) 2 = 0) ∧
    (setStage (fresh []) .writeback).latches.w = none :=
  ⟨⟨_, rfl⟩, by decide, by decide, by decide, rfl⟩

/-! ### Witnesses: steps and cycles -/

/-- A running machine: a MOVC about to commit, a JUMP in Execute1 and its shadow in Decode. -/
def flowing : State :=
  let s := claim (fresh [.movc 1 5, .jump 0 4012, .movc 2 7, .halt]) 1
  let s := setSlot s .writeback (some { latchOf (.movc 1 5) 4000 0 0 0 with buffer := 5 })
  let s := setSlot s .execute1 (some (latchOf (.jump 0 4012) 4004 0 0 0))
  setClock (setPc (setSlot s .decode (some (fetchedLatch (.movc 2 7) 4008))) 4012) 6

/-- StepRunsDecodedInstruction: a running machine whose Fetch reads the target of a JUMP; an idle one; a record in a slot. -/
theorem witness_StepRunsDecodedInstruction :
    (driverCheck flowing = .goOn ∧
      ∃ u, runStages [.writeback, .memory2, .memory1, .execute2, .execute1, .decode] { flowing with clock := flowing.clock + 1 } =
        .next u ∧ u.haltPending = false ∧ u.pc.toInt = 4000 + 4 * ((3 : Nat) : Int) ∧ u.imem[3]? = some .halt) ∧
    (idle (fresh [.halt]) ∧ (fresh [.halt]).clock < (fresh [.halt]).maxCycles ∧
      (fresh [.halt]).pc.toInt = 4000 + 4 * ((0 : Nat) : Int) ∧ (fresh [.halt]).imem[0]? = some .halt) ∧
    (∃ l, slot flowing .execute1 = some l) :=
  ⟨⟨by decide, _, rfl, rfl, rfl, rfl⟩,
    ⟨⟨rfl, rfl, rfl, rfl, rfl, rfl, rfl, by decide, rfl, rfl⟩, by decide, by decide, rfl⟩, _, rfl⟩

/-- PlacedWordIsFetched. -/
theorem witness_PlacedWordIsFetched :
    decodeTableWord 64 0x4400000000000000 = some .halt ∧ 1 ≤ State.reset.maxCycles ∧ State.reset.imem.length ≤ Config.nMax := by
  refine ⟨rfl, by decide, by decide⟩

/-- DriverChecksInOrder: a stopped machine; the end of the program; an address off the grid (P20); the cap reached (C5), by a
drained machine with something to fetch; and a machine that goes on. -/
theorem witness_DriverChecksInOrder :
    (setStopped (fresh [.halt]) true).stopped = true ∧
    ((fresh []).stopped = false ∧ drained (fresh []) = true ∧ fetchable (fresh []) (fresh []).pc = false ∧
      (fresh []).pc.toInt = 4000 + 4 * ((fresh []).imem.length : Int)) ∧
    (drained (setPc (fresh [.halt]) 4002) = true ∧ fetchable (setPc (fresh [.halt]) 4002) 4002 = false ∧
      (4002 : Word).toInt ≠ 4000 + 4 * ((fresh [.halt]).imem.length : Int)) ∧
    (fetchable (setClock (fresh [.halt]) 100) 4000 = true ∧ (setClock (fresh [.halt]) 100).clock = (fresh [.halt]).maxCycles) ∧
    (drained flowing = false ∧ flowing.clock ≠ flowing.maxCycles ∧ flowing.stopped = false ∧ flowing.clock ≤ flowing.maxCycles) := by
  decide

/-- DriverChecksInOrder where the checks go on: a cycle that answers a next state, the last one the cap allows; and one that
faults (P8's load of cell -1). -/
theorem witness_DriverChecksInOrder_goOn :
    (∃ t, driverCheck (setClock flowing 99) = .goOn ∧ cycle (setClock flowing 99) = .next t) ∧
    (∃ f, driverCheck (holding .memory2 { latchOf (.load 1 0 (-1)) 4000 0 0 0 with memAddr := -1 }) = .goOn ∧
      cycle (holding .memory2 { latchOf (.load 1 0 (-1)) 4000 0 0 0 with memAddr := -1 }) = .fault f) :=
  ⟨⟨_, by decide, rfl⟩, ⟨_, by decide, rfl⟩⟩

/-- EveryRunEnds: at the cap, where the run returns LIVENESS at once, and below it. -/
theorem witness_EveryRunEnds :
    ((setClock (fresh [.halt]) 100).clock ≤ (setClock (fresh [.halt]) 100).maxCycles ∧
      run (setClock (fresh [.halt]) 100) = some (.fault (.liveness 100 (setClock (fresh [.halt]) 100)))) ∧
    (fresh [.halt]).clock ≤ (fresh [.halt]).maxCycles :=
  ⟨⟨by decide, rfl⟩, by decide⟩

/-- StepStopsOnlyWithRunTimeFaults: each of the four faults is raised by some step. -/
theorem witness_StepStopsOnlyWithRunTimeFaults :
    (∃ a left, step (holding .memory2 { latchOf (.load 2 1 1) 4004 0 0 0 with memAddr := -2147483648 }) = .fault (.dmemOutOfRange a left)) ∧
    (∃ r left, step (setPending (holding .writeback (latchOf (.movc 1 5) 4000 0 0 0)) 1 0) = .fault (.scoreboardUnderflow r left)) ∧
    (∃ left, step (setPc (fresh [.halt]) 0) = .fault (.fetchOutOfRange 0 left)) ∧
    (∃ left, step (setClock (fresh [.halt]) 100) = .fault (.liveness 100 left)) :=
  ⟨⟨_, _, rfl⟩, ⟨_, _, rfl⟩, ⟨_, rfl⟩, ⟨_, rfl⟩⟩

/-- RegistersWrittenByWritebackOnly, PcWritersOnly (a JUMP in Execute1) and CycleCountsAndKeeps: a cycle with a commit. -/
theorem witness_cycle_commit : ∃ t w, cycle flowing = .next t ∧ flowing.latches.w = some w ∧ dest w.ins = some 1 ∧ w.ins ≠ .halt :=
  ⟨_, _, rfl, rfl, rfl, by decide⟩

/-- RegistersWrittenByWritebackOnly, PcWritersOnly and CycleCountsAndKeeps: a cycle with an empty Writeback. -/
theorem witness_cycle_fetch : ∃ t, cycle (fresh [.halt]) = .next t ∧ (fresh [.halt]).latches.w = none := ⟨_, rfl, rfl⟩

/-- CycleCountsAndKeeps: a cycle with HALT's commit. -/
theorem witness_cycle_halt :
    ∃ t w, cycle (holding .writeback (latchOf .halt 4000 0 0 0)) = .next t ∧
      (holding .writeback (latchOf .halt 4000 0 0 0)).latches.w = some w ∧ w.ins = .halt := ⟨_, _, rfl, rfl, rfl⟩

/-- DataWrittenByMemory2Only: a STORE in Memory2. -/
theorem witness_DataWrittenByMemory2Only :
    ∃ t, (holding .memory2 { latchOf (.store 1 0 15) 4004 5 0 0 with memAddr := 15 }).dm.wf ∧
      cycle (holding .memory2 { latchOf (.store 1 0 15) 4004 5 0 0 with memAddr := 15 }) = .next t ∧ readCell t.dm 15 = 5 :=
  ⟨_, by decide, rfl, rfl⟩

/-- ZeroFlagWrittenByArithmeticOnly: an ADD in Execute1. -/
theorem witness_ZeroFlagWrittenByArithmeticOnly :
    ∃ t, cycle (holding .execute1 (latchOf (.add 3 1 2) 4000 5 10 0)) = .next t ∧ t.z = false := ⟨_, rfl, rfl⟩

/-- HaltPendingWriters: a HALT in Decode, and a taken branch over a pending halt. -/
theorem witness_HaltPendingWriters :
    (∃ t, cycle (holding .decode (fetchedLatch .halt 4000)) = .next t ∧ t.haltPending = true) ∧
    (∃ t, cycle beforeSquash = .next t ∧ beforeSquash.haltPending = true ∧ t.haltPending = false) :=
  ⟨⟨_, rfl, rfl⟩, _, rfl, rfl, rfl⟩

/-- TakenBranchCycle: P16's cycle 6, with the target in the store; and a target outside it. -/
theorem witness_TakenBranchCycle :
    (∃ t m, beforeSquash.latches.m2 = some m ∧ m.ins = .bz 16 ∧ m.target ≠ 0 ∧ cycle beforeSquash = .next t ∧
      ∀ k : Nat, k < beforeSquash.imem.length → m.target.toInt ≠ 4000 + 4 * (k : Int)) ∧
    (∃ t m, (holding .memory2 { latchOf (.bnz 4) 4000 0 0 0 with target := 4004 }).latches.m2 = some m ∧ m.ins = .bnz 4 ∧ m.target ≠ 0 ∧
      cycle (holding .memory2 { latchOf (.bnz 4) 4000 0 0 0 with target := 4004 }) = .next t ∧
      m.target.toInt = 4000 + 4 * ((1 : Nat) : Int) ∧
      (holding .memory2 { latchOf (.bnz 4) 4000 0 0 0 with target := 4004 }).imem[1]? = some .halt) :=
  ⟨⟨_, _, rfl, rfl, by decide, rfl, by decide⟩, ⟨_, _, rfl, rfl, by decide, rfl, by decide, rfl⟩⟩

/-! ### Witnesses: the invariant -/

/-- The invariant of a state with nothing frozen or stalled, no HALT in flight and an empty data store. -/
theorem inv_of {s : State} (sb : ∀ r, pending s r = writersInFlight s r) (bits : s.bits = StageBits.clear)
    (noHalt : (issuedSlots s).any holdsHalt = false)
    (arith : (issuedSlots s).all (fun x => x.all fun l => l.isArith == isArithOp l.ins) = true) (dm : s.dm = [])
    (clock : s.clock ≤ s.maxCycles) (completed : s.completed ≤ s.clock) : Inv s where
  scoreboard := sb
  freeze := by rw [freezeConsistent, bits]; exact ⟨rfl, rfl, rfl, fun h => nomatch h⟩
  stalls := by rw [stallsExplained, bits]; exact fun h => nomatch h
  halt := by
    refine ⟨fun h => (Bool.false_ne_true (noHalt.symm.trans h)).elim, ?_⟩
    simp only [issuedSlots, List.any_cons, List.any_nil, Bool.or_false, Bool.or_eq_false_iff] at noHalt
    simp [issuedSlots, bubblesBeforeHalt, noHalt]
  arith := by
    intro x hx l hl
    have h := List.all_eq_true.mp arith x hx
    subst hl
    exact beq_iff_eq.mp h
  store := by rw [dataStoreOk, dm]; exact ⟨by decide, by simp⟩
  counters := ⟨clock, fun _ => completed⟩

/-- P21 after cycle 2: the MUL in Execute1 and its consumer in Decode. -/
def behindMul : State :=
  let s := claim (fresh [.mul 3 0 0, .add 4 3 3, .halt]) 3
  let s := setSlot s .execute1 (some (latchOf (.mul 3 0 0) 4000 0 0 0))
  setClock (setPc (setSlot s .decode (some (fetchedLatch (.add 4 3 3) 4004))) 4008) 2

theorem inv_behindMul : Inv behindMul :=
  inv_of (by decide) (by decide) (by decide) (by decide) rfl (by decide) (by decide)

theorem inv_flowing : Inv flowing :=
  inv_of (by decide) (by decide) (by decide) (by decide) rfl (by decide) (by decide)

/-- StepKeepsInvariant: a step from a state that meets the invariant. -/
theorem witness_StepKeepsInvariant : ∃ t, Inv behindMul ∧ step behindMul = .next t := ⟨_, inv_behindMul, rfl⟩

/-- JumpShadowSurvives, the shadow advancing: P5's cycle 8. -/
theorem witness_JumpShadowSurvives :
    ∃ t e d, Inv flowing ∧ flowing.latches.e1 = some e ∧ e.ins = .jump 0 4012 ∧ flowing.latches.d = some d ∧
      (∀ m, flowing.latches.m2 = some m → (∃ a, m.ins = .bz a ∨ m.ins = .bnz a) → m.target = 0) ∧
      cycle flowing = .next t ∧ t.bits.dStalled = false :=
  ⟨_, _, _, inv_flowing, rfl, rfl, rfl, (fun _ h => nomatch h), rfl, rfl⟩

/-- A JUMP in Execute1 whose shadow waits for a register that the instruction in Execute2 writes. -/
def heldShadow : State :=
  let s := claim (fresh [.movc 1 5, .jump 0 4012, .addl 2 1 7, .halt]) 1
  let s := setSlot s .execute2 (some { latchOf (.movc 1 5) 4000 0 0 0 with buffer := 5 })
  let s := setSlot s .execute1 (some (latchOf (.jump 0 4012) 4004 0 0 0))
  setClock (setPc (setSlot s .decode (some (fetchedLatch (.addl 2 1 7) 4008))) 4012) 3

theorem inv_heldShadow : Inv heldShadow :=
  inv_of (by decide) (by decide) (by decide) (by decide) rfl (by decide) (by decide)

/-- JumpShadowSurvives, the shadow held. -/
theorem witness_JumpShadowSurvives_held :
    ∃ t e d, Inv heldShadow ∧ heldShadow.latches.e1 = some e ∧ e.ins = .jump 0 4012 ∧ heldShadow.latches.d = some d ∧
      (∀ m, heldShadow.latches.m2 = some m → (∃ a, m.ins = .bz a ∨ m.ins = .bnz a) → m.target = 0) ∧
      cycle heldShadow = .next t ∧ t.bits.dStalled = true :=
  ⟨_, _, _, inv_heldShadow, rfl, rfl, rfl, (fun _ h => nomatch h), rfl, rfl⟩

/-- Five writers of R1 in flight. -/
def fiveWriters : State :=
  let x := some (latchOf (.movc 1 5) 4000 0 0 0)
  { setPending (fresh [.halt]) 1 5 with latches := ⟨none, none, x, x, x, x, x⟩ }

/-- CountersAtMostFive is met with equality. (UnderflowUnreachable has the same premise.) -/
theorem witness_CountersAtMostFive : Inv fiveWriters ∧ pending fiveWriters 1 = 5 :=
  ⟨inv_of (by decide) rfl (by decide) (by decide) rfl (by decide) (by decide), by decide⟩

/-- A BNZ to 4004 in Memory2. -/
def takenBranch : State := holding .memory2 { latchOf (.bnz 4) 4000 0 0 0 with target := 4004 }

theorem inv_takenBranch : Inv takenBranch :=
  inv_of (by decide) (by decide) (by decide) (by decide) rfl (by decide) (by decide)

/-- SlotsMoveInOrder: a cycle in which Decode passes on, one in which a multiply holds, one in which Decode holds, and one
with a taken branch. -/
theorem witness_SlotsMoveInOrder :
    (∃ t, Inv flowing ∧ cycle flowing = .next t ∧ flowing.latches.d ≠ none ∧ t.latches.e1 ≠ none) ∧
    (∃ t, Inv behindMul ∧ cycle behindMul = .next t ∧ t.latches.e1 = behindMul.latches.e1) ∧
    (∃ t, Inv heldShadow ∧ cycle heldShadow = .next t ∧ t.latches.d = heldShadow.latches.d) ∧
    (∃ t, Inv takenBranch ∧ cycle takenBranch = .next t ∧ t.latches.d = t.latches.f) :=
  ⟨⟨_, inv_flowing, rfl, by decide, by decide⟩, ⟨_, inv_behindMul, rfl, rfl⟩, ⟨_, inv_heldShadow, rfl, rfl⟩,
    _, inv_takenBranch, rfl, rfl⟩

/-- NoOverwrite: six transitions of a cycle with Decode advancing, and with a multiply's freeze. -/
theorem witness_NoOverwrite :
    (∃ t, Inv flowing ∧
      runStages [.writeback, .memory2, .memory1, .execute2, .execute1, .decode] flowing = .next t ∧ t.latches.d = none) ∧
    (∃ t, Inv behindMul ∧
      runStages [.writeback, .memory2, .memory1, .execute2, .execute1, .decode] behindMul = .next t ∧ t.bits.fBusy = true) :=
  ⟨⟨_, inv_flowing, rfl, rfl⟩, ⟨_, inv_behindMul, rfl, rfl⟩⟩

/-- P21: the consumer directly behind a MUL holds in Decode for five cycles and advances in the sixth, so
DecodeHoldsAtMostFive is met, and five is reached. -/
theorem witness_DecodeHoldsAtMostFive :
    ∃ ts : List State, Inv behindMul ∧ cyclesFrom behindMul ts ∧ ts.length = 6 ∧
      ts.map (·.bits.dStalled) = [true, true, true, true, true, false] :=
  ⟨[_, _, _, _, _, _], inv_behindMul, ⟨rfl, rfl, rfl, rfl, rfl, rfl, trivial⟩, rfl, rfl⟩

/-- DecodeReadsCommittedValues: the shadow of `flowing` has just left Decode. -/
theorem witness_DecodeReadsCommittedValues :
    ∃ t d, Inv flowing ∧ cycle flowing = .next t ∧ t.latches.e1 = some d ∧ t.bits.mulPending = false :=
  ⟨_, _, inv_flowing, rfl, rfl, rfl⟩

/-- DrainedCycleChangesNothing: a drained machine off the grid. -/
theorem witness_DrainedCycleChangesNothing :
    Inv (setPc (fresh [.halt]) 4002) ∧ drained (setPc (fresh [.halt]) 4002) = true ∧
    fetchable (setPc (fresh [.halt]) 4002) 4002 = false :=
  ⟨inv_of (by decide) (by decide) (by decide) (by decide) rfl (by decide) (by decide), by decide, by decide⟩

/-- DataFaultState: L1's load in Memory2, and P9's store. -/
theorem witness_DataFaultState :
    ∃ left, step (holding .memory2 { latchOf (.load 2 1 1) 4004 2147483647 0 0 with memAddr := -2147483648 }) =
      .fault (.dmemOutOfRange (-2147483648) left) ∧
    ∃ left, step (holding .memory2 { latchOf (.store 1 0 16) 4004 5 0 0 with memAddr := 16 }) = .fault (.dmemOutOfRange 16 left) :=
  ⟨_, rfl, _, rfl⟩

/-! ### Witnesses: one instruction through the pipeline -/

theorem idle_fresh (prog : List Instr) : idle (fresh prog) :=
  ⟨rfl, rfl, rfl, rfl, rfl, rfl, rfl, fun r => by simp [fresh, State.resetWith, pending], rfl, rfl⟩

theorem lastAtPc_fresh (i : Instr) : lastAtPc i (fresh [i]) :=
  ⟨[], rfl, by simp [fresh, State.resetWith, Config.nMax], rfl⟩

/-- ArithmeticPassage: an instruction that sets the zero flag, and MOVC. -/
theorem witness_ArithmeticPassage :
    (idle (fresh [.add 3 1 2]) ∧ lastAtPc (.add 3 1 2) (fresh [.add 3 1 2]) ∧
      (fresh [.add 3 1 2]).clock + 7 ≤ (fresh [.add 3 1 2]).maxCycles ∧
      true = decide (0 = (0 : Word)) ∧ (0 : Word) = reg (fresh [.add 3 1 2]) 1 + reg (fresh [.add 3 1 2]) 2) ∧
    (idle (fresh [.movc 1 5]) ∧ lastAtPc (.movc 1 5) (fresh [.movc 1 5]) ∧ true = (fresh [.movc 1 5]).z) :=
  ⟨⟨idle_fresh _, lastAtPc_fresh _, by decide, by decide, by decide⟩, idle_fresh _, lastAtPc_fresh _, rfl⟩

/-- MultiplyPassage. -/
theorem witness_MultiplyPassage :
    idle (fresh [.mul 3 1 2]) ∧ lastAtPc (.mul 3 1 2) (fresh [.mul 3 1 2]) ∧
    (fresh [.mul 3 1 2]).clock + 8 ≤ (fresh [.mul 3 1 2]).maxCycles :=
  ⟨idle_fresh _, lastAtPc_fresh _, by decide⟩

/-- LoadStorePassage: a load of the lowest cell and a store to the highest of 16. -/
theorem witness_LoadStorePassage :
    (idle (fresh [.load 4 0 0]) ∧ lastAtPc (.load 4 0 0) (fresh [.load 4 0 0]) ∧ (fresh [.load 4 0 0]).dm.wf ∧
      (0 : Word) = reg (fresh [.load 4 0 0]) 0 + 0 ∧ 0 ≤ (0 : Word).toInt ∧ (0 : Word).toInt < ((16 : Nat) : Int)) ∧
    (idle (fresh [.store 1 0 15]) ∧ lastAtPc (.store 1 0 15) (fresh [.store 1 0 15]) ∧
      (15 : Word) = reg (fresh [.store 1 0 15]) 0 + 15 ∧ (15 : Word).toInt < ((16 : Nat) : Int)) :=
  ⟨⟨idle_fresh _, lastAtPc_fresh _, by decide, by decide, by decide, by decide⟩, idle_fresh _, lastAtPc_fresh _, by decide,
    by decide⟩

/-- HaltAndUntakenBranchPassage. -/
theorem witness_HaltAndUntakenBranchPassage :
    (idle (fresh [.halt]) ∧ lastAtPc .halt (fresh [.halt])) ∧
    (idle (fresh [.bnz 8]) ∧ lastAtPc (.bnz 8) (fresh [.bnz 8]) ∧ (fresh [.bnz 8]).z = true) ∧
    (idle (setZ (fresh [.bz 8]) false) ∧ (setZ (fresh [.bz 8]) false).z = false) :=
  ⟨⟨idle_fresh _, lastAtPc_fresh _⟩, ⟨idle_fresh _, lastAtPc_fresh _, rfl⟩, idle_fresh [.bz 8], rfl⟩

end Sys2Proof.Tests
end

section
/-! PROOFS. The family 10_state.md: what a cycle writes to each piece of state, and the state after reset. A frame lemma says
once which stages leave a piece alone; a lemma for each stage that does write it says what it writes; the statement about
the cycle chains them along the seven transitions. -/

namespace Sys2Proof.Machine

open Sys2Proof.Safety

/-! ### What each transition leaves alone -/

/-- What the transition of the stage `st` leaves alone: each piece of state has its own stages that write it. -/
structure TransitionFrame (st : Stage) (s t : State) : Prop where
  regs : st ≠ .writeback → t.regs = s.regs
  completed : st ≠ .writeback → t.completed = s.completed
  stopped : st ≠ .writeback → t.stopped = s.stopped
  z : st ≠ .execute1 → t.z = s.z
  haltPending : st ∉ [Stage.memory2, .execute1, .decode] → t.haltPending = s.haltPending
  pc : st ∉ [Stage.memory2, .execute1, .fetch] → t.pc = s.pc
  d : st ∉ [Stage.memory2, .decode, .fetch] → t.latches.d = s.latches.d
  e1 : st ∉ [Stage.memory2, .execute1, .decode] → t.latches.e1 = s.latches.e1
  e2 : st ∈ [Stage.decode, .fetch] → t.latches.e2 = s.latches.e2
  m2 : st = .writeback → t.latches.m2 = s.latches.m2

theorem transition_frame {st : Stage} {s t : State} (h : transition st s = .next t) : TransitionFrame st s t := by
  cases st with
  | fetch =>
    rw [transition_fetch] at h
    split_ifs at h <;> cases h <;> constructor <;> simp
  | decode =>
    obtain ⟨u, hu, hc⟩ := transition_decode_cases s
    cases hu.symm.trans h
    rcases hc with ⟨-, rfl⟩ | ⟨-, -, rfl⟩ | ⟨_, -, -, rfl, -⟩ | ⟨_, -, -, -, -, _, rfl, -⟩ <;>
      constructor <;> simp [setStalls]
  | execute1 =>
    obtain ⟨u, hu, hc⟩ := transition_execute1_cases s
    cases hu.symm.trans h
    rcases hc with ⟨-, rfl⟩ | ⟨e, -, hl | ⟨-, -, rfl⟩⟩
    · constructor <;> simp
    · obtain ⟨l, z, hp, pc, b, rfl, -⟩ := hl.moved
      constructor <;> simp
    · constructor <;> simp
  | execute2 => rw [transition_execute2] at h; cases h; constructor <;> simp
  | memory1 => rw [transition_memory1] at h; cases h; constructor <;> simp
  | memory2 =>
    rcases transition_memory2_next h with ⟨-, rfl⟩ | ⟨m, -, hl⟩
    · constructor <;> simp
    · cases hl <;> constructor <;> simp
  | writeback =>
    obtain ⟨regs, sb, rfl, -⟩ := transition_writeback_next h
    constructor <;> simp

/-! ### What each writer writes -/

/-- What the stages from Writeback to Execute2 do to `pc`, to `halt_pending` and to the slots D and E1: Memory2 alone can
touch them, for a HALT (R215) or for a taken branch (R210, R114), and both leave bubbles in D and E1. -/
inductive ControlOfMemory2 (s t : State) : Prop where
  | kept (hpc : t.pc = s.pc) (hhp : t.haltPending = s.haltPending) (hd : t.latches.d = s.latches.d)
      (he1 : t.latches.e1 = s.latches.e1)
  | halting (hm2 : holdsHalt s.latches.m2 = true) (hpc : t.pc = s.pc) (hhp : t.haltPending = true)
      (hd : t.latches.d = none) (he1 : t.latches.e1 = none)
  | redirected (m : Latch) (hm2 : s.latches.m2 = some m) (hi : ∃ imm, m.ins = .bz imm ∨ m.ins = .bnz imm)
      (ht : m.target ≠ 0) (hpc : t.pc = m.target) (hhp : t.haltPending = false)
      (hd : t.latches.d = none) (he1 : t.latches.e1 = none)

theorem transition_memory2_control {s t : State} (h : transition .memory2 s = .next t) : ControlOfMemory2 s t := by
  rcases transition_memory2_next h with ⟨-, rfl⟩ | ⟨m, hm, hl⟩
  · exact .kept rfl rfl rfl rfl
  · cases hl with
    | moved => exact .kept rfl rfl rfl rfl
    | stored => exact .kept rfl rfl rfl rfl
    | redirected sb hi ht => exact .redirected m hm hi ht rfl rfl rfl rfl
    | halting sb hi => exact .halting (by simp [holdsHalt, hm, hi, isHaltOp]) rfl rfl rfl rfl

/-- What stands in E1 for Execute1 to run stood there before the cycle. -/
theorem ControlOfMemory2.e1_of_some {s t : State} {e : Latch} (h : ControlOfMemory2 s t) (he : t.latches.e1 = some e) :
    s.latches.e1 = some e := by
  cases h with
  | kept _ _ _ he1 => exact he1 ▸ he
  | halting _ _ _ _ he1 => simp [he1] at he
  | redirected _ _ _ _ _ _ _ he1 => simp [he1] at he

theorem transition_execute1_z {s t : State} (h : transition .execute1 s = .next t) :
    t.z = s.z ∨ ∃ e l, s.latches.e1 = some e ∧ isArithOp e.ins = true ∧ t.latches.e2 = some l ∧ l.ins = e.ins ∧
      t.z = zeroFlag l.buffer := by
  obtain ⟨u, hu, hc⟩ := transition_execute1_cases s
  cases hu.symm.trans h
  rcases hc with ⟨-, rfl⟩ | ⟨e, he, hl | ⟨-, -, rfl⟩⟩
  · exact .inl rfl
  · obtain ⟨l, z, hp, pc, b, rfl, hins, -, -, hz | ⟨ha, hz⟩, -⟩ := hl.moved
    · exact .inl hz
    · exact .inr ⟨e, l, he, ha, rfl, hins, hz⟩
  · exact .inl rfl

theorem transition_execute1_haltPending {s t : State} (h : transition .execute1 s = .next t) :
    t.haltPending = s.haltPending ∨ (t.haltPending = true ∧ holdsHalt s.latches.e1 = true) := by
  obtain ⟨u, hu, hc⟩ := transition_execute1_cases s
  cases hu.symm.trans h
  rcases hc with ⟨-, rfl⟩ | ⟨e, he, hl | ⟨-, -, rfl⟩⟩
  · exact .inl rfl
  · obtain ⟨l, z, hp, pc, b, rfl, -, -, -, -, hhp | ⟨hi, hhp⟩, -⟩ := hl.moved
    · exact .inl hhp
    · exact .inr ⟨hhp, by simp [holdsHalt, he, hi, isHaltOp]⟩
  · exact .inl rfl

theorem transition_execute1_pc {s t : State} (h : transition .execute1 s = .next t) :
    t.pc = s.pc ∨ ∃ e rs1 imm, s.latches.e1 = some e ∧ e.ins = .jump rs1 imm ∧ t.pc = e.rs1Val + imm := by
  obtain ⟨u, hu, hc⟩ := transition_execute1_cases s
  cases hu.symm.trans h
  rcases hc with ⟨-, rfl⟩ | ⟨e, he, hl | ⟨-, -, rfl⟩⟩
  · exact .inl rfl
  · obtain ⟨l, z, hp, pc, b, rfl, -, -, -, -, -, hpc | ⟨rs1, imm, hi, hpc⟩, -⟩ := hl.moved
    · exact .inl hpc
    · exact .inr ⟨e, rs1, imm, he, hi, hpc⟩
  · exact .inl rfl

theorem transition_decode_haltPending {s t : State} (h : transition .decode s = .next t) :
    t.haltPending = s.haltPending ∨ (t.haltPending = true ∧ holdsHalt s.latches.d = true) := by
  obtain ⟨u, hu, hc⟩ := transition_decode_cases s
  cases hu.symm.trans h
  rcases hc with ⟨-, rfl⟩ | ⟨-, -, rfl⟩ | ⟨_, -, -, rfl, -⟩ | ⟨d, -, hd, -, -, _, rfl, -⟩
  · exact .inl rfl
  · exact .inl rfl
  · exact .inl rfl
  · by_cases hi : d.ins = .halt
    · exact .inr ⟨if_pos hi, by simp [holdsHalt, hd, hi, isHaltOp]⟩
    · exact .inl (if_neg hi)

theorem transition_fetch_pc {s t : State} (h : transition .fetch s = .next t) : t.pc = s.pc ∨ t.pc = s.pc + 4 := by
  rw [transition_fetch] at h
  split_ifs at h
  · cases h; exact .inl rfl
  · cases h; exact .inr rfl
  · cases h; exact .inl rfl

/-! ### The cycle -/

/-- What a cycle commits is what its Writeback commits. -/
theorem cycle_commits {s t : State} (h : cycle s = .next t) :
    (∀ r, reg t r = regAfter s r) ∧ t.completed = completedAfter s ∧ t.stopped = stoppedAfter s := by
  obtain ⟨s1, s2, s3, s4, s5, s6, h1, h2, h3, h4, h5, h6, h7⟩ := cycle_eq_next.mp h
  obtain ⟨regs, sb, hs1, hregs, -⟩ := transition_writeback_next h1
  have f2 := transition_frame h2
  have f3 := transition_frame h3
  have f4 := transition_frame h4
  have f5 := transition_frame h5
  have f6 := transition_frame h6
  have f7 := transition_frame h7
  have hr : t.regs = s1.regs := by
    rw [f7.regs, f6.regs, f5.regs, f4.regs, f3.regs, f2.regs] <;> decide
  have hc : t.completed = s1.completed := by
    rw [f7.completed, f6.completed, f5.completed, f4.completed, f3.completed, f2.completed] <;> decide
  have hp : t.stopped = s1.stopped := by
    rw [f7.stopped, f6.stopped, f5.stopped, f4.stopped, f3.stopped, f2.stopped] <;> decide
  subst hs1
  exact ⟨fun r => (congrArg (·.get r) hr).trans (hregs r), hc, hp⟩

/-- A cycle from its Execute1 on: `u` is the state Execute1 works on, and all that the stages before it may have done to the
control state is Memory2's. -/
theorem cycle_from_execute1 {s t : State} (h : cycle s = .next t) :
    ∃ u v w, ControlOfMemory2 s u ∧ u.z = s.z ∧
      transition .execute1 u = .next v ∧ transition .decode v = .next w ∧ transition .fetch w = .next t := by
  obtain ⟨s1, s2, s3, s4, s5, s6, h1, h2, h3, h4, h5, h6, h7⟩ := cycle_eq_next.mp h
  have f1 := transition_frame h1
  have f2 := transition_frame h2
  have f3 := transition_frame h3
  have f4 := transition_frame h4
  have hz : s4.z = s.z := by
    rw [f4.z, f3.z, f2.z, f1.z] <;> decide
  have hpc : s4.pc = s2.pc := by
    rw [f4.pc, f3.pc] <;> decide
  have hhp : s4.haltPending = s2.haltPending := by
    rw [f4.haltPending, f3.haltPending] <;> decide
  have hd : s4.latches.d = s2.latches.d := by
    rw [f4.d, f3.d] <;> decide
  have he1 : s4.latches.e1 = s2.latches.e1 := by
    rw [f4.e1, f3.e1] <;> decide
  refine ⟨s4, s5, s6, ?_, hz, h5, h6, h7⟩
  cases transition_memory2_control h2 with
  | kept hpc2 hhp2 hd2 he12 =>
    exact .kept (hpc.trans (hpc2.trans (f1.pc (by decide)))) (hhp.trans (hhp2.trans (f1.haltPending (by decide))))
      (hd.trans (hd2.trans (f1.d (by decide)))) (he1.trans (he12.trans (f1.e1 (by decide))))
  | halting hm2 hpc2 hhp2 hd2 he12 =>
    exact .halting (f1.m2 rfl ▸ hm2) (hpc.trans (hpc2.trans (f1.pc (by decide)))) (hhp.trans hhp2) (hd.trans hd2)
      (he1.trans he12)
  | redirected m hm2 hi ht hpc2 hhp2 hd2 he12 =>
    exact .redirected m ((f1.m2 rfl).symm.trans hm2) hi ht (hpc.trans hpc2) (hhp.trans hhp2) (hd.trans hd2)
      (he1.trans he12)

/-! ### The statements about a cycle -/

/-- Settles O35: the registers after a cycle are those its Writeback leaves. -/
theorem registersWrittenByWritebackOnly : Obligations.RegistersWrittenByWritebackOnly := by
  intro s t h r
  obtain ⟨hreg, -, -⟩ := cycle_commits h
  constructor
  · intro w hw
    simp [hreg, regAfter, hw]
  · intro hw
    simp [hreg, regAfter, hw]

/-- Settles O40: Writeback counts, and a cycle keeps the store and the parameters. -/
theorem cycleCountsAndKeeps : Obligations.CycleCountsAndKeeps := by
  intro s t h
  obtain ⟨-, hcompleted, hstopped⟩ := cycle_commits h
  obtain ⟨hclock, hmax, hsize, himem⟩ := cycle_keeps h
  refine ⟨hclock, fun w hw => ?_, fun hw => ?_, himem, hsize, hmax⟩
  · simp [hcompleted, hstopped, completedAfter, stoppedAfter, hw]
  · simp [hcompleted, hstopped, completedAfter, stoppedAfter, hw]

/-- The zero test of R180 on the signed value. -/
theorem zeroFlag_eq_decide_toInt (v : Word) : zeroFlag v = decide (v.toInt = 0) := by
  have h : v.toInt = 0 ↔ v = 0 := BitVec.toInt_inj (y := (0 : Word))
  simp [zeroFlag, h, Bool.beq_eq_decide_eq]

/-- Settles O37: Execute1 alone writes the zero flag, and its record is still in E2 when the cycle ends. -/
theorem zeroFlagWrittenByArithmeticOnly : Obligations.ZeroFlagWrittenByArithmeticOnly := by
  intro s t h
  obtain ⟨u, v, w, hcontrol, hz, h5, h6, h7⟩ := cycle_from_execute1 h
  have f6 := transition_frame h6
  have f7 := transition_frame h7
  have hzt : t.z = v.z := by
    rw [f7.z, f6.z] <;> decide
  have he2 : t.latches.e2 = v.latches.e2 := by
    rw [f7.e2, f6.e2] <;> decide
  rcases transition_execute1_z h5 with hkept | ⟨e, l, he, harith, hl, hins, hset⟩
  · exact .inl (hzt.trans (hkept.trans hz))
  · exact .inr ⟨e, l, hcontrol.e1_of_some he, harith, he2.trans hl, hins,
      hzt.trans (hset.trans (zeroFlag_eq_decide_toInt _))⟩

/-- Settles O38, by what Memory2 does to the control state: behind a taken branch Execute1 and Decode find bubbles. -/
theorem haltPendingWriters : Obligations.HaltPendingWriters := by
  intro s t h
  obtain ⟨u, v, w, hcontrol, -, h5, h6, h7⟩ := cycle_from_execute1 h
  have ht : t.haltPending = w.haltPending := (transition_frame h7).haltPending (by decide)
  have hvd : v.latches.d = u.latches.d := (transition_frame h5).d (by decide)
  have h5 := transition_execute1_haltPending h5
  have h6 := transition_decode_haltPending h6
  rw [hvd] at h6
  rw [ht]
  cases hcontrol with
  | kept _ hhp hd he1 =>
    rw [hhp, he1] at h5
    rw [hd] at h6
    rcases h6 with h6 | ⟨h6, hhalt⟩
    · rcases h5 with h5 | ⟨h5, hhalt⟩
      · exact .inl (h6.trans h5)
      · exact .inr (.inl ⟨h6.trans h5, s.latches.e1, by simp, hhalt⟩)
    · exact .inr (.inl ⟨h6, s.latches.d, by simp, hhalt⟩)
  | halting hm2 _ hhp hd he1 =>
    have hv : v.haltPending = true := by simpa [hhp, he1, holdsHalt] using h5
    have hw : w.haltPending = true := by simpa [hd, hv, holdsHalt] using h6
    exact .inr (.inl ⟨hw, s.latches.m2, by simp, hm2⟩)
  | redirected m hm2 hi ht _ hhp hd he1 =>
    have hv : v.haltPending = false := by simpa [hhp, he1, holdsHalt] using h5
    have hw : w.haltPending = false := by simpa [hd, hv, holdsHalt] using h6
    exact .inr (.inr ⟨hw, m, hm2, hi, ht⟩)

/-- Settles O39, by what Memory2 does to the control state: behind a taken branch Execute1 finds a bubble, so its JUMP
writes only where Memory2 has not. -/
theorem pcWritersOnly : Obligations.PcWritersOnly := by
  intro s t h
  obtain ⟨u, v, w, hcontrol, -, h5, h6, h7⟩ := cycle_from_execute1 h
  have hw : w.pc = v.pc := (transition_frame h6).pc (by decide)
  have hfetch := transition_fetch_pc h7
  rw [hw] at hfetch
  rcases transition_execute1_pc h5 with hv | ⟨e, rs1, imm, he, hi, hv⟩
  · rw [hv] at hfetch
    cases hcontrol with
    | kept hpc => exact .inl (hpc ▸ hfetch)
    | halting _ hpc => exact .inl (hpc ▸ hfetch)
    | redirected m hm2 hi ht hpc => exact .inr (.inl ⟨m, hm2, exists_or.mp hi, ht, hpc ▸ hfetch⟩)
  · exact .inr (.inr ⟨e, rs1, imm, hcontrol.e1_of_some he, hi, hv ▸ hfetch⟩)

/-! ### The state after reset, and the bound of the counters -/

@[simp] theorem reg_resetWith (prog : List Instr) (n c : Nat) (r : Reg) : reg (State.resetWith prog n c) r = 0 := by
  simp [reg, State.resetWith]

@[simp] theorem pending_resetWith (prog : List Instr) (n c : Nat) (r : Reg) :
    pending (State.resetWith prog n c) r = 0 := by
  simp [pending, State.resetWith]

@[simp] theorem slot_resetWith (prog : List Instr) (n c : Nat) (st : Stage) :
    slot (State.resetWith prog n c) st = none := by
  cases st <;> rfl

/-- Settles O8, reading each field of the reset state. -/
theorem resetValues : Obligations.ResetValues := by
  intro prog dmemSize maxCycles s
  exact ⟨fun r => ⟨reg_resetWith .., pending_resetWith ..⟩, fun _ _ => rfl, rfl, rfl, rfl, rfl, rfl, rfl,
    slot_resetWith _ _ _, rfl, rfl, rfl, rfl, rfl, rfl⟩

theorem issuedSlots_resetWith (prog : List Instr) (n c : Nat) :
    issuedSlots (State.resetWith prog n c) = [none, none, none, none, none] := rfl

/-- The invariant holds after every load: nothing is in flight, counted or claimed. -/
theorem inv_resetWith (prog : List Instr) (n c : Nat) : Inv (State.resetWith prog n c) where
  scoreboard r := by
    simp [writersInFlight, issuedSlots_resetWith, writesReg]
  freeze := ⟨rfl, rfl, rfl, nofun⟩
  stalls := nofun
  halt := ⟨nofun, fun _ => rfl, fun _ => rfl, fun _ => rfl, fun _ => rfl, fun _ => rfl, fun _ => rfl, trivial⟩
  arith := by
    simp [arithMarked, issuedSlots_resetWith]
  store := ⟨⟨.nil, nofun⟩, nofun⟩
  counters := ⟨Nat.zero_le _, fun _ => le_rfl⟩

/-- Settles O9. -/
theorem resetMeetsInvariant : Obligations.ResetMeetsInvariant :=
  ⟨inv_resetWith, inv_resetWith _ _ _⟩

/-- Settles O45: a counter counts the slots E1 to W that hold a writer, of which there are five. -/
theorem countersAtMostFive : Obligations.CountersAtMostFive := by
  intro s r hinv
  calc pending s r = (issuedSlots s).countP (writesReg r) := hinv.scoreboard r
    _ ≤ (issuedSlots s).length := List.countP_le_length
    _ = 5 := rfl

end Sys2Proof.Machine
end

section
/-! PROOFS. The family 20_memory.md: what a load and a store do in Memory2, and what a cycle writes to the data store. -/

namespace Sys2Proof.Machine

/-! ### The addresses of the data store (R61) -/

theorem inDataStore_iff {s : State} {a : Word} :
    inDataStore s a = true ↔ 0 ≤ a.toInt ∧ a.toInt < s.dmemSize := by
  simp [inDataStore]

/-- An address of the data store is not negative, so the cell R61 means by the signed value is the one `toNat` names. -/
theorem toInt_of_inDataStore {s : State} {a : Word} (h : inDataStore s a = true) : a.toInt = a.toNat :=
  BitVec.toInt_eq_toNat_of_lt (BitVec.toInt_pos_iff.mp (inDataStore_iff.mp h).1)

/-! ### Loads and stores in Memory2 (R161 to R164) -/

theorem exec_memory2_of_load {s : State} {i : Instr} (h : s.stage = .memory2) (hi : isLoadOp i) :
    exec i s = readM2 s := by
  rcases hi with ⟨rd, rs1, imm, rfl⟩ | ⟨rd, rs1, rs2, rfl⟩
  · simp only [exec, execLoad, stages, h]
  · simp only [exec, execLdr, stages, h]

theorem exec_memory2_of_store {s : State} {i : Instr} (h : s.stage = .memory2) (hi : isStoreOp i) :
    exec i s = writeM2 s := by
  rcases hi with ⟨rs1, rs2, imm, rfl⟩ | ⟨rs1, rs2, rs3, rfl⟩
  · simp only [exec, execStore, stages, h]
  · simp only [exec, execStr, stages, h]

/-- Settles O24: the buffer gets the cell whose number is the address, read signed as R61 reads it. -/
theorem loadMemory2 : Obligations.LoadMemory2 := by
  intro s m rd rs1 rs2 imm hst hm i hi
  have hload : isLoadOp i := by
    rcases List.mem_pair.mp hi with rfl | rfl
    · exact .inl ⟨rd, rs1, imm, rfl⟩
    · exact .inr ⟨rd, rs1, rs2, rfl⟩
  rw [exec_memory2_of_load hst hload, readM2_eq hm, ← inDataStore_iff]
  constructor
  · intro ha
    rw [if_pos ha, toInt_of_inDataStore ha, Int.toNat_natCast]
  · exact fun ha => if_neg ha

/-- Settles O25: the cell written is read back, and every other cell reads as before. -/
theorem storeMemory2 : Obligations.StoreMemory2 := by
  intro s m rs1 rs2 rs3 imm hst hm hwf i hi
  have hstore : isStoreOp i := by
    rcases List.mem_pair.mp hi with rfl | rfl
    · exact .inl ⟨rs1, rs2, imm, rfl⟩
    · exact .inr ⟨rs1, rs2, rs3, rfl⟩
  rw [exec_memory2_of_store hst hstore, writeM2_eq hm, ← inDataStore_iff]
  constructor
  · intro ha
    refine ⟨writeCell s.dm m.memAddr.toNat m.rs1Val, if_pos ha, writeCell_wf hwf _ _, fun a => ?_⟩
    simp only [readCell_writeCell hwf, toInt_of_inDataStore ha, Nat.cast_inj]
  · exact fun ha => if_neg ha

/-! ### The data store in a cycle (R66, R69) -/

/-- No stage but Memory2 writes the data store. -/
theorem transition_dm {st : Stage} {s t : State} (hst : st ≠ .memory2) (h : transition st s = .next t) :
    t.dm = s.dm := by
  cases st with
  | fetch =>
    rw [transition_fetch] at h
    split_ifs at h <;> cases h <;> rfl
  | decode =>
    obtain ⟨u, hu, hc⟩ := transition_decode_cases s
    cases hu.symm.trans h
    rcases hc with ⟨-, rfl⟩ | ⟨-, -, rfl⟩ | ⟨_, -, -, rfl, -⟩ | ⟨_, -, -, -, -, _, rfl, -⟩ <;> rfl
  | execute1 =>
    obtain ⟨u, hu, hc⟩ := transition_execute1_cases s
    cases hu.symm.trans h
    rcases hc with ⟨-, rfl⟩ | ⟨e, -, hl | ⟨-, -, rfl⟩⟩
    · rfl
    · obtain ⟨l, z, hp, pc, b, rfl, -⟩ := hl.moved
      rfl
    · rfl
  | execute2 => rw [transition_execute2] at h; cases h; rfl
  | memory1 => rw [transition_memory1] at h; cases h; rfl
  | memory2 => exact absurd rfl hst
  | writeback =>
    obtain ⟨regs, sb, rfl, -⟩ := transition_writeback_next h
    rfl

/-- What Memory2 does to the data store: it leaves it, or a store has written the cell of its address. -/
inductive DataOfMemory2 (s t : State) : Prop where
  | kept (hdm : t.dm = s.dm)
  | stored (m : Latch) (hm2 : s.latches.m2 = some m) (hi : isStoreOp m.ins) (ha : inDataStore s m.memAddr = true)
      (hdm : t.dm = writeCell s.dm m.memAddr.toNat m.rs1Val)

theorem transition_memory2_data {s t : State} (h : transition .memory2 s = .next t) : DataOfMemory2 s t := by
  rcases transition_memory2_next h with ⟨-, rfl⟩ | ⟨m, hm, hl⟩
  · exact .kept rfl
  · cases hl with
    | moved => exact .kept rfl
    | stored hi ha => exact .stored m hm hi ha rfl
    | redirected => exact .kept rfl
    | halting => exact .kept rfl

/-- A cycle does to the data store what its Memory2 does: Writeback, before it, leaves M2, the data store and its size. -/
theorem cycle_data {s t : State} (h : cycle s = .next t) : DataOfMemory2 s t := by
  obtain ⟨s1, s2, s3, s4, s5, s6, h1, h2, h3, h4, h5, h6, h7⟩ := cycle_eq_next.mp h
  obtain ⟨regs, sb, rfl, -⟩ := transition_writeback_next h1
  have ht : t.dm = s2.dm := by
    rw [transition_dm (by decide) h7, transition_dm (by decide) h6, transition_dm (by decide) h5,
      transition_dm (by decide) h4, transition_dm (by decide) h3]
  cases transition_memory2_data h2 with
  | kept hdm => exact .kept (ht.trans hdm)
  | stored m hm2 hi ha hdm => exact .stored m hm2 hi ha (ht.trans hdm)

/-- Settles O36: Memory2 alone writes the data store, and its store only the cell of its address. -/
theorem dataWrittenByMemory2Only : Obligations.DataWrittenByMemory2Only := by
  intro s t hwf h a
  cases cycle_data h with
  | kept hdm => exact .inl (congrArg (readCell · a) hdm)
  | stored m hm2 hi ha hdm =>
    rw [hdm, readCell_writeCell hwf]
    by_cases haddr : a = m.memAddr.toNat
    · subst haddr
      have hsigned := toInt_of_inDataStore ha
      have hlt : (m.memAddr.toNat : Int) < s.dmemSize := hsigned ▸ (inDataStore_iff.mp ha).2
      exact .inr ⟨m, hm2, hi, hsigned.symm, Nat.cast_lt.mp hlt, if_pos rfl⟩
    · exact .inl (if_neg haddr)

end Sys2Proof.Machine
end

section
/-! PROOFS. The family 30_encoding.md: the fields of a word the encoder packs, which words decode, and which bits of a word
and which fields of a record count. -/

namespace Sys2Proof

open Sys2Proof.Machine Sys2Proof.Safety Sys2Proof.Laws

/-! ### The fields of a packed word (R81, R91) -/

section PackedFields

variable (opc : BitVec 6) (rd rs1 rs2 rs3 : Reg) (imm : Word)

@[simp] theorem rdField_packWord : rdField (packWord opc rd rs1 rs2 rs3 imm) = rd := by
  unfold rdField regField packWord
  iterate 5 rw [BitVec.extractLsb'_append_eq_of_le (by decide)]
  rw [BitVec.extractLsb'_append_eq_right]

@[simp] theorem rs1Field_packWord : rs1Field (packWord opc rd rs1 rs2 rs3 imm) = rs1 := by
  unfold rs1Field regField packWord
  iterate 4 rw [BitVec.extractLsb'_append_eq_of_le (by decide)]
  rw [BitVec.extractLsb'_append_eq_right]

@[simp] theorem rs2Field_packWord : rs2Field (packWord opc rd rs1 rs2 rs3 imm) = rs2 := by
  unfold rs2Field regField packWord
  iterate 3 rw [BitVec.extractLsb'_append_eq_of_le (by decide)]
  rw [BitVec.extractLsb'_append_eq_right]

@[simp] theorem rs3Field_packWord : rs3Field (packWord opc rd rs1 rs2 rs3 imm) = rs3 := by
  unfold rs3Field regField packWord
  iterate 2 rw [BitVec.extractLsb'_append_eq_of_le (by decide)]
  rw [BitVec.extractLsb'_append_eq_right]

@[simp] theorem immField_packWord : immField (packWord opc rd rs1 rs2 rs3 imm) = imm :=
  BitVec.extractLsb'_append_eq_right

end PackedFields

/-- Settles O1: the opcode and each field a constructor has are read back from the word the encoder packs. -/
theorem decodeOfEncode : Obligations.DecodeOfEncode := by
  intro i
  cases i <;> simp [encode64, opcodeNumber, decode64, opcField_packWord]

/-- Settles O4: each word is evaluated. -/
theorem specWordsDecode : Obligations.SpecWordsDecode :=
  ⟨rfl, rfl, rfl, rfl, rfl, rfl, rfl, rfl⟩

/-- Settles O5, row by row of R84's table. -/
theorem operandUsageTable : Obligations.OperandUsageTable := by
  intro rd rs1 rs2 rs3 imm
  refine ⟨⟨rfl, rfl, rfl⟩, ⟨rfl, rfl, rfl⟩, ⟨rfl, rfl, rfl⟩, ⟨rfl, rfl, rfl⟩, ?_, ?_, ⟨rfl, rfl, rfl⟩, ?_,
    ⟨rfl, rfl, rfl⟩⟩ <;>
    simp [sources, source1, source2, source3, dest, isArithOp]

/-! ### Which words decode (R83, R87) -/

/-- A word whose opcode field is 1 to 17 decodes to an instruction of that opcode. -/
theorem decode64_of_known {w : BitVec 64} (h1 : 1 ≤ (opcField w).toNat) (h17 : (opcField w).toNat ≤ 17) :
    ∃ i, decode64 w = .ok i ∧ opcodeNumber i = opcField w := by
  unfold decode64
  generalize hn : (opcField w).toNat = n at h1 h17
  interval_cases n <;> exact ⟨_, rfl, BitVec.eq_of_toNat_eq hn.symm⟩

/-- A word with any other opcode field is rejected. -/
theorem decode64_of_unknown {w : BitVec 64} (h : ¬ (1 ≤ (opcField w).toNat ∧ (opcField w).toNat ≤ 17)) :
    decode64 w = .error .unknownOpcode := by
  unfold decode64
  split
  case h_18 => rfl
  all_goals omega

/-- Settles O3: a rejected word has no instruction. -/
theorem decodesExactlyKnownOpcodes : Obligations.DecodesExactlyKnownOpcodes := by
  refine fun w => ⟨⟨?_, fun ⟨h1, h17⟩ => decode64_of_known h1 h17⟩, decode64_of_unknown⟩
  rintro ⟨i, hi, -⟩
  by_contra h
  exact nomatch hi.symm.trans (decode64_of_unknown h)

/-! ### The used bits of a word (R81, R84, R86) -/

/-- The bits of a used field are among the used bits. -/
theorem usedMask_and_fieldMask {op : Nat} {f : RecordField} (h : f ∈ fieldsUsed op) :
    usedMask op &&& fieldMask f = fieldMask f := by
  revert h
  unfold usedMask fieldsUsed
  split <;> cases f <;> decide

/-- Words alike in an opcode's used bits are alike in each field it uses. -/
theorem and_fieldMask_congr {op : Nat} {w v : BitVec 64} {f : RecordField}
    (h : w &&& usedMask op = v &&& usedMask op) (hf : f ∈ fieldsUsed op) : w &&& fieldMask f = v &&& fieldMask f := by
  rw [← usedMask_and_fieldMask hf, ← BitVec.and_assoc, h, BitVec.and_assoc]

/-- Words alike under a mask that covers a field hold the same in that field. -/
theorem extractLsb'_congr_of_mask {lo n : Nat} {m w v : BitVec 64} (hm : m.extractLsb' lo n = BitVec.allOnes n)
    (h : w &&& m = v &&& m) : w.extractLsb' lo n = v.extractLsb' lo n := by
  simpa [BitVec.extractLsb'_and, hm] using congrArg (BitVec.extractLsb' lo n) h

/-- Words alike in an opcode's used bits are alike in each register field it uses. -/
theorem regField_congr {op lo : Nat} {w v : BitVec 64} {f : RecordField} (h : w &&& usedMask op = v &&& usedMask op)
    (hm : (fieldMask f).extractLsb' lo 5 = BitVec.allOnes 5) (hf : f ∈ fieldsUsed op) : regField lo w = regField lo v :=
  congrArg BitVec.toFin (extractLsb'_congr_of_mask hm (and_fieldMask_congr h hf))

/-- Decoding reads the opcode and the used fields only. -/
theorem decode64_congr {w v : BitVec 64} (hopc : opcField w = opcField v)
    (h : w &&& usedMask (opcField w).toNat = v &&& usedMask (opcField w).toNat) : decode64 w = decode64 v := by
  have hrd : .rd ∈ fieldsUsed (opcField w).toNat → rdField w = rdField v := regField_congr h (by decide)
  have hrs1 : .rs1 ∈ fieldsUsed (opcField w).toNat → rs1Field w = rs1Field v := regField_congr h (by decide)
  have hrs2 : .rs2 ∈ fieldsUsed (opcField w).toNat → rs2Field w = rs2Field v := regField_congr h (by decide)
  have hrs3 : .rs3 ∈ fieldsUsed (opcField w).toNat → rs3Field w = rs3Field v := regField_congr h (by decide)
  have himm : .imm ∈ fieldsUsed (opcField w).toNat → immField w = immField v := fun hf =>
    extractLsb'_congr_of_mask (by decide) (and_fieldMask_congr h hf)
  unfold decode64
  rw [← hopc]
  generalize (opcField w).toNat = n at hrd hrs1 hrs2 hrs3 himm
  split <;> simp [fieldsUsed, hrd, hrs1, hrs2, hrs3, himm]

/-! ### The bits the encoder writes (R86, R91) -/

/-- The used bits are those of a word packed with ones in the opcode and in the used fields, and zeros elsewhere. -/
theorem usedMask_eq_packWord (op : Nat) :
    usedMask op = packWord 63
      (if .rd ∈ fieldsUsed op then 31 else 0) (if .rs1 ∈ fieldsUsed op then 31 else 0)
      (if .rs2 ∈ fieldsUsed op then 31 else 0) (if .rs3 ∈ fieldsUsed op then 31 else 0)
      (if .imm ∈ fieldsUsed op then -1 else 0) := by
  unfold usedMask fieldsUsed
  split <;> decide

theorem ofFin_and_ite (p : Prop) [Decidable p] (r : Reg) :
    BitVec.ofFin (w := 5) r &&& BitVec.ofFin (if p then 31 else 0 : Reg) = BitVec.ofFin (if p then r else 0 : Reg) := by
  split_ifs
  · exact BitVec.and_allOnes
  · exact BitVec.and_zero

/-- A packed word under a mask of whole fields is packed from the fields the mask keeps. -/
theorem packWord_and_mask (opc : BitVec 6) (rd rs1 rs2 rs3 : Reg) (imm : Word) (a b c d e : Prop)
    [Decidable a] [Decidable b] [Decidable c] [Decidable d] [Decidable e] :
    packWord opc rd rs1 rs2 rs3 imm &&&
        packWord 63 (if a then 31 else 0) (if b then 31 else 0) (if c then 31 else 0) (if d then 31 else 0)
          (if e then -1 else 0) =
      packWord opc (if a then rd else 0) (if b then rs1 else 0) (if c then rs2 else 0) (if d then rs3 else 0)
        (if e then imm else 0) := by
  have hopc : opc &&& 63 = opc := BitVec.and_allOnes
  have himm : imm &&& (if e then -1 else 0) = if e then imm else 0 := by
    split_ifs
    · exact BitVec.and_allOnes
    · exact BitVec.and_zero
  unfold packWord
  iterate 6 rw [BitVec.and_append]
  simp only [ofFin_and_ite, hopc, himm, BitVec.and_self]

/-- The encoder writes used bits only. -/
theorem encode64_and_usedMask (i : Instr) : encode64 i &&& usedMask (opcodeNumber i).toNat = encode64 i := by
  cases i <;> simp only [encode64, usedMask_eq_packWord, packWord_and_mask] <;> simp [opcodeNumber, fieldsUsed]

/-! ### The used fields of a record (R86 to R88) -/

theorem fieldOk_congr {r q : Record} {f : RecordField} (h : sameUsed r q) (hf : f ∈ fieldsUsed r.op) :
    fieldOk r f = fieldOk q f := by
  cases f with
  | imm => exact congrArg immediateOk (h.2 _ hf)
  | _ => exact congrArg registerOk (h.2 _ hf)

theorem recordFault_congr {r q : Record} (h : sameUsed r q) (index : Nat) :
    recordFault index r = recordFault index q := by
  have hchecks (f : RecordField) :
      ((fieldsUsed r.op).contains f && !fieldOk r f) = ((fieldsUsed q.op).contains f && !fieldOk q f) := by
    rw [← h.1]
    by_cases hf : f ∈ fieldsUsed r.op
    · rw [fieldOk_congr h hf]
    · simp [hf]
  simp only [recordFault, hchecks]
  rw [h.1]

theorem recordInstr_congr {r q : Record} (h : sameUsed r q) : recordInstr r = recordInstr q := by
  obtain ⟨hop, hused⟩ := h
  have hrd : .rd ∈ fieldsUsed r.op → r.rd = q.rd := hused .rd
  have hrs1 : .rs1 ∈ fieldsUsed r.op → r.rs1 = q.rs1 := hused .rs1
  have hrs2 : .rs2 ∈ fieldsUsed r.op → r.rs2 = q.rs2 := hused .rs2
  have hrs3 : .rs3 ∈ fieldsUsed r.op → r.rs3 = q.rs3 := hused .rs3
  have himm : .imm ∈ fieldsUsed r.op → r.imm = q.imm := hused .imm
  unfold recordInstr
  rw [← hop]
  generalize r.op = n at hrd hrs1 hrs2 hrs3 himm
  split <;> simp [fieldsUsed, hrd, hrs1, hrs2, hrs3, himm]

/-- Settles O2: the decoder and the checks read used fields only, and the encoder writes no other bit. -/
theorem unusedFieldsIgnored : Obligations.UnusedFieldsIgnored := by
  refine ⟨fun _ _ => decode64_congr, fun i => ?_, fun _ _ index h => ⟨recordFault_congr h index, recordInstr_congr h⟩⟩
  rw [← encode64_and_usedMask, BitVec.and_assoc, BitVec.and_not_self]
  exact BitVec.and_zero

end Sys2Proof
end

section
/-! PROOFS. The family 30_encoding.md, the fetch of a placed word: which addresses are fetchable, and the cycle of a machine
with nothing in flight. -/

namespace Sys2Proof.Machine

open Sys2Proof.Safety

/-! ### Fetchable addresses (R27, R65, R92) -/

/-- The fetchable addresses are those of the instructions of the store. -/
theorem fetchIndex_eq_some {n k : Nat} {a : Word} : fetchIndex n a = some k ↔ a.toInt = 4000 + 4 * (k : Int) ∧ k < n := by
  unfold fetchIndex
  dsimp only
  rw [Option.ite_none_right_eq_some, Option.some.injEq]
  simp only [Config.imemBase, Config.instrWidth]
  omega

/-- No address of a loadable program wraps (R92). -/
theorem toInt_instrAddress {k : Nat} (h : k ≤ Config.nMax) :
    (BitVec.ofNat 32 (Config.imemBase + Config.instrWidth * k)).toInt = 4000 + 4 * (k : Int) := by
  simp only [Config.nMax] at h
  rw [BitVec.toInt_eq_toNat_of_lt] <;> simp only [BitVec.toNat_ofNat, Config.imemBase, Config.instrWidth] <;> omega

/-! ### The driver and the cycle of an idle machine (R102, R116) -/

theorem driverCheck_of_fetchable {s : State} (hstopped : s.stopped = false) (hfetch : fetchable s s.pc = true)
    (hclock : s.clock ≠ s.maxCycles) : driverCheck s = .goOn := by
  simp [driverCheck, hstopped, hfetch, hclock]

/-- With nothing in flight and no stage bit set, a stage below Fetch changes the model's stage only. -/
theorem transition_of_idle {st : Stage} {s : State} (hst : st ≠ .fetch) (h : idle s) :
    transition st s = .next { s with stage := st } := by
  obtain ⟨regs, sb, dm, pc, z, haltPending, completed, clock, stopped, ⟨f, d, e1, e2, m1, m2, w⟩, bits, imem, dmemSize,
    maxCycles, stage⟩ := s
  obtain ⟨hd, he1, he2, hm1, hm2, hw, hbits, -⟩ := h
  dsimp only at hd he1 he2 hm1 hm2 hw hbits
  subst hd he1 he2 hm1 hm2 hw hbits
  cases st with
  | fetch => contradiction
  | _ => rfl

/-- The cycle of an idle machine is its Fetch. -/
theorem cycle_of_idle {s : State} (h : idle s) :
    cycle s = transition .fetch { s with clock := s.clock + 1, stage := .decode } := by
  have hbelow (st st' : Stage) (hst : st ≠ .fetch) : transition st { s with clock := s.clock + 1, stage := st' } =
      .next { s with clock := s.clock + 1, stage := st } :=
    transition_of_idle hst h
  rw [transition_fetch]
  exact cycle_eq_next.mpr ⟨_, _, _, _, _, _, hbelow .writeback s.stage (by decide), hbelow .memory2 _ (by decide),
    hbelow .memory1 _ (by decide), hbelow .execute2 _ (by decide), hbelow .execute1 _ (by decide),
    hbelow .decode _ (by decide), transition_fetch _⟩

/-- Where Fetch is free and finds the instruction `i`, it hands its record on to Decode and moves `pc` on (R104). -/
theorem transition_fetch_free {s : State} {i : Instr} (hbits : s.bits = StageBits.clear) (hhalt : s.haltPending = false)
    (hi : instrAtPc s = some i) :
    transition .fetch s = .next { s with
      stage := .fetch, pc := nextPc s.pc
      latches := { s.latches with f := some (fetchedLatch i s.pc), d := some (fetchedLatch i s.pc) } } := by
  have hreads : fetchReads s = some (fetchedLatch i s.pc) := by simp [fetchReads, hhalt, hi]
  have hfree : fetchHeld s = false := by simp [fetchHeld, hbits, StageBits.clear]
  simp [transition_fetch, hreads, hfree]

/-! ### A placed instruction (log 4) -/

theorem placeIndex_le (s : State) : placeIndex s ≤ s.imem.length := by
  unfold placeIndex
  cases h : fetchIndex (s.imem.length + 1) s.pc with
  | none => exact Nat.zero_le _
  | some k => exact Nat.le_of_lt_succ (fetchIndex_eq_some.mp h).2

/-- The placed instruction stands where the next fetch reads. -/
theorem instrAtPc_placeNext (i : Instr) {s : State} (h : s.imem.length ≤ Config.nMax) :
    instrAtPc (placeNext i s) = some i := by
  have hk := placeIndex_le s
  have hindex : fetchIndex (placeNext i s).imem.length (placeNext i s).pc = some (placeIndex s) := by
    refine fetchIndex_eq_some.mpr ⟨toInt_instrAddress (hk.trans h), ?_⟩
    simp only [placeNext, List.length_append, List.length_take, List.length_cons]
    omega
  have hget : (placeNext i s).imem[placeIndex s]? = some i := by
    simp [placeNext, hk]
  rw [instrAtPc, hindex, Option.bind_some, hget]

theorem fetchable_of_instrAtPc {s : State} {i : Instr} (h : instrAtPc s = some i) : fetchable s s.pc = true := by
  obtain ⟨k, hk, -⟩ := Option.bind_eq_some_iff.mp h
  simp [fetchable, hk]

theorem idle_placeNext (i : Instr) (s : State) : idle (placeNext i s) :=
  ⟨rfl, rfl, rfl, rfl, rfl, rfl, rfl, fun r => by simp [placeNext, pending], rfl, rfl⟩

theorem clock_placeNext_ne (i : Instr) {s : State} (h : 1 ≤ s.maxCycles) : (placeNext i s).clock ≠ s.maxCycles := by
  simp only [placeNext]
  split_ifs <;> omega

theorem withFetchWord_of_decodes {nbits w : Nat} {i : Instr} (h : decodeTableWord nbits w = some i) (s : State) :
    s.withFetchWord nbits w = placeNext i s := by
  simp only [State.withFetchWord, h]

/-- Settles O30: the placed instruction is found by an idle machine whose driver goes on, so the cycle is its fetch. -/
theorem placedWordIsFetched : Obligations.PlacedWordIsFetched := by
  intro s nbits w i hw hcap hlen
  rw [withFetchWord_of_decodes hw]
  have hi := instrAtPc_placeNext i hlen
  have hcheck : driverCheck (placeNext i s) = .goOn :=
    driverCheck_of_fetchable rfl (fetchable_of_instrAtPc hi) (clock_placeNext_ne i hcap)
  have hstep : step (placeNext i s) = cycle (placeNext i s) := by simp only [step, driverRound, hcheck]
  exact ⟨_, (hstep.trans (cycle_of_idle (idle_placeNext i s))).trans (transition_fetch_free rfl rfl hi), rfl, rfl, rfl⟩

end Sys2Proof.Machine
end

section
/-! PROOFS. The family 40_pipeline.md, the flow of a cycle: the parts of the invariant that hold between any two transitions,
what each transition leaves for the next one, and what the two halves of a cycle do to the slots. -/

namespace Sys2Proof.Machine

open Sys2Proof.Safety

/-! ### Slots in the order of the pipeline (R119 to R121) -/

/-- What the invariant reads of a slot: its instruction and its mark (R34). -/
def role (x : Slot) : Option (Instr × Bool) := x.map fun l => (l.ins, l.isArith)

@[simp] theorem role_eq_none {x : Slot} : role x = none ↔ x = none := Option.map_eq_none_iff

theorem claimsOn_congr {x y : Slot} (h : role y = role x) (r : Reg) : claimsOn r y = claimsOn r x := by
  have hdest (z : Slot) : z.bind (fun l => dest l.ins) = (role z).bind fun p => dest p.1 := by cases z <;> rfl
  simp only [claimsOn, hdest, h]

theorem holdsHalt_congr {x y : Slot} (h : role y = role x) : holdsHalt y = holdsHalt x := by
  have hrole (z : Slot) : holdsHalt z = (role z).any fun p => isHaltOp p.1 := by cases z <;> rfl
  simp only [hrole, h]

@[simp] theorem claimsOn_none (r : Reg) : claimsOn r none = 0 := rfl

@[simp] theorem holdsHalt_none : holdsHalt none = false := rfl

@[simp] theorem holdsHalt_some {l : Latch} : holdsHalt (some l) = true ↔ l.ins = .halt := isHaltOp_iff l.ins

@[simp] theorem countP_writesReg_cons (r : Reg) (x : Slot) (xs : List Slot) :
    (x :: xs).countP (writesReg r) = claimsOn r x + xs.countP (writesReg r) := by
  simp only [List.countP_cons, writesReg, beq_iff_eq, claimsOn]
  omega

/-- An older HALT is still seen, and nothing new is, when a record moves into the bubble before it. -/
theorem any_holdsHalt_shift {before after : List Slot} {x y : Slot} (h : role y = role x) :
    (before ++ none :: y :: after).any holdsHalt = (before ++ x :: none :: after).any holdsHalt := by
  simp [holdsHalt_congr h]

/-- A record that moves into the bubble before it keeps the bubbles behind every HALT. -/
theorem bubblesBeforeHalt_shift {before after : List Slot} {x y : Slot} (hxy : role y = role x)
    (h : bubblesBeforeHalt (before ++ x :: none :: after)) : bubblesBeforeHalt (before ++ none :: y :: after) := by
  induction before with
  | nil =>
    obtain ⟨hx, -, hafter⟩ := h
    refine ⟨fun _ => rfl, fun hany => ?_, hafter⟩
    rw [← role_eq_none, hxy, role_eq_none]
    exact hx (by simpa using hany)
  | cons z before ih => exact ⟨fun hany => h.1 (any_holdsHalt_shift hxy ▸ hany), ih h.2⟩

/-- An emptied last slot shows no HALT that was not there. -/
theorem any_holdsHalt_emptied {before : List Slot} {x : Slot} (h : (before ++ [none]).any holdsHalt = true) :
    (before ++ [x]).any holdsHalt = true := by
  simp only [List.any_append, List.any_cons, List.any_nil, holdsHalt_none, Bool.or_false] at h
  simp [h]

/-- An emptied last slot keeps the bubbles behind every HALT. -/
theorem bubblesBeforeHalt_emptied {before : List Slot} {x : Slot} (h : bubblesBeforeHalt (before ++ [x])) :
    bubblesBeforeHalt (before ++ [none]) := by
  induction before with
  | nil => exact ⟨fun _ => rfl, trivial⟩
  | cons z before ih => exact ⟨fun hany => h.1 (any_holdsHalt_emptied hany), ih h.2⟩

theorem issuedSlots_eq {s : State} {e1 e2 m1 m2 w : Slot} : issuedSlots s = [e1, e2, m1, m2, w] ↔
    s.latches.e1 = e1 ∧ s.latches.e2 = e2 ∧ s.latches.m1 = m1 ∧ s.latches.m2 = m2 ∧ s.latches.w = w := by
  simp [issuedSlots]

/-! ### What holds between any two transitions of a cycle -/

/-- The parts of the invariant that every transition keeps. -/
structure Flow (s : State) : Prop where
  scoreboard : scoreboardExact s
  freeze : freezeConsistent s
  halt : haltClean s
  arith : arithMarked s

/-- The slot that the stage moves into is a bubble, or the stage is held (R123). -/
def Ready (s : State) : Stage → Prop
  | .writeback => True
  | .memory2 => s.latches.w = none
  | .memory1 => s.latches.m2 = none
  | .execute2 => s.latches.m1 = none
  | .execute1 => s.latches.e2 = none
  | .decode => s.latches.e1 = none ∨ s.bits.dBusy = true
  | .fetch => s.latches.d = none ∨ s.bits.dBusy = true ∨ s.bits.fStalled = true

theorem Flow.of_inv {s : State} (h : Inv s) : Flow s := ⟨h.scoreboard, h.freeze, h.halt, h.arith⟩

/-- R121 for a HALT in Memory2. -/
theorem Flow.bubbles_behind_memory2 {s : State} (hs : Flow s) (h : holdsHalt s.latches.m2 = true) :
    s.latches.d = none ∧ s.latches.e1 = none ∧ s.latches.e2 = none ∧ s.latches.m1 = none := by
  obtain ⟨-, hd, he1, he2, hm1, -⟩ := hs.halt
  simp only [issuedSlots, List.any_cons, h, Bool.true_or, Bool.or_true, forall_const] at hd he1 he2 hm1
  exact ⟨hd, he1, he2, hm1⟩

/-- R183: with a bubble in Execute1 no multiply is pending. -/
theorem mulPending_of_bubble {s : State} (hs : freezeConsistent s) (he1 : s.latches.e1 = none) :
    s.bits.mulPending = false := by
  obtain ⟨-, -, -, hmul⟩ := hs
  refine Bool.eq_false_iff.mpr fun hmp => ?_
  obtain ⟨-, e, -, -, -, he, -⟩ := hmul hmp
  simp [he1] at he

theorem freezeConsistent_congr {s t : State} (hs : freezeConsistent s) (hb : t.bits = s.bits)
    (he1 : t.latches.e1 = s.latches.e1) : freezeConsistent t := by
  simpa only [freezeConsistent, hb, he1] using hs

/-- A record that moves into the bubble before it keeps what holds between transitions. -/
theorem Flow.shift {s t : State} (hs : Flow s) (before after : List Slot) {x y : Slot} (hxy : role y = role x)
    (hsl : issuedSlots s = before ++ x :: none :: after) (htl : issuedSlots t = before ++ none :: y :: after)
    (hd : t.latches.d = s.latches.d) (hsb : t.sb = s.sb) (hhp : s.haltPending = true → t.haltPending = true)
    (hfreeze : freezeConsistent t) : Flow t where
  scoreboard r := by
    have h := hs.scoreboard r
    simp only [writersInFlight, hsl, htl, List.countP_append, countP_writesReg_cons, claimsOn_none,
      claimsOn_congr hxy, pending, hsb] at h ⊢
    omega
  freeze := hfreeze
  halt := by
    obtain ⟨hpend, hbubbles⟩ := hs.halt
    rw [hsl] at hpend hbubbles
    rw [haltClean, htl, hd, any_holdsHalt_shift hxy]
    exact ⟨fun hany => hhp (hpend hany), bubblesBeforeHalt_shift (before := _ :: before) hxy hbubbles⟩
  arith := by
    have h := hs.arith
    simp only [arithMarked, hsl, htl, List.forall_mem_append, List.forall_mem_cons] at h ⊢
    obtain ⟨hbefore, hx, hnone, hafter⟩ := h
    refine ⟨hbefore, hnone, fun l hl => ?_, hafter⟩
    subst hl
    obtain ⟨k, rfl, hk⟩ := Option.map_eq_some_iff.mp hxy.symm
    obtain ⟨hins, hmark⟩ := Prod.mk.inj hk
    rw [← hins, ← hmark]
    exact hx k rfl

theorem Flow.writeback {s t : State} (hs : Flow s) (h : transition .writeback s = .next t) : Flow t := by
  obtain ⟨regs, sb, rfl, -, hle, hsb⟩ := transition_writeback_next h
  obtain ⟨hpend, hbubbles⟩ := hs.halt
  refine ⟨fun r => ?_, hs.freeze, ⟨fun hany => hpend (any_holdsHalt_emptied (before := [_, _, _, _]) hany),
    bubblesBeforeHalt_emptied (before := [_, _, _, _, _]) hbubbles⟩, ?_⟩
  · have h := hs.scoreboard r
    have hle := hle r
    have hsb := hsb r
    simp only [pending] at hsb
    simp only [writersInFlight, issuedSlots, countP_writesReg_cons, claimsOn_none, List.countP_nil, pending] at h ⊢
    omega
  · have h := hs.arith
    simp only [arithMarked, issuedSlots, List.forall_mem_cons] at h ⊢
    obtain ⟨he1, he2, hm1, hm2, -, hnil⟩ := h
    exact ⟨he1, he2, hm1, hm2, nofun, hnil⟩

/-- With the claims of the dropped slots released, what is left is the record that has gone to Writeback (R114, R215). -/
theorem Flow.squashed {s t : State} {m : Latch} (hs : Flow s) (hw : s.latches.w = none) (hm : s.latches.m2 = some m)
    (htl : issuedSlots t = [none, none, none, none, some m]) (hd : t.latches.d = none)
    (hle : ∀ r, squashedClaims s r ≤ pending s r) (hsb : ∀ r, pending t r = pending s r - squashedClaims s r)
    (hhp : m.ins = .halt → t.haltPending = true) (hfreeze : freezeConsistent t) : Flow t where
  scoreboard r := by
    have h := hs.scoreboard r
    have hle := hle r
    have hsb := hsb r
    simp only [writersInFlight, issuedSlots, hm, hw, countP_writesReg_cons, claimsOn_none, List.countP_nil] at h
    simp only [writersInFlight, htl, countP_writesReg_cons, claimsOn_none, List.countP_nil, squashedClaims] at hsb hle ⊢
    omega
  freeze := hfreeze
  halt := by
    rw [haltClean, htl, hd]
    exact ⟨by simpa using hhp, by simp [bubblesBeforeHalt]⟩
  arith := by
    have h : m.isArith = isArithOp m.ins := hs.arith s.latches.m2 (by simp [issuedSlots]) m hm
    simpa [arithMarked, htl] using h

theorem Flow.memory2 {s t : State} (hs : Flow s) (hw : s.latches.w = none) (h : transition .memory2 s = .next t) :
    Flow t := by
  rcases transition_memory2_next h with ⟨-, rfl⟩ | ⟨m, hm, hl⟩
  · exact ⟨hs.scoreboard, hs.freeze, hs.halt, hs.arith⟩
  have hsl : issuedSlots s = [s.latches.e1, s.latches.e2, s.latches.m1] ++ some m :: none :: [] := by
    simp [issuedSlots, hm, hw]
  cases hl with
  | moved v => exact hs.shift _ _ (y := some { m with buffer := v }) (Eq.refl (role (some m))) hsl rfl rfl rfl id hs.freeze
  | stored => exact hs.shift _ _ (y := some m) (Eq.refl (role (some m))) hsl rfl rfl rfl id hs.freeze
  | redirected sb hi _ hle hsb =>
    exact hs.squashed hw hm rfl rfl hle hsb (by obtain ⟨imm, h | h⟩ := hi <;> simp [h]) ⟨rfl, rfl, rfl, nofun⟩
  | halting sb hi hle hsb =>
    obtain ⟨-, he1, -⟩ := hs.bubbles_behind_memory2 (by rw [hm]; exact holdsHalt_some.mpr hi)
    exact hs.squashed hw hm rfl rfl hle hsb (fun _ => rfl) (freezeConsistent_congr hs.freeze rfl he1.symm)

theorem Flow.memory1 {s t : State} (hs : Flow s) (hm2 : s.latches.m2 = none) (h : transition .memory1 s = .next t) :
    Flow t := by
  rw [transition_memory1] at h
  cases h
  exact hs.shift [s.latches.e1, s.latches.e2] [s.latches.w] (x := s.latches.m1) rfl (by simp [issuedSlots, hm2]) rfl rfl rfl id
    hs.freeze

theorem Flow.execute2 {s t : State} (hs : Flow s) (hm1 : s.latches.m1 = none) (h : transition .execute2 s = .next t) :
    Flow t := by
  rw [transition_execute2] at h
  cases h
  exact hs.shift [s.latches.e1] [s.latches.m2, s.latches.w] (x := s.latches.e2) rfl (by simp [issuedSlots, hm1]) rfl rfl rfl id
    hs.freeze

theorem Flow.execute1 {s t : State} (hs : Flow s) (he2 : s.latches.e2 = none) (h : transition .execute1 s = .next t) :
    Flow t := by
  obtain ⟨u, hu, hc⟩ := transition_execute1_cases s
  cases hu.symm.trans h
  rcases hc with ⟨-, rfl⟩ | ⟨e, he, hl | ⟨hmul, -, rfl⟩⟩
  · exact ⟨hs.scoreboard, hs.freeze, hs.halt, hs.arith⟩
  · obtain ⟨l, z, hp, pc, b, rfl, hins, hmark, -, -, hhp, -, hb⟩ := hl.moved
    refine hs.shift [] [s.latches.m1, s.latches.m2, s.latches.w] (x := some e) (y := some l) (by simp [role, hins, hmark])
      (by simp [issuedSlots, he, he2]) rfl rfl rfl (fun hpend => ?_) ?_
    · rcases hhp with hhp | ⟨-, hhp⟩
      · exact hhp.trans hpend
      · exact hhp
    · obtain ⟨hd, hf, hst, hmp⟩ := hs.freeze
      rcases hb with ⟨rfl, hnot⟩ | ⟨-, -, rfl⟩
      · refine ⟨hd, hf, hst, fun hpend => ?_⟩
        obtain ⟨-, e', rd, rs1, rs2, he', hmul⟩ := hmp hpend
        cases he.symm.trans he'
        exact absurd ⟨rd, rs1, rs2, hmul⟩ hnot
      · exact ⟨rfl, rfl, rfl, nofun⟩
  · obtain ⟨rd, rs1, rs2, hmul⟩ := hmul
    exact ⟨hs.scoreboard, ⟨rfl, rfl, rfl, fun _ => ⟨rfl, e, rd, rs1, rs2, he, hmul⟩⟩, hs.halt, hs.arith⟩

/-- With Decode free, new stall bits keep the control bits consistent. -/
theorem freezeConsistent_stalls {s t : State} {b : Bool} (hs : freezeConsistent s) (hfree : s.bits.dBusy = false)
    (hb : t.bits = { s.bits with dStalled := b, fStalled := b }) : freezeConsistent t := by
  obtain ⟨hd, hf, -⟩ := hs
  have hmp : s.bits.mulPending = false := hd ▸ hfree
  rw [freezeConsistent, hb]
  exact ⟨hd, hf, rfl, by simp [hmp]⟩

theorem Flow.decode {s t : State} (hs : Flow s) (he1 : s.latches.e1 = none ∨ s.bits.dBusy = true)
    (h : transition .decode s = .next t) : Flow t := by
  obtain ⟨u, hu, hc⟩ := transition_decode_cases s
  cases hu.symm.trans h
  rcases hc with ⟨-, rfl⟩ | ⟨hfree, -, rfl⟩ | ⟨_, hfree, -, rfl, -⟩ | ⟨d, hfree, hd, -, -, sb, rfl, hsb⟩
  · exact ⟨hs.scoreboard, hs.freeze, hs.halt, hs.arith⟩
  · exact ⟨hs.scoreboard, freezeConsistent_stalls hs.freeze hfree rfl, hs.halt, hs.arith⟩
  · exact ⟨hs.scoreboard, freezeConsistent_stalls hs.freeze hfree rfl, hs.halt, hs.arith⟩
  have he1 : s.latches.e1 = none := he1.resolve_right (by simp [hfree])
  refine ⟨fun r => ?_, freezeConsistent_stalls hs.freeze hfree rfl, ?_, ?_⟩
  · have h := hs.scoreboard r
    simp only [writersInFlight, issuedSlots, he1, countP_writesReg_cons, claimsOn_none, Nat.zero_add] at h ⊢
    show sb.get r = _
    rw [hsb, h, Nat.add_comm]
    rfl
  · obtain ⟨-, hany, -, hbubbles⟩ := hs.halt
    have hno : [s.latches.e2, s.latches.m1, s.latches.m2, s.latches.w].any holdsHalt = false :=
      Bool.eq_false_iff.mpr fun hne => by simp [hany (by simpa [issuedSlots, he1] using hne)] at hd
    refine ⟨fun hany => ?_, fun _ => rfl, fun hany => ?_, hbubbles⟩
    · simp only [issuedSlots, List.any_cons (l := [_, _, _, _]), hno, Bool.or_false, holdsHalt_some] at hany
      exact if_pos hany
    · exact absurd (hno.symm.trans hany) Bool.false_ne_true
  · have h := hs.arith
    simp only [arithMarked, issuedSlots, List.forall_mem_cons] at h ⊢
    refine ⟨fun l hl => ?_, h.2⟩
    cases hl
    rfl

theorem Flow.fetch {s t : State} (hs : Flow s) (h : transition .fetch s = .next t) : Flow t := by
  rw [transition_fetch] at h
  by_cases hheld : fetchHeld s = true
  · rw [if_pos hheld] at h
    cases h
    exact ⟨hs.scoreboard, hs.freeze, hs.halt, hs.arith⟩
  · rw [if_neg hheld] at h
    cases h
    obtain ⟨hpend, -, hbubbles⟩ := hs.halt
    refine ⟨hs.scoreboard, hs.freeze, ⟨hpend, fun hany => ?_, hbubbles⟩, hs.arith⟩
    simp [fetchReads, hpend hany]

/-! ### The flow along a cycle -/

/-- The stage whose transition comes next in the order of R102: the one that fills the slot `st` has left. -/
def upstream : Stage → Stage
  | .writeback => .memory2
  | .memory2 => .memory1
  | .memory1 => .execute2
  | .execute2 => .execute1
  | .execute1 => .decode
  | .decode => .fetch
  | .fetch => .writeback

/-- R123: each transition leaves a bubble for the next one to fill, unless that one is held. -/
theorem ready_upstream {st : Stage} {s t : State} (h : transition st s = .next t) : Ready t (upstream st) := by
  cases st with
  | fetch => trivial
  | decode =>
    obtain ⟨u, hu, hc⟩ := transition_decode_cases s
    cases hu.symm.trans h
    rcases hc with ⟨hbusy, rfl⟩ | ⟨-, hd, rfl⟩ | ⟨_, -, -, rfl, -⟩ | ⟨_, -, -, -, -, _, rfl, -⟩
    · exact .inr (.inl hbusy)
    · exact .inl hd
    · exact .inr (.inr rfl)
    · exact .inl rfl
  | execute1 =>
    obtain ⟨u, hu, hc⟩ := transition_execute1_cases s
    cases hu.symm.trans h
    rcases hc with ⟨he1, rfl⟩ | ⟨e, -, hl | ⟨-, -, rfl⟩⟩
    · exact .inl he1
    · obtain ⟨l, z, hp, pc, b, rfl, -⟩ := hl.moved
      exact .inl rfl
    · exact .inr rfl
  | execute2 => rw [transition_execute2] at h; cases h; rfl
  | memory1 => rw [transition_memory1] at h; cases h; rfl
  | memory2 =>
    rcases transition_memory2_next h with ⟨hm2, rfl⟩ | ⟨m, -, hl⟩
    · exact hm2
    · cases hl <;> rfl
  | writeback =>
    obtain ⟨regs, sb, rfl, -⟩ := transition_writeback_next h
    rfl

theorem Flow.transition {st : Stage} {s t : State} (hs : Flow s) (hready : Ready s st)
    (h : transition st s = .next t) : Flow t := by
  cases st with
  | fetch => exact hs.fetch h
  | decode => exact hs.decode hready h
  | execute1 => exact hs.execute1 hready h
  | execute2 => exact hs.execute2 hready h
  | memory1 => exact hs.memory1 hready h
  | memory2 => exact hs.memory2 hready h
  | writeback => exact hs.writeback h

/-- Where the flow holds and the stage `st` runs next. -/
structure FlowAt (st : Stage) (s : State) : Prop extends Flow s where
  ready : Ready s st

theorem FlowAt.transition {st : Stage} {s t : State} (hs : FlowAt st s) (h : transition st s = .next t) :
    FlowAt (upstream st) t :=
  ⟨hs.toFlow.transition hs.ready h, ready_upstream h⟩

theorem Flow.atWriteback {s : State} (hs : Flow s) (n : Nat) : FlowAt .writeback { s with clock := n } :=
  ⟨⟨hs.scoreboard, hs.freeze, hs.halt, hs.arith⟩, trivial⟩

/-! ### The two halves of a cycle -/

theorem andThen_next_right (r : Result) : andThen r .next = r := by
  cases r <;> rfl

theorem andThen_assoc (r : Result) (f g : State → Result) :
    andThen (andThen r f) g = andThen r fun s => andThen (f s) g := by
  cases r <;> rfl

theorem runStages_singleton (st : Stage) (s : State) : runStages [st] s = transition st s :=
  andThen_next_right _

theorem runStages_append (before after : List Stage) (s : State) :
    runStages (before ++ after) s = andThen (runStages before s) (runStages after) := by
  induction before generalizing s with
  | nil => rfl
  | cons st before ih =>
    simp only [List.cons_append, runStages, andThen_assoc]
    exact congrArg _ (funext ih)

/-- A cycle in two halves: the stages up to Execute2, and those from Execute1 on. -/
theorem cycle_eq_halves (s : State) : cycle s =
    andThen (runStages [.writeback, .memory2, .memory1, .execute2] { s with clock := s.clock + 1 })
      (runStages [.execute1, .decode, .fetch]) :=
  runStages_append [.writeback, .memory2, .memory1, .execute2] _ _

theorem FlowAt.memoryHalf {s u : State} (hs : FlowAt .writeback s)
    (h : runStages [.writeback, .memory2, .memory1, .execute2] s = .next u) : FlowAt .execute1 u := by
  simp only [runStages, andThen_eq_next, Host.Outcome.next.injEq, exists_eq_right] at h
  obtain ⟨s1, h1, s2, h2, s3, h3, h4⟩ := h
  exact (((hs.transition h1).transition h2).transition h3).transition h4

/-- What the stages from Writeback to Execute2 do to the slots and the control bits: everything below Execute1 moves down, or
a taken branch leaves bubbles behind it. A HALT in Memory2 clears slots that are bubbles already (R121). -/
inductive MemoryHalf (s u : State) : Prop
  | moved (hw : placeOf u.latches.w = placeOf s.latches.m2) (hm2 : u.latches.m2 = s.latches.m1)
      (hm1 : u.latches.m1 = s.latches.e2) (he1 : u.latches.e1 = s.latches.e1) (hd : u.latches.d = s.latches.d)
      (hbits : u.bits = s.bits)
  | redirected (m : Latch) (hm : s.latches.m2 = some m) (hi : ∃ imm, m.ins = .bz imm ∨ m.ins = .bnz imm)
      (ht : m.target ≠ 0) (hw : u.latches.w = some m) (hm2 : u.latches.m2 = none) (hm1 : u.latches.m1 = none)
      (he1 : u.latches.e1 = none) (hd : u.latches.d = none)

theorem Flow.memoryHalf_slots {s u : State} (hs : Flow s)
    (h : runStages [.writeback, .memory2, .memory1, .execute2] s = .next u) : MemoryHalf s u := by
  simp only [runStages, andThen_eq_next, Host.Outcome.next.injEq, exists_eq_right, transition_memory1, transition_execute2,
    exists_eq_left'] at h
  obtain ⟨s1, h1, s2, h2, rfl⟩ := h
  obtain ⟨regs, sb, rfl, -⟩ := transition_writeback_next h1
  rcases transition_memory2_next h2 with ⟨hm, rfl⟩ | ⟨m, hm, hl⟩
  · exact .moved (congrArg placeOf (Eq.symm hm)) rfl rfl rfl rfl rfl
  have hplace : placeOf s.latches.m2 = some (m.ins, m.pc) := congrArg placeOf hm
  cases hl with
  | moved v => exact .moved hplace.symm rfl rfl rfl rfl rfl
  | stored => exact .moved hplace.symm rfl rfl rfl rfl rfl
  | redirected sb hi ht => exact .redirected m hm hi ht rfl rfl rfl rfl rfl
  | halting sb hi =>
    obtain ⟨hd, he1, he2, hm1⟩ := hs.bubbles_behind_memory2 ((congrArg holdsHalt hm).trans (holdsHalt_some.mpr hi))
    exact .moved hplace.symm hm1.symm he2.symm he1.symm hd.symm rfl

/-- What the stages from Execute1 to Fetch do to the slots and the stall bit. -/
inductive FrontHalf (u t : State) : Prop
  | frozen (e : Latch) (he1 : u.latches.e1 = some e) (hmul : isMulOp e.ins) (hfirst : u.bits.mulPending = false)
      (hslots : issuedSlots t = [u.latches.e1, none, u.latches.m1, u.latches.m2, u.latches.w])
      (hd : t.latches.d = u.latches.d) (hmp : t.bits.mulPending = true)
  | held (x : Slot) (hx : placeOf x = placeOf u.latches.e1)
      (hslots : issuedSlots t = [none, x, u.latches.m1, u.latches.m2, u.latches.w])
      (hd : t.latches.d = u.latches.d) (hsome : u.latches.d ≠ none) (hwait : ∃ y ∈ issuedSlots t, y ≠ none)
  | empty (x : Slot) (hx : placeOf x = placeOf u.latches.e1)
      (hslots : issuedSlots t = [none, x, u.latches.m1, u.latches.m2, u.latches.w])
      (hnone : u.latches.d = none) (hd : t.latches.d = t.latches.f) (hfree : t.bits.dStalled = false)
  | advanced (x y : Slot) (hx : placeOf x = placeOf u.latches.e1) (hy : placeOf y = placeOf u.latches.d)
      (hslots : issuedSlots t = [y, x, u.latches.m1, u.latches.m2, u.latches.w])
      (hsome : u.latches.d ≠ none) (hd : t.latches.d = t.latches.f) (hfree : t.bits.dStalled = false)

/-- Fetch leaves the slots below Decode and the control bits alone, and fills Decode unless it is held. -/
theorem transition_fetch_slots {s t : State} (h : transition .fetch s = .next t) :
    issuedSlots t = issuedSlots s ∧ t.bits = s.bits ∧ t.latches.d = if fetchHeld s then s.latches.d else t.latches.f := by
  rw [transition_fetch] at h
  by_cases hheld : fetchHeld s = true
  · rw [if_pos hheld] at h
    cases h
    exact ⟨rfl, rfl, (if_pos hheld).symm⟩
  · rw [if_neg hheld] at h
    cases h
    exact ⟨rfl, rfl, (if_neg hheld).symm⟩

/-- What Execute1 does to the slots: its record has moved to E2, or a multiply is held in its first cycle. -/
theorem transition_execute1_slots {s t : State} (he2 : s.latches.e2 = none) (h : transition .execute1 s = .next t) :
    t.latches.d = s.latches.d ∧
    ((∃ x, placeOf x = placeOf s.latches.e1 ∧
        issuedSlots t = [none, x, s.latches.m1, s.latches.m2, s.latches.w]) ∨
      ∃ e, s.latches.e1 = some e ∧ isMulOp e.ins ∧ s.bits.mulPending = false ∧ t.bits = freeze true ∧
        issuedSlots t = [s.latches.e1, none, s.latches.m1, s.latches.m2, s.latches.w]) := by
  obtain ⟨u, hu, hc⟩ := transition_execute1_cases s
  cases hu.symm.trans h
  rcases hc with ⟨he1, rfl⟩ | ⟨e, he, hl | ⟨hmul, hfirst, rfl⟩⟩
  · exact ⟨rfl, .inl ⟨none, by rw [he1], by simp [issuedSlots, he1, he2]⟩⟩
  · obtain ⟨l, z, hp, pc, b, rfl, hins, -, hpc, -⟩ := hl.moved
    exact ⟨rfl, .inl ⟨some l, by simp [placeOf, he, hins, hpc], rfl⟩⟩
  · exact ⟨rfl, .inr ⟨e, he, hmul, hfirst, rfl, by simp [issuedSlots, he2]⟩⟩

/-- An instruction that Decode holds waits for one that is in flight. -/
theorem inFlight_of_hold {s : State} (hs : scoreboardExact s) {i : Instr}
    (h : sourcesReady s i = false ∨ branchStall s i = true) : ∃ y ∈ issuedSlots s, y ≠ none := by
  rcases h with h | h
  · simp only [sourcesReady, List.all_eq_false, beq_iff_eq] at h
    obtain ⟨r, -, hr⟩ := h
    have hpos : 0 < writersInFlight s r := Nat.pos_of_ne_zero (hs r ▸ hr)
    obtain ⟨y, hy, hwrites⟩ := List.countP_pos_iff.mp hpos
    exact ⟨y, hy, by rintro rfl; simp [writesReg] at hwrites⟩
  · simp only [branchStall, Bool.and_eq_true, Bool.or_eq_true] at h
    obtain ⟨-, h | h⟩ := h
    · exact ⟨s.latches.m2, by simp [issuedSlots], by rintro hm; simp [arithIn, slot, getLatch, hm] at h⟩
    · exact ⟨s.latches.w, by simp [issuedSlots], by rintro hw; simp [arithIn, slot, getLatch, hw] at h⟩

theorem FlowAt.frontHalf_slots {u t : State} (hu : FlowAt .execute1 u)
    (h : runStages [.execute1, .decode, .fetch] u = .next t) : FrontHalf u t := by
  simp only [runStages, andThen_eq_next, Host.Outcome.next.injEq, exists_eq_right] at h
  obtain ⟨v, h5, w, h6, h7⟩ := h
  have hv := hu.transition h5
  have hw := hv.transition h6
  obtain ⟨hvd, h5⟩ := transition_execute1_slots hu.ready h5
  obtain ⟨hslots, hbits, htd⟩ := transition_fetch_slots h7
  obtain ⟨w', hw', h6'⟩ := transition_decode_cases v
  cases hw'.symm.trans h6
  rcases h5 with ⟨x, hx, hvs⟩ | ⟨e, he, hmul, hfirst, hvb, hvs⟩
  · have hmp : v.bits.mulPending = false := mulPending_of_bubble hv.freeze (issuedSlots_eq.mp hvs).1
    obtain ⟨hdb, hfb, -⟩ := hv.freeze
    rw [hmp] at hdb hfb
    rcases h6' with ⟨hbusy, -⟩ | ⟨-, hd, rfl⟩ | ⟨d, -, hd, rfl, hhold⟩ | ⟨d, -, hd, -, -, sb, rfl, -⟩
    · simp [hdb] at hbusy
    · refine .empty x hx (hslots.trans hvs) (hvd ▸ hd) (htd.trans (if_neg ?_)) (congrArg _ hbits)
      simp [fetchHeld, setStalls, hfb]
    · refine .held x hx (hslots.trans hvs) (htd.trans ((if_pos ?_).trans hvd)) (by simp [← hvd, hd]) ?_
      · simp [fetchHeld, setStalls]
      · exact hslots ▸ inFlight_of_hold hv.scoreboard hhold
    · refine .advanced x (some (readSources v d.ins d)) hx (by rw [← hvd, hd]; rfl) (hslots.trans ?_) (by simp [← hvd, hd])
        (htd.trans (if_neg ?_)) (congrArg _ hbits)
      · simp only [issuedSlots] at hvs ⊢
        rw [(List.cons.inj hvs).2]
      · simp [fetchHeld, hfb]
  · have hbusy : v.bits.dBusy = true := by rw [hvb]; rfl
    rcases h6' with ⟨-, rfl⟩ | ⟨hfree, -⟩ | ⟨_, hfree, -⟩ | ⟨_, hfree, -⟩
    · refine .frozen e he hmul hfirst (hslots.trans hvs) (htd.trans ((if_pos ?_).trans hvd)) ?_
      · simp [fetchHeld, hvb, freeze]
      · rw [hbits, hvb]; rfl
    all_goals simp [hbusy] at hfree

/-- A cycle by its halves, and the flow after it. -/
theorem Flow.cycle_slots {s t : State} (hs : Flow s) (h : cycle s = .next t) :
    Flow t ∧ ∃ u, MemoryHalf s u ∧ FrontHalf u t := by
  rw [cycle_eq_halves] at h
  obtain ⟨u, h1, h2⟩ := andThen_eq_next.mp h
  have hu := (hs.atWriteback _).memoryHalf h1
  refine ⟨?_, u, ?_, hu.frontHalf_slots h2⟩
  · simp only [runStages, andThen_eq_next, Host.Outcome.next.injEq, exists_eq_right] at h2
    obtain ⟨v, h5, w, h6, h7⟩ := h2
    exact (((hu.transition h5).transition h6).transition h7).toFlow
  · have hmoves := (hs.atWriteback (s.clock + 1)).toFlow.memoryHalf_slots h1
    cases hmoves with
    | moved hw hm2 hm1 he1 hd hbits => exact .moved hw hm2 hm1 he1 hd hbits
    | redirected m hm hi ht hw hm2 hm1 he1 hd => exact .redirected m hm hi ht hw hm2 hm1 he1 hd

end Sys2Proof.Machine
end

section
/-! PROOFS. The family 40_pipeline.md, the whole-machine rules of section 8: the invariant, and what follows from it. -/

namespace Sys2Proof.Machine

open Sys2Proof.Safety

/-! ### The invariant -/

/-- A step is nothing once the run has ended, and otherwise a cycle that the driver lets run (R116). -/
theorem step_eq_next {s t : State} (h : step s = .next t) : t = s ∨ driverCheck s = .goOn ∧ cycle s = .next t := by
  simp only [step, driverRound] at h
  cases hc : driverCheck s with
  | ended e => rw [hc] at h; exact .inl (Host.Outcome.next.inj h).symm
  | fault f => rw [hc] at h; cases h
  | goOn => rw [hc] at h; exact .inr ⟨rfl, h⟩

theorem driverCheck_goOn_stopped {s : State} (h : driverCheck s = .goOn) : s.stopped = false :=
  Bool.eq_false_iff.mpr fun hs => by simp [driverCheck, hs] at h

/-- After a cycle a stall bit has its reason (R33). -/
theorem FrontHalf.stallsExplained {u t : State} (h : FrontHalf u t) : stallsExplained t := by
  intro hst
  cases h with
  | frozen e he1 hmul hfirst hslots hd hmp => exact .inl hmp
  | held x hx hslots hd hsome hwait => exact .inr (by rwa [hd, Option.isSome_iff_ne_none])
  | empty x hx hslots hnone hd hfree => simp [hfree] at hst
  | advanced x y hx hy hslots hsome hd hfree => simp [hfree] at hst

/-- A cycle keeps the data store in its canonical form, and its cells below its size. -/
theorem cycle_dataStoreOk {s t : State} (hs : dataStoreOk s) (h : cycle s = .next t) : dataStoreOk t := by
  obtain ⟨hwf, hcells⟩ := hs
  obtain ⟨-, -, hsize, -⟩ := cycle_keeps h
  cases cycle_data h with
  | kept hdm => rw [dataStoreOk, hdm, hsize]; exact ⟨hwf, hcells⟩
  | stored m hm2 hi ha hdm =>
    rw [dataStoreOk, hdm, hsize]
    refine ⟨writeCell_wf hwf _ _, fun c hc => ?_⟩
    rcases mem_writeCell hc with hc | ⟨rfl, -⟩
    · exact hcells c hc
    · exact Nat.cast_lt.mp (toInt_of_inDataStore ha ▸ (inDataStore_iff.mp ha).2)

/-- A cycle that the driver lets run keeps the counters within their bounds: it counts itself, and commits at most once. -/
theorem cycle_countersOk {s t : State} (hs : countersOk s) (hgo : driverCheck s = .goOn) (h : cycle s = .next t) :
    countersOk t := by
  obtain ⟨hclock, hmax, -, -⟩ := cycle_keeps h
  obtain ⟨-, hcompleted, hstopped⟩ := cycle_commits h
  obtain ⟨hle, hcount⟩ := hs
  have hbelow := driverCheck_goOn_clock hgo
  have hcount := hcount (driverCheck_goOn_stopped hgo)
  refine ⟨by omega, fun hrun => ?_⟩
  rw [hstopped, stoppedAfter] at hrun
  rw [hcompleted, completedAfter, hclock]
  cases hw : s.latches.w with
  | none => exact Nat.le_succ_of_le hcount
  | some w =>
    simp only [hw] at hrun ⊢
    split_ifs at hrun ⊢
    exact Nat.succ_le_succ hcount

/-- Settles O43: each transition keeps what is in flight consistent; Decode explains the stall bits, Memory2 alone writes the
data store, and the driver's cap bounds the counters. -/
theorem stepKeepsInvariant : Obligations.StepKeepsInvariant := by
  intro s t hinv h
  rcases step_eq_next h with rfl | ⟨hgo, hcycle⟩
  · exact hinv
  obtain ⟨hflow, u, -, hfront⟩ := (Flow.of_inv hinv).cycle_slots hcycle
  exact ⟨hflow.scoreboard, hflow.freeze, hfront.stallsExplained, hflow.halt, hflow.arith,
    cycle_dataStoreOk hinv.store hcycle, cycle_countersOk hinv.counters hgo hcycle⟩

/-! ### What follows from the invariant -/

/-- Each claim of a slot below Decode is counted. -/
theorem Flow.claims_le {s : State} (hs : Flow s) (r : Reg) : squashedClaims s r + claimsOn r s.latches.w ≤ pending s r := by
  have h := hs.scoreboard r
  simp only [writersInFlight, issuedSlots, countP_writesReg_cons, List.countP_nil] at h
  simp only [squashedClaims]
  omega

theorem driverCheck_eq_fault {s : State} {f : Fault} (h : driverCheck s = .fault f) :
    f = .fetchOutOfRange s.pc s ∨ f = .liveness s.clock s ∧ s.clock = s.maxCycles := by
  unfold driverCheck at h
  split_ifs at h with hstop hend hpc hclock
  · exact .inl (Check.fault.inj h).symm
  · exact .inr ⟨(Check.fault.inj h).symm, hclock⟩

/-- Under the invariant a cycle can fault only by a load or store. -/
theorem Flow.cycle_ne_underflow {s left : State} {r : Reg} (hs : Flow s) :
    cycle s ≠ .fault (.scoreboardUnderflow r left) := by
  intro h
  have hstart := hs.atWriteback (s.clock + 1)
  rcases (cycle_stops s).2 _ h with h | ⟨s1, h1, h⟩
  · obtain ⟨q, left, -, hq⟩ := (transition_writeback_stops _).2 _ h
    exact hq ((Nat.le_add_left _ _).trans (hstart.claims_le q))
  · rcases (transition_memory2_stops s1).2 _ h with ⟨m, -, hf, -⟩ | ⟨q, left, -, q', hq⟩
    · cases hf
    · exact hq ((Nat.le_add_right _ _).trans ((hstart.transition h1).claims_le q'))

/-- Settles O44: every release of a cycle finds the claim it releases counted. -/
theorem underflowUnreachable : Obligations.UnderflowUnreachable := by
  intro s r left hinv h
  simp only [step, driverRound] at h
  cases hc : driverCheck s with
  | ended e => rw [hc] at h; cases h
  | fault f =>
    rw [hc] at h
    obtain rfl := Host.Outcome.fault.inj h
    rcases driverCheck_eq_fault hc with hf | ⟨hf, -⟩ <;> cases hf
  | goOn => rw [hc] at h; exact (Flow.of_inv hinv).cycle_ne_underflow h

@[simp] theorem placeOf_eq_none {x : Slot} : placeOf x = none ↔ x = none := Option.map_eq_none_iff

/-- With bubbles in Execute1 and Decode, what Fetch reads is all that the stages from Execute1 on move. -/
theorem FrontHalf.behind_bubbles {u t : State} (h : FrontHalf u t) (he1 : u.latches.e1 = none)
    (hd : u.latches.d = none) :
    issuedSlots t = [none, none, u.latches.m1, u.latches.m2, u.latches.w] ∧ t.latches.d = t.latches.f ∧
      t.bits.dStalled = false := by
  cases h with
  | frozen e he => simp [he1] at he
  | held x hx hslots htd hsome => exact absurd hd hsome
  | advanced x y hx hy hslots hsome => exact absurd hd hsome
  | empty x hx hslots hnone htd hfree =>
    obtain rfl : x = none := placeOf_eq_none.mp (hx.trans (placeOf_eq_none.mpr he1))
    exact ⟨hslots, htd, hfree⟩

/-- Settles O46, by what the two halves of the cycle do to the slots. -/
theorem slotsMoveInOrder : Obligations.SlotsMoveInOrder := by
  intro s t hinv h
  obtain ⟨-, u, hmem, hfront⟩ := (Flow.of_inv hinv).cycle_slots h
  cases hmem with
  | moved hw hm2 hm1 he1 hd hbits =>
    rw [← hw, ← hm2, ← hm1, ← he1, ← hd]
    cases hfront with
    | frozen e he1 hmul hfirst hslots hd hmp =>
      obtain ⟨h1, h2, h3, h4, h5⟩ := issuedSlots_eq.mp hslots
      obtain ⟨rd, rs1, rs2, hi⟩ := hmul
      exact ⟨h5 ▸ rfl, .inr ⟨h4, h3, .inl ⟨⟨e, rd, rs1, rs2, he1, hi⟩, h2, h1, hd⟩⟩⟩
    | held x hx hslots hd hsome hwait =>
      obtain ⟨h1, h2, h3, h4, h5⟩ := issuedSlots_eq.mp hslots
      exact ⟨h5 ▸ rfl, .inr ⟨h4, h3, .inr ⟨h2 ▸ hx, .inl ⟨h1, hd⟩⟩⟩⟩
    | empty x hx hslots hnone hd hfree =>
      obtain ⟨h1, h2, h3, h4, h5⟩ := issuedSlots_eq.mp hslots
      exact ⟨h5 ▸ rfl, .inr ⟨h4, h3, .inr ⟨h2 ▸ hx, .inr (.inl ⟨h1, hnone, hd⟩)⟩⟩⟩
    | advanced x y hx hy hslots hsome hd hfree =>
      obtain ⟨h1, h2, h3, h4, h5⟩ := issuedSlots_eq.mp hslots
      exact ⟨h5 ▸ rfl, .inr ⟨h4, h3, .inr ⟨h2 ▸ hx, .inr (.inr ⟨hsome, h1 ▸ hy, hd⟩)⟩⟩⟩
  | redirected m hm hi ht hw hm2 hm1 he1 hd =>
    obtain ⟨hslots, htd, -⟩ := hfront.behind_bubbles he1 hd
    obtain ⟨h1, h2, h3, h4, h5⟩ := issuedSlots_eq.mp hslots
    exact ⟨by rw [h5, hw, hm], .inl ⟨m, hm, hi, ht, h4.trans hm2, h3.trans hm1, h2, h1, htd⟩⟩

/-- Settles O47: what each transition leaves is what the next one needs; Decode's freeze is Fetch's too. -/
theorem noOverwrite : Obligations.NoOverwrite := by
  intro s t
  simp only [runStages, andThen_eq_next, Host.Outcome.next.injEq, exists_eq_right]
  refine ⟨ready_upstream, ?_, ?_, ?_, ?_, ?_⟩
  · rintro ⟨s1, -, h⟩
    exact ready_upstream h
  · rintro ⟨s1, -, s2, -, h⟩
    exact ready_upstream h
  · rintro ⟨s1, -, s2, -, s3, -, h⟩
    exact ready_upstream h
  · rintro ⟨s1, -, s2, -, s3, -, s4, -, h⟩
    exact ready_upstream h
  · rintro hinv ⟨s1, h1, s2, h2, s3, h3, s4, h4, s5, h5, h6⟩
    have hstart : FlowAt .writeback s := ⟨.of_inv hinv, trivial⟩
    have ht := (((((hstart.transition h1).transition h2).transition h3).transition h4).transition h5).transition h6
    have hbusy : t.bits.dBusy = t.bits.fBusy := ht.freeze.1.trans ht.freeze.2.1.symm
    exact hbusy ▸ ht.ready

/-! ### How long Decode can hold (R122) -/

/-- A cycle that ends stalled has begun a multiply, or it has left Execute1 empty for an instruction that Decode holds behind
one in flight; bubbles below Execute1 have then moved down. -/
theorem Flow.cycle_stalled {s t : State} (hs : Flow s) (h : cycle s = .next t) (hst : t.bits.dStalled = true) :
    (s.latches.e1 ≠ none ∧ s.bits.mulPending = false ∧ t.bits.mulPending = true) ∨
    (t.latches.e1 = none ∧ (∃ y ∈ issuedSlots t, y ≠ none) ∧
      (s.latches.e1 = none → t.latches.e2 = none) ∧ (s.latches.e2 = none → t.latches.m1 = none) ∧
      (s.latches.m1 = none → t.latches.m2 = none) ∧ (s.latches.m2 = none → t.latches.w = none)) := by
  obtain ⟨-, u, hmem, hfront⟩ := hs.cycle_slots h
  cases hmem with
  | moved hw hm2 hm1 he1 hd hbits =>
    cases hfront with
    | frozen e he hmul hfirst hslots _ hmp => exact .inl ⟨by simp [← he1, he], hbits ▸ hfirst, hmp⟩
    | held x hx hslots htd hsome hwait =>
      obtain ⟨h1, h2, h3, h4, h5⟩ := issuedSlots_eq.mp hslots
      refine .inr ⟨h1, hwait, fun he => ?_, fun he => ?_, fun hm => ?_, fun hm => ?_⟩
      · rwa [h2, ← placeOf_eq_none, hx, he1, placeOf_eq_none]
      · rwa [h3, hm1]
      · rwa [h4, hm2]
      · rwa [h5, ← placeOf_eq_none, hw, placeOf_eq_none]
    | empty x hx hslots hnone htd hfree => simp [hfree] at hst
    | advanced x y hx hy hslots hsome htd hfree => simp [hfree] at hst
  | redirected m hm hi ht hw hm2 hm1 he1 hd =>
    obtain ⟨-, -, hfree⟩ := hfront.behind_bubbles he1 hd
    simp [hfree] at hst

/-- The first `n` slots below Decode are bubbles. -/
def bubblesBelow (n : Nat) (s : State) : Prop := ∀ x ∈ (issuedSlots s).take n, x = none

theorem bubblesBelow_one {s : State} : bubblesBelow 1 s ↔ s.latches.e1 = none := by
  simp [bubblesBelow, issuedSlots]

/-- Behind a bubble in Execute1 a hold adds one bubble, and there is none once four slots are bubbles. -/
theorem Flow.bubblesBelow_succ {s t : State} {n : Nat} (hs : Flow s) (hn : bubblesBelow (n + 1) s)
    (h : cycle s = .next t) (hst : t.bits.dStalled = true) : bubblesBelow (n + 2) t ∧ n < 3 := by
  have he1 : s.latches.e1 = none := hn _ (by simp [issuedSlots])
  obtain ⟨te1, hwait, te2, tm1, tm2, tw⟩ := (hs.cycle_stalled h hst).resolve_left fun hmul => hmul.1 he1
  simp only [bubblesBelow, issuedSlots] at hn hwait ⊢
  rcases n with _ | _ | _ | n <;> simp_all

/-- Behind a bubble in Execute1 Decode holds for at most four cycles in a row. -/
theorem Flow.holds_le {s : State} {n : Nat} {ts : List State} (hs : Flow s) (hn : bubblesBelow (n + 1) s)
    (hcycles : cyclesFrom s ts) (hst : ∀ t ∈ ts, t.bits.dStalled = true) : ts.length ≤ 3 - n := by
  induction ts generalizing s n with
  | nil => exact Nat.zero_le _
  | cons t ts ih =>
    obtain ⟨h, hrest⟩ := hcycles
    obtain ⟨hst, hstrest⟩ := List.forall_mem_cons.mp hst
    obtain ⟨hn, hlt⟩ := hs.bubblesBelow_succ hn h hst
    have hle := ih (hs.cycle_slots h).1 hn hrest hstrest
    simp only [List.length_cons]
    omega

/-- Settles O48: the first of the cycles may begin a multiply; behind the bubble that it or a hold leaves in Execute1 there
are at most four more. -/
theorem decodeHoldsAtMostFive : Obligations.DecodeHoldsAtMostFive := by
  intro s ts hinv hcycles hlen
  have hs := Flow.of_inv hinv
  by_contra hall
  have hst : ∀ t ∈ ts, t.bits.dStalled = true := by simpa using hall
  obtain _ | ⟨t1, _ | ⟨t2, ts⟩⟩ := ts
  · cases hlen
  · cases hlen
  simp only [List.length_cons] at hlen
  obtain ⟨h1, h2, hrest⟩ := hcycles
  simp only [List.forall_mem_cons] at hst
  obtain ⟨st1, st2, hst⟩ := hst
  have hs1 := (hs.cycle_slots h1).1
  have hs2 := (hs1.cycle_slots h2).1
  rcases hs.cycle_stalled h1 st1 with ⟨-, -, hmp⟩ | ⟨he1, -⟩
  · rcases hs1.cycle_stalled h2 st2 with ⟨-, hfirst, -⟩ | ⟨he1, -⟩
    · simp [hmp] at hfirst
    · have hle := hs2.holds_le (bubblesBelow_one.mpr he1) hrest hst
      omega
  · have hle := hs1.holds_le (bubblesBelow_one.mpr he1) (ts := t2 :: ts) ⟨h2, hrest⟩ (List.forall_mem_cons.mpr ⟨st2, hst⟩)
    simp only [List.length_cons] at hle
    omega

end Sys2Proof.Machine
end

section
/-! PROOFS. The family 40_pipeline.md, the stages: what Fetch, Decode, Execute2, Memory1, Memory2 and Writeback do in every
state. -/

namespace Sys2Proof.Machine

open Sys2Proof.Safety

theorem setStage_of_eq {s : State} {st : Stage} (h : s.stage = st) : setStage s st = s := by
  rw [← h]
  rfl

/-! ### Fetch (R104) -/

/-- The instruction at `pc` is the one whose address `pc` holds. -/
theorem instrAtPc_eq_some {s : State} {i : Instr} :
    instrAtPc s = some i ↔ ∃ k : Nat, s.pc.toInt = 4000 + 4 * (k : Int) ∧ s.imem[k]? = some i := by
  simp only [instrAtPc, Option.bind_eq_some_iff, fetchIndex_eq_some]
  constructor
  · rintro ⟨k, ⟨hpc, -⟩, hk⟩
    exact ⟨k, hpc, hk⟩
  · rintro ⟨k, hpc, hk⟩
    exact ⟨k, ⟨hpc, (List.getElem?_eq_some_iff.mp hk).1⟩, hk⟩

/-- With no instruction at the address in `pc` there is none to fetch. -/
theorem instrAtPc_eq_none {s : State} (h : ∀ k : Nat, k < s.imem.length → s.pc.toInt ≠ 4000 + 4 * (k : Int)) :
    instrAtPc s = none := by
  refine Option.eq_none_iff_forall_ne_some.mpr fun i hi => ?_
  obtain ⟨k, hpc, hk⟩ := instrAtPc_eq_some.mp hi
  exact h k (List.getElem?_eq_some_iff.mp hk).1 hpc

/-- Fetch runs exec on the instruction at `pc`, unless a halt is pending. -/
theorem transition_fetch_eq_exec {s : State} {i : Instr} (hhalt : s.haltPending = false) (hi : instrAtPc s = some i) :
    transition .fetch s = exec i (setStage s .fetch) := by
  have hinput : stageInput (setStage s .fetch) = if s.haltPending then none else instrAtPc s := rfl
  simp only [transition, hinput, hhalt, hi, Bool.false_eq_true, if_false]

theorem fetchHeld_iff {s : State} : fetchHeld s = true ↔ s.bits.fBusy = true ∨ s.bits.fStalled = true := by
  simp [fetchHeld]

/-- Settles O11, by what Fetch reads. -/
theorem fetchTransition : Obligations.FetchTransition := by
  intro s hst
  refine ⟨fun k i hhalt hpc hk => ?_, fun hnone => ?_⟩
  · have hi := instrAtPc_eq_some.mpr ⟨k, hpc, hk⟩
    have hexec := transition_fetch_eq_exec hhalt hi
    rw [setStage_of_eq hst] at hexec
    have hreads : fetchReads s = some (fetchedLatch i s.pc) := by simp [fetchReads, hhalt, hi]
    refine ⟨hexec, ?_⟩
    rw [← hexec, transition_fetch, hreads, ← hst]
    exact congrArg _ (if_congr fetchHeld_iff rfl rfl)
  · have hreads : fetchReads s = none := by
      rcases hnone with hhalt | hpc
      · simp [fetchReads, hhalt]
      · simp [fetchReads, instrAtPc_eq_none hpc]
    rw [transition_fetch, hreads, ← hst]
    exact congrArg _ (if_congr fetchHeld_iff rfl rfl)

/-! ### Decode (R105 to R109) -/

theorem sourcesReady_iff {s : State} {i : Instr} : sourcesReady s i = true ↔ ∀ r ∈ sources i, pending s r = 0 := by
  simp [sourcesReady]

theorem isBranchOp_iff {i : Instr} : isBranchOp i = true ↔ ∃ imm, i = .bz imm ∨ i = .bnz imm := by
  cases i <;> simp [isBranchOp]

/-- R108: a branch is held behind an arithmetic instruction in Memory2 or Writeback. -/
theorem branchStall_iff {s : State} {i : Instr} : branchStall s i = true ↔
    (∃ imm, i = .bz imm ∨ i = .bnz imm) ∧
      ((∃ m, s.latches.m2 = some m ∧ m.isArith = true) ∨ (∃ w, s.latches.w = some w ∧ w.isArith = true)) := by
  simp only [branchStall, Bool.and_eq_true, Bool.or_eq_true, isBranchOp_iff, arithIn, Option.any_eq_true]
  rfl

theorem decodeInstr_eq_hold {s : State} {d : Latch} {i : Instr} (hd : s.latches.d = some d) (hfree : s.bits.dBusy = false)
    (h : sourcesReady s i = false ∨ branchStall s i = true) : decodeInstr i s = setStalls s true := by
  have hslot : slot s .decode = some d := hd
  simp only [decodeInstr, hslot, hfree, Bool.false_eq_true, if_false]
  exact if_pos (by simpa using h)

theorem decodeInstr_eq_advance {s : State} {d : Latch} {i : Instr} (hd : s.latches.d = some d)
    (hfree : s.bits.dBusy = false) (hready : sourcesReady s i = true) (hbranch : branchStall s i = false) :
    decodeInstr i s = decodeAdvance s i d := by
  have hslot : slot s .decode = some d := hd
  simp only [decodeInstr, hslot, hfree, hready, hbranch, Bool.not_true, Bool.or_false, Bool.false_eq_true, if_false]

theorem sourceValue_eq_elim (s : State) (src : Option Reg) (old : Word) : sourceValue s src old = src.elim old (reg s) := by
  cases src <;> rfl

theorem claimDest_eq (s : State) (i : Instr) :
    claimDest s i = { s with sb := (dest i).elim s.sb fun r => s.sb.set r.val (pending s r + 1) r.isLt } := by
  unfold claimDest
  cases dest i <;> rfl

theorem haltInDecode_eq (s : State) (i : Instr) :
    haltInDecode s i = { s with haltPending := if i = .halt then true else s.haltPending } := by
  simp only [haltInDecode, isHaltOp_iff]
  split_ifs <;> rfl

/-- Settles O12. -/
theorem decodeAdvances : Obligations.DecodeAdvances := by
  intro i s d hst hd hfree hready hbranch
  rw [exec_decode hst, decodeInstr_eq_advance hd hfree (sourcesReady_iff.mpr hready)
    (Bool.eq_false_iff.mpr (mt branchStall_iff.mp hbranch))]
  simp only [decodeAdvance, readSources, sourceValue_eq_elim, claimDest_eq, haltInDecode_eq]
  rfl

/-- Settles O13. -/
theorem decodeHolds : Obligations.DecodeHolds := by
  intro i s d hst hd hfree hheld
  have hwait : sourcesReady s i = false ∨ branchStall s i = true := by
    refine hheld.imp (fun ⟨r, hr, hpend⟩ => ?_) branchStall_iff.mpr
    exact Bool.eq_false_iff.mpr fun hready => hpend (sourcesReady_iff.mp hready r hr)
  rw [exec_decode hst, decodeInstr_eq_hold hd hfree hwait]
  rfl

/-- Settles O14. -/
theorem decodeFrozenAndBubble : Obligations.DecodeFrozenAndBubble := by
  intro s hst
  have hstage : { s with stage := .decode } = s := setStage_of_eq hst
  obtain ⟨t, ht, hc⟩ := transition_decode_cases s
  rw [ht]
  rcases hc with ⟨hbusy, rfl⟩ | ⟨hfree, hd, rfl⟩ | ⟨d, hfree, hd, -⟩ | ⟨d, hfree, hd, -⟩
  · exact ⟨fun _ => congrArg _ hstage, fun hfree => by simp [hbusy] at hfree⟩
  · exact ⟨fun hbusy => by simp [hfree] at hbusy, fun _ _ => by rw [hstage]; rfl⟩
  all_goals exact ⟨fun hbusy => by simp [hfree] at hbusy, fun _ hnone => by simp [hd] at hnone⟩

/-! ### Execute2, Memory1 and Memory2 (R111 to R113) -/

/-- Settles O22. -/
theorem passOnStages : Obligations.PassOnStages := by
  intro i s
  constructor
  · intro hst
    refine ⟨exec_execute2 hst i, ?_⟩
    rw [transition_execute2, ← hst]
  · intro hst
    refine ⟨exec_memory1 hst i, ?_⟩
    rw [transition_memory1, ← hst]

/-- Settles O23: these instructions have no action of their own in Memory2. -/
theorem memory2PassesOthers : Obligations.Memory2PassesOthers := by
  intro s m rd rs1 rs2 imm hst hm i hi
  have hpass : exec i s = passM2 s := by
    simp only [List.mem_cons, List.not_mem_nil, or_false] at hi
    rcases hi with rfl | rfl | rfl | rfl | rfl | rfl | rfl | rfl | rfl | rfl <;>
      simp only [exec, execAdd, execSub, execMul, execAnd, execOr, execExor, execAddl, execSubl, execMovc, execJump,
        stages, hst]
  rw [hpass, passM2_eq hm]

/-! ### Writeback (R115) -/

theorem exec_writeback_eq {s : State} {w : Latch} (hst : s.stage = .writeback) (hw : s.latches.w = some w) (i : Instr) :
    exec i s = andThen (commitDest s i w) fun s => .next (setSlot (countCommit s i) .writeback none) := by
  have hslot : slot s .writeback = some w := hw
  simp only [exec_writeback hst, writebackInstr, hslot]

theorem commitDest_eq {s : State} {i : Instr} {r : Reg} (h : dest i = some r) (w : Latch) :
    commitDest s i w = andThen (release s r) fun s => .next (setReg s r w.buffer) := by
  simp only [commitDest, h]

theorem commitDest_of_none {s : State} {i : Instr} (h : dest i = none) (w : Latch) : commitDest s i w = .next s := by
  simp only [commitDest, h]

theorem ne_halt_of_dest {i : Instr} {r : Reg} (h : dest i = some r) : i ≠ .halt := by
  rintro rfl
  cases h

/-- Settles O28. -/
theorem writebackCommits : Obligations.WritebackCommits := by
  intro s hst
  refine ⟨fun hw => ?_, fun i w hw => ?_⟩
  · rw [transition_none (st := .writeback) (by decide) hw, setStage_of_eq hst, bubble, hst]
  rw [exec_writeback_eq hst hw]
  refine ⟨fun r hr hpend => ?_, fun hnone hi => ?_, ?_, fun r hr hpend => ?_⟩
  · rw [commitDest_eq hr, release_eq_next.mpr ⟨hpend, rfl⟩, andThen_next, andThen_next, countCommit_eq,
      if_neg (ne_halt_of_dest hr), if_neg (ne_halt_of_dest hr)]
    rfl
  · rw [commitDest_of_none hnone, andThen_next, countCommit_eq, if_neg hi, if_neg hi]
    rfl
  · rintro rfl
    rw [commitDest_of_none rfl, andThen_next, countCommit_eq, if_pos rfl, if_pos rfl]
    rfl
  · rw [commitDest_eq hr, release_eq_fault.mpr ⟨hpend, rfl⟩, andThen_fault, andThen_fault]

end Sys2Proof.Machine
end

section
/-! PROOFS. The family 40_pipeline.md, the cycle and the driver: the order of a cycle, what a step and a run answer at each of
the driver's checks, and how every run ends. -/

namespace Sys2Proof.Machine

open Sys2Proof.Safety

/-! ### The order of a cycle (R102) -/

/-- Settles O31. -/
theorem cycleOrder : Obligations.CycleOrder := by
  intro s
  simp only [← runStages_singleton .fetch]
  rfl

/-! ### The driver's checks (R116, R244) -/

theorem driverCheck_of_stopped {s : State} (h : s.stopped = true) : driverCheck s = .ended .halted := by
  simp [driverCheck, h]

/-- With a drained pipeline and nothing to fetch the driver asks whether `pc` is the end of the program. -/
theorem driverCheck_of_drained {s : State} (hstop : s.stopped = false) (hdrained : drained s = true)
    (hfetch : fetchable s s.pc = false) : driverCheck s =
      if s.pc.toInt = endAddress s then .ended .endOfProgram else .fault (.fetchOutOfRange s.pc s) := by
  simp [driverCheck, hstop, hdrained, hfetch]

/-- With work left the driver asks for the cap only. -/
theorem driverCheck_of_working {s : State} (hstop : s.stopped = false)
    (h : drained s = false ∨ fetchable s s.pc = true) :
    driverCheck s = if s.clock = s.maxCycles then .fault (.liveness s.clock s) else .goOn := by
  rcases h with h | h <;> simp [driverCheck, hstop, h]

theorem step_of_ended {s : State} {e : RunEnd} (h : driverCheck s = .ended e) : step s = .next s := by
  simp only [step, driverRound, h]

theorem step_of_fault {s : State} {f : Fault} (h : driverCheck s = .fault f) : step s = .fault f := by
  simp only [step, driverRound, h]

theorem step_of_goOn {s : State} (h : driverCheck s = .goOn) : step s = cycle s := by
  simp only [step, driverRound, h]

theorem run_of_ended {s : State} {e : RunEnd} (h : driverCheck s = .ended e) : run s = some (.ended e s) := by
  simp only [run, runRounds, h]

theorem run_of_fault {s : State} {f : Fault} (h : driverCheck s = .fault f) : run s = some (.fault f) := by
  simp only [run, runRounds, h]

theorem run_of_cycle_fault {s : State} {f : Fault} (h : driverCheck s = .goOn) (hf : cycle s = .fault f) :
    run s = some (.fault f) := by
  simp only [run, runRounds, h, hf]

/-- A run goes on with the state after a cycle: the cycle takes one of the rounds that are left. -/
theorem run_of_cycle_next {s t : State} (h : driverCheck s = .goOn) (ht : cycle s = .next t) (hcap : s.clock ≤ s.maxCycles) :
    run s = run t := by
  obtain ⟨hclock, hmax, -, -⟩ := cycle_keeps ht
  have hne := driverCheck_goOn_clock h
  have hfuel : t.maxCycles - t.clock + 1 = s.maxCycles - s.clock := by omega
  simp only [run, hfuel]
  simp only [runRounds, h, ht]

/-- Settles O32, check by check. -/
theorem driverChecksInOrder : Obligations.DriverChecksInOrder := by
  intro s
  refine ⟨fun hstop => ?_, fun hstop hdrained hfetch hpc => ?_, fun hstop hdrained hfetch hpc => ?_,
    fun hstop hwork hclock => ?_, fun hstop hwork hclock => ?_⟩
  · have hc := driverCheck_of_stopped hstop
    exact ⟨step_of_ended hc, run_of_ended hc⟩
  · have hc := (driverCheck_of_drained hstop hdrained hfetch).trans (if_pos hpc)
    exact ⟨step_of_ended hc, run_of_ended hc⟩
  · have hc := (driverCheck_of_drained hstop hdrained hfetch).trans (if_neg hpc)
    exact ⟨step_of_fault hc, run_of_fault hc⟩
  · have hc := (driverCheck_of_working hstop hwork).trans (if_pos hclock)
    exact ⟨step_of_fault hc, run_of_fault hc⟩
  · have hc := (driverCheck_of_working hstop hwork).trans (if_neg hclock)
    exact ⟨step_of_goOn hc, fun f => run_of_cycle_fault hc, fun t => run_of_cycle_next hc⟩

/-- The empty store has no fetchable address. -/
theorem fetchable_resetWith_nil (dmemSize maxCycles : Nat) (a : Word) :
    fetchable (State.resetWith [] dmemSize maxCycles) a = false := by
  simp [fetchable, fetchIndex, State.resetWith]

/-- Settles O10: the end of the empty program is its first address, which is not fetchable. -/
theorem emptyProgramEndsAtOnce : Obligations.EmptyProgramEndsAtOnce := by
  intro dmemSize maxCycles
  have hpc : (State.resetWith [] dmemSize maxCycles).pc.toInt = endAddress (State.resetWith [] dmemSize maxCycles) := rfl
  exact run_of_ended ((driverCheck_of_drained rfl rfl (fetchable_resetWith_nil ..)).trans (if_pos hpc))

/-! ### How every run ends (R118) -/

/-- A fault of a cycle is never the driver's. -/
theorem cycle_ne_liveness {s left : State} {c : Nat} : cycle s ≠ .fault (.liveness c left) := by
  intro h
  rcases (cycle_stops s).2 _ h with h | ⟨s1, -, h⟩
  · obtain ⟨q, left, hf, -⟩ := (transition_writeback_stops _).2 _ h
    cases hf
  · rcases (transition_memory2_stops s1).2 _ h with ⟨m, -, hf, -⟩ | ⟨q, left, hf, -⟩ <;> cases hf

/-- Either the driver returns at `s`, or it goes on to the state after a cycle. -/
theorem returnsAt_or_goesOn (s : State) :
    (∃ o, returnsAt s o) ∨ driverCheck s = .goOn ∧ ∃ t, cycle s = .next t := by
  cases hc : driverCheck s with
  | ended e => exact .inl ⟨_, .inl ⟨e, hc, rfl⟩⟩
  | fault f => exact .inl ⟨_, .inr (.inl ⟨f, hc, rfl⟩)⟩
  | goOn =>
    cases ht : cycle s with
    | next t => exact .inr ⟨rfl, t, rfl⟩
    | fault f => exact .inl ⟨_, .inr (.inr ⟨hc, f, ht, rfl⟩)⟩
    | refused x => exact absurd ht ((cycle_stops s).1 x)

theorem run_of_returnsAt {s : State} {o : RunResult} (h : returnsAt s o) : run s = some o := by
  rcases h with ⟨e, hc, rfl⟩ | ⟨f, hc, rfl⟩ | ⟨hc, f, hf, rfl⟩
  · exact run_of_ended hc
  · exact run_of_fault hc
  · exact run_of_cycle_fault hc hf

/-- The driver returns LIVENESS at the cap only (R118). -/
theorem liveness_of_returnsAt {s left : State} {c : Nat} (h : returnsAt s (.fault (.liveness c left))) :
    c = s.maxCycles ∧ s.clock = s.maxCycles := by
  rcases h with ⟨e, -, ho⟩ | ⟨f, hc, ho⟩ | ⟨-, f, hf, ho⟩
  · cases ho
  · cases ho
    rcases driverCheck_eq_fault hc with hf | ⟨hf, hclock⟩
    · cases hf
    · cases hf
      exact ⟨hclock, hclock⟩
  · cases ho
    exact absurd hf cycle_ne_liveness

/-- Settles O33, by induction on the number of cycles that are left. -/
theorem everyRunEnds : Obligations.EveryRunEnds := by
  intro s hcap
  induction hn : s.maxCycles - s.clock using Nat.strong_induction_on generalizing s with
  | _ n ih =>
    rcases returnsAt_or_goesOn s with ⟨o, ho⟩ | ⟨hgo, t, ht⟩
    · refine ⟨[], o, run_of_returnsAt ho, trivial, Nat.zero_le _, ho, fun c left hlive => ?_⟩
      obtain ⟨hc, hclock⟩ := liveness_of_returnsAt (hlive ▸ ho)
      exact ⟨hc, by simp only [List.length_nil]; omega⟩
    · obtain ⟨hclock, hmax, -, -⟩ := cycle_keeps ht
      have hne := driverCheck_goOn_clock hgo
      obtain ⟨ts, o, hrun, hdriven, hlen, hret, hlive⟩ := ih (t.maxCycles - t.clock) (by omega) t (by omega) rfl
      refine ⟨t :: ts, o, (run_of_cycle_next hgo ht hcap).trans hrun, ⟨hgo, ht, hdriven⟩, ?_, ?_, fun c left ho => ?_⟩
      · simp only [List.length_cons]
        omega
      · simpa only [List.getLast?_cons, Option.getD_some] using hret
      · obtain ⟨hc, hlast⟩ := hlive c left ho
        exact ⟨hc.trans hmax, by simp only [List.length_cons]; omega⟩

/-! ### What a step does around exec -/

/-- Settles O29. -/
theorem stepRunsDecodedInstruction : Obligations.StepRunsDecodedInstruction := by
  refine ⟨fun s u i k hgo hrun hhalt hpc hk => ?_, fun s i k hidle hclock hpc hk => ?_, fun s st l => transition_some⟩
  · have hi := instrAtPc_eq_some.mpr ⟨k, hpc, hk⟩
    have hcycle : cycle s = andThen (runStages stagesBeforeFetch { s with clock := s.clock + 1 }) (runStages [.fetch]) :=
      runStages_append _ _ _
    rw [step_of_goOn hgo, hcycle, stagesBeforeFetch, hrun, andThen_next, runStages_singleton]
    exact transition_fetch_eq_exec hhalt hi
  · have hi : instrAtPc s = some i := instrAtPc_eq_some.mpr ⟨k, hpc, hk⟩
    obtain ⟨-, -, -, -, -, -, -, -, hhalt, hstop⟩ := id hidle
    rw [step_of_goOn (driverCheck_of_fetchable hstop (fetchable_of_instrAtPc hi) hclock.ne), cycle_of_idle hidle]
    exact transition_fetch_eq_exec hhalt hi

/-! ### A drained pipeline (R117) -/

/-- Under the invariant a drained pipeline has no stage bit set. -/
theorem bits_of_drained {s : State} (hinv : Inv s) (hd : s.latches.d = none) (he1 : s.latches.e1 = none) :
    s.bits = StageBits.clear := by
  have hmp := mulPending_of_bubble hinv.freeze he1
  obtain ⟨hbusy, hfbusy, hstalled, -⟩ := hinv.freeze
  have hst : s.bits.dStalled = false := Bool.eq_false_iff.mpr fun hst => by
    simpa [hmp, hd] using hinv.stalls hst
  cases hb : s.bits
  simp_all [StageBits.clear]

theorem drained_iff {s : State} : drained s = true ↔ s.latches.d = none ∧ s.latches.e1 = none ∧ s.latches.e2 = none ∧
    s.latches.m1 = none ∧ s.latches.m2 = none ∧ s.latches.w = none := by
  simp [drained, and_assoc]

/-- With every slot below Fetch a bubble and no stage bit set, a stage below Fetch changes the model's stage only, whatever
the rest of the state is. -/
theorem transition_of_drained {st : Stage} {s : State} (hst : st ≠ .fetch) (hdrained : drained s = true)
    (hbits : s.bits = StageBits.clear) : transition st s = .next { s with stage := st } := by
  obtain ⟨regs, sb, dm, pc, z, haltPending, completed, clock, stopped, ⟨f, d, e1, e2, m1, m2, w⟩, bits, imem, dmemSize,
    maxCycles, stage⟩ := s
  obtain ⟨hd, he1, he2, hm1, hm2, hw⟩ := drained_iff.mp hdrained
  dsimp only at hd he1 he2 hm1 hm2 hw hbits
  subst hd he1 he2 hm1 hm2 hw hbits
  cases st with
  | fetch => contradiction
  | _ => rfl

/-- The stages below Fetch, run in any order, leave a drained pipeline as it is. -/
theorem runStages_of_drained {sts : List Stage} {s : State} (hsts : .fetch ∉ sts) (hdrained : drained s = true)
    (hbits : s.bits = StageBits.clear) : ∃ st, runStages sts s = .next { s with stage := st } := by
  induction sts generalizing s with
  | nil => exact ⟨s.stage, rfl⟩
  | cons st sts ih =>
    simp only [List.mem_cons, not_or] at hsts
    obtain ⟨hst, hsts⟩ := hsts
    obtain ⟨st', h⟩ := ih (s := { s with stage := st }) hsts hdrained hbits
    exact ⟨st', by rw [runStages, transition_of_drained (Ne.symm hst) hdrained hbits, andThen_next, h]⟩

/-- Fetch with nothing to fetch and nothing in Decode empties its own slot only. -/
theorem transition_fetch_of_bubble {s : State} (hd : s.latches.d = none) (hfetch : fetchable s s.pc = false) :
    transition .fetch s = .next { s with latches := { s.latches with f := none }, stage := .fetch } := by
  have hnone : instrAtPc s = none := Option.eq_none_iff_forall_ne_some.mpr fun i hi => by
    simp [fetchable_of_instrAtPc hi] at hfetch
  have hreads : fetchReads s = none := by simp [fetchReads, hnone]
  rw [transition_fetch, hreads]
  by_cases hheld : fetchHeld s = true
  · rw [if_pos hheld]
  · simp [hheld, hd]

/-- Settles O50: under the invariant a drained pipeline has no stage bit set, so only Fetch writes its slot. -/
theorem drainedCycleChangesNothing : Obligations.DrainedCycleChangesNothing := by
  intro s hinv hdrained hfetch
  obtain ⟨hd, he1, -⟩ := drained_iff.mp hdrained
  have hbits := bits_of_drained hinv hd he1
  obtain ⟨st, h⟩ := runStages_of_drained (sts := stagesBeforeFetch) (s := { s with clock := s.clock + 1 }) (by decide)
    hdrained hbits
  rw [cycle, runStages_append, setClock, h, andThen_next, runStages_singleton]
  exact transition_fetch_of_bubble hd hfetch

end Sys2Proof.Machine
end

section
/-! PROOFS. The family 41_loads_stores.md: what the four loads and stores do in Execute1. -/

namespace Sys2Proof.Machine

/-! ### Execute1 with a record (R110) -/

theorem stages_execute1 {s : State} (h : s.stage = .execute1) (i : Instr) (atExecute1 atMemory2 : State → Result) :
    stages i atExecute1 atMemory2 s = atExecute1 s := by
  simp only [stages, h]

/-- An action on the record alone: the record moves to E2 with the action done. -/
theorem execute1_eq {s : State} {e : Latch} (he : s.latches.e1 = some e) (act : Latch → Latch) :
    execute1 act s = .next { s with latches := { s.latches with e1 := none, e2 := some (act e) } } := by
  have hslot : slot s .execute1 = some e := he
  simp only [execute1, hslot]
  rfl

/-! ### The effective address (R160) -/

/-- The sum of two words is the sum of their signed values, wrapped. -/
theorem add_eq_ofInt (a b : Word) : a + b = BitVec.ofInt 32 (a.toInt + b.toInt) := by
  rw [BitVec.ofInt_add, BitVec.ofInt_toInt, BitVec.ofInt_toInt]

/-- At Execute1 an instruction with an address action puts the sum of its two parts into `mem_addr`. -/
theorem stages_addressE1_eq {s : State} {e : Latch} (hst : s.stage = .execute1) (he : s.latches.e1 = some e) (i : Instr)
    {addr : Latch → Word} {a b : Word} (haddr : addr e = a + b) (atMemory2 : State → Result) :
    stages i (addressE1 addr) atMemory2 s = .next { s with latches := { s.latches with
      e1 := none, e2 := some { e with memAddr := BitVec.ofInt 32 (a.toInt + b.toInt) } } } := by
  rw [stages_execute1 hst, addressE1, execute1_eq he, haddr, add_eq_ofInt]

/-- Settles O15: each of the four is an address action with its own two parts. -/
theorem loadStoreExecute1 : Obligations.LoadStoreExecute1 := by
  intro s e rd rs1 rs2 rs3 imm hst he
  refine ⟨?load, ?ldr, ?store, ?str⟩
  case load => exact stages_addressE1_eq hst he (.load rd rs1 imm) (addr := rs1PlusImm imm) rfl readM2
  case ldr => exact stages_addressE1_eq hst he (.ldr rd rs1 rs2) (addr := rs1PlusRs2) rfl readM2
  case store => exact stages_addressE1_eq hst he (.store rs1 rs2 imm) (addr := rs2PlusImm imm) rfl writeM2
  case str => exact stages_addressE1_eq hst he (.str rs1 rs2 rs3) (addr := rs2PlusRs3) rfl writeM2

end Sys2Proof.Machine
end

section
/-! PROOFS. The family 42_arithmetic.md: what the arithmetic instructions do in Execute1. -/

namespace Sys2Proof.Machine

/-! ### The arithmetic action (R180) -/

/-- The arithmetic action: the record moves to E2 with its result, whose zero test goes into the flag. -/
theorem arithE1_eq {s : State} {e : Latch} (he : s.latches.e1 = some e) (result : Latch → Word) :
    arithE1 result s = .next { s with
      z := decide ((result e).toInt = 0)
      latches := { s.latches with e1 := none, e2 := some { e with buffer := result e } } } := by
  have hslot : slot s .execute1 = some e := he
  have hz : (setZ s (zeroFlag (result e))).latches.e1 = some e := he
  simp only [arithE1, hslot]
  rw [execute1_eq hz, zeroFlag_eq_decide_toInt, setZ]

/-- At Execute1 an instruction with an arithmetic action gives that action's result, by whatever name `v` it goes. -/
theorem stages_arithE1_eq {s : State} {e : Latch} (hst : s.stage = .execute1) (he : s.latches.e1 = some e) (i : Instr)
    {result : Latch → Word} {v : Word} (hv : result e = v) (atMemory2 : State → Result) :
    stages i (arithE1 result) atMemory2 s = .next { s with
      z := decide (v.toInt = 0), latches := { s.latches with e1 := none, e2 := some { e with buffer := v } } } := by
  rw [stages_execute1 hst, arithE1_eq he, hv]

/-! ### Wrapped integer results (R181 to R183, R187, R188) -/

/-- The difference of two words is the difference of their signed values, wrapped. -/
theorem sub_eq_ofInt (a b : Word) : a - b = BitVec.ofInt 32 (a.toInt - b.toInt) := by
  rw [BitVec.sub_eq_add_neg, Int.sub_eq_add_neg, BitVec.ofInt_add, BitVec.ofInt_neg, BitVec.ofInt_toInt,
    BitVec.ofInt_toInt]

/-- The product of two words is the product of their signed values, wrapped. -/
theorem mul_eq_ofInt (a b : Word) : a * b = BitVec.ofInt 32 (a.toInt * b.toInt) := by
  rw [BitVec.ofInt_mul, BitVec.ofInt_toInt, BitVec.ofInt_toInt]

/-- Settles O16: each of the four is an arithmetic action with a sum or a difference. -/
theorem addSubtractExecute1 : Obligations.AddSubtractExecute1 := by
  intro s e rd rs1 rs2 imm hst he
  refine ⟨?add, ?sub, ?addl, ?subl⟩
  case add => exact stages_arithE1_eq hst he (.add rd rs1 rs2) (add_eq_ofInt e.rs1Val e.rs2Val) passM2
  case sub => exact stages_arithE1_eq hst he (.sub rd rs1 rs2) (sub_eq_ofInt e.rs1Val e.rs2Val) passM2
  case addl => exact stages_arithE1_eq hst he (.addl rd rs1 imm) (add_eq_ofInt e.rs1Val imm) passM2
  case subl => exact stages_arithE1_eq hst he (.subl rd rs1 imm) (sub_eq_ofInt e.rs1Val imm) passM2

/-- Settles O17: each of the three is an arithmetic action with a bitwise result. -/
theorem bitwiseExecute1 : Obligations.BitwiseExecute1 := by
  intro s e rd rs1 rs2 hst he
  refine ⟨⟨aluAnd e.rs1Val e.rs2Val, ?and, fun _ _ => BitVec.getLsbD_and⟩,
    ⟨aluOr e.rs1Val e.rs2Val, ?or, fun _ _ => BitVec.getLsbD_or⟩,
    ⟨aluExor e.rs1Val e.rs2Val, ?exor, fun _ _ => BitVec.getLsbD_xor⟩⟩
  case and => exact stages_arithE1_eq hst he (.and rd rs1 rs2) rfl passM2
  case or => exact stages_arithE1_eq hst he (.or rd rs1 rs2) rfl passM2
  case exor => exact stages_arithE1_eq hst he (.exor rd rs1 rs2) rfl passM2

/-! ### The two cycles of a multiply (R183) -/

theorem multiplyE1_of_first {s : State} {e : Latch} (he : s.latches.e1 = some e) (hfirst : s.bits.mulPending = false)
    (result : Latch → Word) : multiplyE1 result s = .next (setBits s (freeze true)) := by
  have hslot : slot s .execute1 = some e := he
  simp [multiplyE1, hslot, hfirst]

theorem multiplyE1_of_second {s : State} {e : Latch} (he : s.latches.e1 = some e) (hsecond : s.bits.mulPending = true)
    (result : Latch → Word) : multiplyE1 result s = arithE1 result (setBits s (freeze false)) := by
  have hslot : slot s .execute1 = some e := he
  simp [multiplyE1, hslot, hsecond]

/-- Settles O18: the first cycle sets the freeze; the second is an arithmetic action behind a lifted freeze. -/
theorem multiplyExecute1 : Obligations.MultiplyExecute1 := by
  intro s e rd rs1 rs2 hst he
  have hexec : exec (.mul rd rs1 rs2) s = multiplyE1 (fun e => aluMul e.rs1Val e.rs2Val) s := stages_execute1 hst ..
  refine ⟨fun hfirst => ?first, fun hsecond => ?second⟩
  case first => exact hexec.trans (multiplyE1_of_first he hfirst _)
  case second =>
    have hlifted : (setBits s (freeze false)).latches.e1 = some e := he
    rw [hexec, multiplyE1_of_second he hsecond, arithE1_eq hlifted, aluMul, mul_eq_ofInt]
    rfl

/-- Settles O19: MOVC acts on its own record alone. -/
theorem moveConstantExecute1 : Obligations.MoveConstantExecute1 := by
  intro s e rd imm hst he
  have hexec : exec (.movc rd imm) s = execute1 (fun e => { e with buffer := imm }) s := stages_execute1 hst ..
  rw [hexec, execute1_eq he]

end Sys2Proof.Machine
end

section
/-! PROOFS. The family 43_control.md, the stages: what the branches, JUMP and HALT do in Execute1, Memory2 and Writeback. -/

namespace Sys2Proof.Machine

open Sys2Proof.Safety

/-! ### Execute1 of the branches, JUMP and HALT (R211 to R213, R215) -/

theorem takenIfNotZero_iff {z : Bool} : takenIfNotZero z = true ↔ z = false := by
  simp [takenIfNotZero]

/-- Settles O20: a branch acts on its own record alone, as its test of the zero flag says. -/
theorem branchExecute1 : Obligations.BranchExecute1 := by
  intro s e imm hst he out taken notTaken
  have hbz : exec (.bz imm) s = branchE1 takenIfZero (branchTarget imm) s := stages_execute1 hst ..
  have hbnz : exec (.bnz imm) s = branchE1 takenIfNotZero (branchTarget imm) s := stages_execute1 hst ..
  rw [hbz, hbnz, branchE1, branchE1, execute1_eq he, execute1_eq he, branchTarget, add_eq_ofInt]
  exact ⟨rfl, congrArg out (if_congr takenIfNotZero_iff rfl rfl)⟩

/-- JUMP in Execute1: its target goes to `pc` and into its record, which moves on. -/
theorem exec_jump_execute1 {s : State} {e : Latch} (hst : s.stage = .execute1) (he : s.latches.e1 = some e) (rs1 : Reg)
    (imm : Word) : exec (.jump rs1 imm) s = .next { s with
      pc := e.rs1Val + imm
      latches := { s.latches with e1 := none, e2 := some { e with target := e.rs1Val + imm } } } := by
  have hexec : exec (.jump rs1 imm) s = jumpE1 (rs1PlusImm imm) s := stages_execute1 hst ..
  have hslot : slot s .execute1 = some e := he
  have hredirected : (setPc s (rs1PlusImm imm e)).latches.e1 = some e := he
  simp only [hexec, jumpE1, hslot]
  exact execute1_eq hredirected _

/-- Settles O21. -/
theorem jumpExecute1 : Obligations.JumpExecute1 := by
  intro s e rs1 imm hst he a
  rw [exec_jump_execute1 hst he, add_eq_ofInt]

theorem exec_halt_execute1 {s : State} {l : Latch} (hst : s.stage = .execute1) (hl : s.latches.e1 = some l) :
    exec .halt s =
      .next { s with haltPending := true, latches := { s.latches with e1 := none, e2 := some l } } := by
  have hexec : exec .halt s = haltE1 s := stages_execute1 hst ..
  have hslot : slot s .execute1 = some l := hl
  have hpending : (setHaltPending s true).latches.e1 = some l := hl
  simp only [hexec, haltE1, hslot]
  exact execute1_eq hpending id

/-! ### Memory2 of the branches and HALT (R114, R210, R215) -/

theorem stages_memory2 {s : State} (h : s.stage = .memory2) (i : Instr) (atExecute1 atMemory2 : State → Result) :
    stages i atExecute1 atMemory2 s = atMemory2 s := by
  simp only [stages, h]

/-- The claims that a squash or a HALT releases are those of the writers in E1, E2 and M1. -/
theorem countP_writesReg_eq_squashedClaims (s : State) (r : Reg) :
    [s.latches.e1, s.latches.e2, s.latches.m1].countP (writesReg r) = squashedClaims s r := by
  simp only [countP_writesReg_cons, List.countP_nil, squashedClaims]
  omega

/-- With every dropped claim counted, clearing upstream leaves bubbles above Memory2 and the claims released. -/
theorem clearUpstream_eq {s : State} (h : ∀ r, squashedClaims s r ≤ pending s r) :
    ∃ sb : Vector Nat 32, clearUpstream s = .next { s with
        sb := sb, latches := { s.latches with d := none, e1 := none, e2 := none, m1 := none } } ∧
      ∀ r : Reg, sb.get r = pending s r - squashedClaims s r := by
  obtain ⟨t, ht⟩ := clearUpstream_answers h
  obtain ⟨-, sb, rfl, hsb⟩ := clearUpstream_eq_next ht
  exact ⟨sb, ht, hsb⟩

theorem branchM2_of_untaken {s : State} {m : Latch} (hm : s.latches.m2 = some m) (ht : m.target = 0) :
    branchM2 s = .next { s with latches := { s.latches with m2 := none, w := some m } } := by
  have hslot : slot s .memory2 = some m := hm
  simp only [branchM2, hslot]
  rw [if_neg (not_not.mpr ht), passM2_eq hm]

theorem branchM2_of_taken {s : State} {m : Latch} (hm : s.latches.m2 = some m) (ht : m.target ≠ 0)
    (hcounted : ∀ r, squashedClaims s r ≤ pending s r) :
    ∃ sb : Vector Nat 32, branchM2 s = .next { s with
        pc := m.target, sb := sb, haltPending := false, bits := StageBits.clear
        latches := { s.latches with d := none, e1 := none, e2 := none, m1 := none, m2 := none, w := some m } } ∧
      ∀ r : Reg, sb.get r = pending s r - squashedClaims s r := by
  have hslot : slot s .memory2 = some m := hm
  obtain ⟨sb, hclear, hsb⟩ := clearUpstream_eq (s := setPc s m.target) hcounted
  refine ⟨sb, ?_, hsb⟩
  simp only [branchM2, hslot]
  rw [if_pos ht, squash, hclear, andThen_next, andThen_next]
  exact passM2_eq hm

theorem haltM2_eq {s : State} {m : Latch} (hm : s.latches.m2 = some m)
    (hcounted : ∀ r, squashedClaims s r ≤ pending s r) :
    ∃ sb : Vector Nat 32, haltM2 s = .next { s with
        sb := sb, haltPending := true
        latches := { s.latches with d := none, e1 := none, e2 := none, m1 := none, m2 := none, w := some m } } ∧
      ∀ r : Reg, sb.get r = pending s r - squashedClaims s r := by
  have hslot : slot s .memory2 = some m := hm
  obtain ⟨sb, hclear, hsb⟩ := clearUpstream_eq (s := setHaltPending s true) hcounted
  refine ⟨sb, ?_, hsb⟩
  simp only [haltM2, hslot]
  rw [hclear, andThen_next]
  exact passM2_eq hm

/-- Settles O26: both branches act by their target alone. -/
theorem branchMemory2 : Obligations.BranchMemory2 := by
  intro s m imm hst hm i hi
  have hexec : exec i s = branchM2 s := by
    rcases List.mem_pair.mp hi with rfl | rfl
    · exact stages_memory2 hst ..
    · exact stages_memory2 hst ..
  simp only [hexec, countP_writesReg_eq_squashedClaims]
  exact ⟨branchM2_of_untaken hm, branchM2_of_taken hm⟩

/-- Settles O27: the commit in Writeback is that of `writebackCommits`. -/
theorem haltStages : Obligations.HaltStages := by
  intro s l
  refine ⟨exec_halt_execute1, fun hst hm => ?_, fun hst hw => ?_⟩
  · have hexec : exec .halt s = haltM2 s := stages_memory2 hst ..
    simp only [hexec, countP_writesReg_eq_squashedClaims]
    exact haltM2_eq hm
  · obtain ⟨-, hcommit⟩ := writebackCommits s hst
    obtain ⟨-, -, hhalt, -⟩ := hcommit .halt l hw
    exact hhalt rfl

end Sys2Proof.Machine
end

section
/-! PROOFS. The family 43_control.md, the cycle: what the cycle of a taken branch and the cycle in which a JUMP leaves Execute1
do. -/

namespace Sys2Proof.Machine

open Sys2Proof.Safety

/-! ### What Fetch reads and leaves (R104) -/

theorem fetchReads_of_instruction {s : State} {k : Nat} {i : Instr} (hhalt : s.haltPending = false)
    (hpc : s.pc.toInt = 4000 + 4 * (k : Int)) (hk : s.imem[k]? = some i) :
    fetchReads s = some (fetchedLatch i s.pc) := by
  have hi : instrAtPc s = some i := instrAtPc_eq_some.mpr ⟨k, hpc, hk⟩
  simp [fetchReads, hhalt, hi]

theorem fetchReads_of_no_instruction {s : State}
    (h : ∀ k : Nat, k < s.imem.length → s.pc.toInt ≠ 4000 + 4 * (k : Int)) : fetchReads s = none := by
  simp [fetchReads, instrAtPc_eq_none h]

theorem afterFetch_of_held {s : State} (h : fetchHeld s = true) :
    afterFetch s = { s with stage := .fetch, latches := { s.latches with f := fetchReads s } } :=
  if_pos h

theorem afterFetch_of_free {s : State} (h : fetchHeld s = false) : afterFetch s = { s with
    stage := .fetch, latches := { s.latches with f := fetchReads s, d := fetchReads s }
    pc := if (fetchReads s).isSome then nextPc s.pc else s.pc } :=
  if_neg (by simp [h])

/-! ### The cycle of a taken branch (R114, R210) -/

/-- The state Fetch works on behind the taken branch `m`, after the Writeback that left the registers `regs` and a squash that
left the counters `sb`. -/
def behindTakenBranch (s : State) (m : Latch) (regs : Vector Word 32) (sb : Vector Nat 32) : State :=
  { atMemory2 s regs sb with
    pc := m.target, haltPending := false, bits := StageBits.clear
    latches := { s.latches with d := none, e1 := none, e2 := none, m1 := none, m2 := none, w := some m }
    stage := .decode }

/-- Behind a taken branch the stages from Memory1 to Decode find bubbles, so what is left of the cycle is its Fetch. -/
theorem cycle_of_takenBranch {s t : State} {m : Latch} (hm : s.latches.m2 = some m)
    (hi : ∃ imm, m.ins = .bz imm ∨ m.ins = .bnz imm) (ht : m.target ≠ 0) (h : cycle s = .next t) :
    ∃ regs sb, t = afterFetch (behindTakenBranch s m regs sb) := by
  obtain ⟨regs, sb, s2, s5, s6, -, -, -, h2, h5, h6, rfl⟩ := cycle_cases h
  obtain ⟨sb', rfl⟩ : ∃ sb', s2 = { behindTakenBranch s m regs sb' with stage := .memory2 } := by
    rcases h2 with ⟨hnone, -⟩ | ⟨m', hm', hl⟩
    · simp [hm] at hnone
    cases hm.symm.trans hm'
    cases hl with
    | moved v hs hh hb => exact absurd (hb hi) ht
    | stored hstore => obtain ⟨imm, hi | hi⟩ := hi <;> simp [isStoreOp, hi] at hstore
    | redirected sb' => exact ⟨sb', rfl⟩
    | halting sb' hhalt => obtain ⟨imm, hi | hi⟩ := hi <;> simp [hi] at hhalt
  obtain rfl : s5 = { behindTakenBranch s m regs sb' with stage := .execute1 } := by
    rcases h5 with ⟨-, rfl⟩ | ⟨e, he, -⟩
    · rfl
    · cases he
  refine ⟨regs, sb', congrArg afterFetch ?_⟩
  rcases h6 with ⟨hbusy, -⟩ | ⟨-, -, rfl⟩ | ⟨d, -, hd, -⟩ | ⟨d, -, hd, -⟩
  · cases hbusy
  · rfl
  · cases hd
  · cases hd

/-- Settles O41: Fetch is free behind the squash, and `pc` holds the target. -/
theorem takenBranchCycle : Obligations.TakenBranchCycle := by
  intro s t m imm hm hi ht h
  obtain ⟨regs, sb, rfl⟩ := cycle_of_takenBranch hm ⟨imm, hi⟩ ht h
  rw [afterFetch_of_free rfl]
  refine ⟨rfl, rfl, rfl, rfl, rfl, rfl, rfl, rfl, rfl, fun k i hpc hk => ?_, fun hnone => ?_⟩
  · rw [fetchReads_of_instruction (s := behindTakenBranch s m regs sb) rfl hpc hk]
    exact ⟨rfl, rfl⟩
  · rw [fetchReads_of_no_instruction (s := behindTakenBranch s m regs sb) hnone]
    exact ⟨rfl, rfl⟩

/-! ### The cycle in which a JUMP leaves Execute1 (R213, R214) -/

/-- R183: with an instruction other than a multiply in Execute1 no multiply is pending. -/
theorem mulPending_of_not_mul {s : State} {e : Latch} (hs : freezeConsistent s) (he : s.latches.e1 = some e)
    (hnot : ¬ isMulOp e.ins) : s.bits.mulPending = false := by
  obtain ⟨-, -, -, hmul⟩ := hs
  refine Bool.eq_false_iff.mpr fun hmp => ?_
  obtain ⟨-, e', rd, rs1, rs2, he', hi⟩ := hmul hmp
  cases he.symm.trans he'
  exact hnot ⟨rd, rs1, rs2, hi⟩

/-- R121: with an instruction in Execute1 there is no HALT in Memory2. -/
theorem Flow.no_halt_in_memory2 {s : State} {e : Latch} (hs : Flow s) (he : s.latches.e1 = some e) :
    holdsHalt s.latches.m2 = false := by
  refine Bool.eq_false_iff.mpr fun hhalt => ?_
  obtain ⟨-, he1, -⟩ := hs.bubbles_behind_memory2 hhalt
  simp [he] at he1

/-- The stages from Writeback to Execute2, with no taken branch in Memory2, leave a JUMP in Execute1 for Execute1 to run, the
instruction behind it in Decode, and neither Decode nor Fetch frozen. -/
theorem Flow.memoryHalf_jump {s u : State} {e : Latch} {rs1 : Reg} {imm : Word} (hs : Flow s)
    (he : s.latches.e1 = some e) (hi : e.ins = .jump rs1 imm)
    (huntaken : ∀ m, s.latches.m2 = some m → (∃ a, m.ins = .bz a ∨ m.ins = .bnz a) → m.target = 0)
    (h : runStages [.writeback, .memory2, .memory1, .execute2] { s with clock := s.clock + 1 } = .next u) :
    u.latches.e1 = some e ∧ u.latches.d = s.latches.d ∧ u.bits.dBusy = false ∧ u.bits.fBusy = false := by
  have hstart := hs.atWriteback (s.clock + 1)
  have hu := (hstart.memoryHalf h).freeze
  cases hstart.toFlow.memoryHalf_slots h with
  | redirected m hm hbranch ht => exact absurd (huntaken m hm hbranch) ht
  | moved _ _ _ he1 hd =>
    have hue : u.latches.e1 = some e := he1.trans he
    have hmp := mulPending_of_not_mul hu hue (by simp [hi, isMulOp])
    obtain ⟨hdBusy, hfBusy, -⟩ := hu
    exact ⟨hue, hd, hdBusy.trans hmp, hfBusy.trans hmp⟩

theorem transition_execute1_of_jump {s : State} {e : Latch} {rs1 : Reg} {imm : Word} (he : s.latches.e1 = some e)
    (hi : e.ins = .jump rs1 imm) : transition .execute1 s = .next { s with
      pc := e.rs1Val + imm
      latches := { s.latches with e1 := none, e2 := some { e with target := e.rs1Val + imm } }, stage := .execute1 } := by
  have hslot : slot s .execute1 = some e := he
  have hexec : transition .execute1 s = exec (.jump rs1 imm) (setStage s .execute1) :=
    hi ▸ transition_some (by decide) hslot
  exact hexec.trans (exec_jump_execute1 (s := setStage s .execute1) rfl he rs1 imm)

/-- `readSources` reads the registers alone. -/
theorem readSources_congr {s t : State} (h : t.regs = s.regs) (i : Instr) (d : Latch) :
    readSources t i d = readSources s i d := by
  have hreg : reg t = reg s := funext fun r => congrArg (·.get r) h
  simp only [readSources, sourceValue_eq_elim, hreg]

/-- The stages from Execute1 on, with a JUMP in Execute1 and neither Decode nor Fetch frozen: Decode runs after the JUMP has
written `pc`, and Fetch after Decode, which holds Fetch exactly when it holds its own instruction. -/
theorem frontHalf_jump {u t : State} {e d : Latch} {rs1 : Reg} {imm : Word} (he : u.latches.e1 = some e)
    (hi : e.ins = .jump rs1 imm) (hd : u.latches.d = some d) (hdBusy : u.bits.dBusy = false) (hfBusy : u.bits.fBusy = false)
    (h : runStages [.execute1, .decode, .fetch] u = .next t) :
    t.latches.e2 = some { e with target := e.rs1Val + imm } ∧
    ((t.latches.d = some d ∧ t.bits.dStalled = true ∧ t.pc = e.rs1Val + imm) ∨
      (t.latches.e1 = some (readSources t d.ins d) ∧ t.bits.dStalled = false ∧
        ∀ (k : Nat) (i : Instr), (e.rs1Val + imm).toInt = 4000 + 4 * (k : Int) → t.imem[k]? = some i →
          t.haltPending = false → t.latches.d = some (fetchedLatch i (e.rs1Val + imm)))) := by
  simp only [runStages, andThen_eq_next, Host.Outcome.next.injEq, exists_eq_right] at h
  obtain ⟨v, h5, w, h6, h7⟩ := h
  cases (transition_execute1_of_jump he hi).symm.trans h5
  obtain rfl : afterFetch w = t := Host.Outcome.next.inj ((transition_fetch w).symm.trans h7)
  obtain ⟨w', hw', hc⟩ := transition_decode_cases _
  cases hw'.symm.trans h6
  rcases hc with ⟨hbusy, -⟩ | ⟨-, hnone, -⟩ | ⟨d', -, hd', rfl, -⟩ | ⟨d', -, hd', -, -, sb, rfl, -⟩
  · exact absurd (hdBusy.symm.trans hbusy) Bool.false_ne_true
  · cases hd.symm.trans hnone
  · rw [afterFetch_of_held (fetchHeld_iff.mpr (.inr rfl))]
    exact ⟨rfl, .inl ⟨hd, rfl, rfl⟩⟩
  · cases hd.symm.trans hd'
    rw [afterFetch_of_free (by simp [fetchHeld, hfBusy])]
    exact ⟨rfl, .inr ⟨congrArg some (readSources_congr (by rfl) d.ins d), rfl,
      fun k i hpc hk hhalt => fetchReads_of_instruction hhalt hpc hk⟩⟩

/-- With a JUMP in Execute1 and no HALT in Decode no halt becomes pending. -/
theorem Flow.haltPending_of_jump {s t : State} {e d : Latch} {rs1 : Reg} {imm : Word} (hs : Flow s)
    (he : s.latches.e1 = some e) (hi : e.ins = .jump rs1 imm) (hd : s.latches.d = some d) (hnot : d.ins ≠ .halt)
    (hhalt : s.haltPending = false) (h : cycle s = .next t) : t.haltPending = false := by
  rcases haltPendingWriters s t h with hkept | ⟨-, x, hx, hholds⟩ | ⟨hcleared, -⟩
  · exact hkept.trans hhalt
  · have hm2 := hs.no_halt_in_memory2 he
    simp only [List.mem_cons, List.not_mem_nil, or_false] at hx
    rcases hx with rfl | rfl | rfl
    · simp [hd, hnot] at hholds
    · simp [he, hi] at hholds
    · simp [hm2] at hholds
  · exact hcleared

/-- Settles O42, by the two halves of the cycle. -/
theorem jumpShadowSurvives : Obligations.JumpShadowSurvives := by
  intro s t e d rs1 imm hinv he hi hd huntaken h
  have hs := Flow.of_inv hinv
  obtain ⟨-, -, -, himem⟩ := cycle_keeps h
  obtain ⟨u, h1, h2⟩ := andThen_eq_next.mp ((cycle_eq_halves s).symm.trans h)
  obtain ⟨hue, hud, hdBusy, hfBusy⟩ := hs.memoryHalf_jump he hi huntaken h1
  obtain ⟨he2, hheld | ⟨he1, hfree, hreads⟩⟩ := frontHalf_jump hue hi (hud.trans hd) hdBusy hfBusy h2
  · exact ⟨he2, .inl hheld⟩
  · exact ⟨he2, .inr ⟨he1, hfree, fun k i hnot hpc hk hhalt =>
      hreads k i hpc (himem ▸ hk) (hs.haltPending_of_jump he hi hd hnot hhalt h)⟩⟩

end Sys2Proof.Machine
end

section
/-! PROOFS. The family 60_exceptions.md, the load: what the checks of a record and of a program report, and what a load of
records and a load of words answer (R242). -/

namespace Sys2Proof.Machine

open Sys2Proof.Safety

/-! ### The checks of a record -/

theorem recordFault_of_unknownOpcode {r : Record} (h : knownOpcode r.op = false) (index : Nat) :
    recordFault index r = some (.unknownOpcode index) := by
  simp [recordFault, h]

/-- With a known opcode the first used field that fails its check is reported. -/
theorem recordFault_of_field {r : Record} {earlier later : List RecordField} {f : RecordField}
    (hop : knownOpcode r.op = true) (hsplit : [.rd, .rs1, .rs2, .rs3, .imm] = earlier ++ f :: later)
    (hearlier : ∀ g ∈ earlier, g ∈ fieldsUsed r.op → fieldOk r g = true) (hused : f ∈ fieldsUsed r.op)
    (hbad : fieldOk r f = false) (index : Nat) : recordFault index r = some (fieldFault index f) := by
  have hfind : (earlier ++ f :: later).find? (fun f => (fieldsUsed r.op).contains f && !fieldOk r f) = some f :=
    List.find?_eq_some_iff_append.mpr
      ⟨by simp [hused, hbad], earlier, later, rfl, fun g hg => by simpa [imp_iff_not_or] using hearlier g hg⟩
  rw [recordFault, hop, hsplit, hfind]
  rfl

theorem fieldFault_eq (index : Nat) (f : RecordField) :
    fieldFault index f = if f = .imm then .badImmediate index else .badRegister index f := by
  cases f <;> rfl

/-! ### A load of records -/

theorem load_of_tooLong {prog : List Record} {dmemSize maxCycles : Nat} (hsize : 1 ≤ dmemSize) (hcap : 1 ≤ maxCycles)
    (hlen : Config.nMax < prog.length) : load prog dmemSize maxCycles = .fault (.programTooLarge prog.length) := by
  rw [load, if_neg (by omega), if_pos hlen]

/-- With legal parameters and a legal length a load answers by the first failing check. -/
theorem load_of_length {prog : List Record} {dmemSize maxCycles : Nat} (hsize : 1 ≤ dmemSize) (hcap : 1 ≤ maxCycles)
    (hlen : prog.length ≤ Config.nMax) : load prog dmemSize maxCycles =
      (recordsFault 0 prog).elim (.next (State.resetWith (prog.filterMap recordInstr) dmemSize maxCycles)) .fault := by
  rw [load, if_neg (by omega), if_neg (by omega)]
  cases recordsFault 0 prog <;> rfl

/-- A load with legal parameters succeeds on well-formed programs only. -/
theorem wellFormed_of_load {prog : List Record} {dmemSize maxCycles : Nat} {s : State} (hsize : 1 ≤ dmemSize)
    (hcap : 1 ≤ maxCycles) (h : load prog dmemSize maxCycles = .next s) : programWellFormed prog = true := by
  by_cases hlen : prog.length ≤ Config.nMax
  · rw [load_of_length hsize hcap hlen] at h
    cases hf : recordsFault 0 prog with
    | none => simpa [programWellFormed, hlen] using recordsFault_eq_none.mp hf
    | some f => rw [hf] at h; cases h
  · rw [load_of_tooLong hsize hcap (not_le.mp hlen)] at h
    cases h

/-- Well-formed records have instructions, each with its record's opcode, registers and immediate. -/
theorem recordInstrs_of_wellFormed {prog : List Record} (h : prog.all recordWellFormed = true) :
    ∃ is : List Instr, prog.map recordInstr = is.map some ∧
      List.Forall₂ (fun r i => recordIs r i ∧ (opcodeNumber i).toNat = r.op) prog is := by
  induction prog with
  | nil => exact ⟨[], rfl, .nil⟩
  | cons r rs ih =>
    obtain ⟨hr, hrs⟩ := (Bool.and_eq_true ..).mp h
    obtain ⟨i, hi, hrecord⟩ := recordInstr_of_wellFormed hr
    obtain ⟨is, his, hrecords⟩ := ih hrs
    exact ⟨i :: is, congrArg₂ List.cons hi his, .cons hrecord hrecords⟩

theorem filterMap_of_map_eq_map_some {α β : Type} {f : α → Option β} {xs : List α} {ys : List β}
    (h : xs.map f = ys.map some) : xs.filterMap f = ys := by
  simpa using congrArg (List.filterMap id) h

/-- Settles O6: a program whose records pass every check has one instruction for each record. -/
theorem loadSucceedsOnWellFormed : Obligations.LoadSucceedsOnWellFormed := by
  intro prog dmemSize maxCycles hsize hcap
  refine ⟨fun hwf => ?_, fun ⟨_, _, _, hload⟩ => wellFormed_of_load hsize hcap hload⟩
  obtain ⟨hlen, hall⟩ := (Bool.and_eq_true ..).mp hwf
  obtain ⟨is, hmap, hrecords⟩ := recordInstrs_of_wellFormed hall
  refine ⟨is, hmap, hrecords, ?_⟩
  rw [load_of_length hsize hcap (of_decide_eq_true hlen), recordsFault_eq_none.mpr hall,
    filterMap_of_map_eq_map_some hmap]
  rfl

/-- Behind well-formed records the first one that fails a check ends the load. -/
theorem load_of_recordFault {before after : List Record} {r : Record} {f : Fault} {dmemSize maxCycles : Nat}
    (hsize : 1 ≤ dmemSize) (hcap : 1 ≤ maxCycles) (hlen : (before ++ r :: after).length ≤ Config.nMax)
    (hbefore : before.all recordWellFormed = true) (hf : recordFault before.length r = some f) :
    load (before ++ r :: after) dmemSize maxCycles = .fault f := by
  have hfirst : recordsFault 0 (before ++ r :: after) = some f := by
    rw [recordsFault_append hbefore, Nat.zero_add]
    simp only [recordsFault, hf]
  rw [load_of_length hsize hcap hlen, hfirst, Option.elim_some]

/-- Settles O7: the records before the failing one pass, and of its own checks the first that fails is found. -/
theorem loadReportsFirstFailure : Obligations.LoadReportsFirstFailure := by
  intro dmemSize maxCycles hsize hcap
  refine ⟨fun prog => load_of_tooLong hsize hcap, fun before after r hlen hbefore => ⟨fun hop => ?_, ?_⟩⟩
  · exact load_of_recordFault hsize hcap hlen hbefore (recordFault_of_unknownOpcode hop _)
  · intro hop earlier later f hsplit hearlier hused hbad
    rw [← fieldFault_eq]
    exact load_of_recordFault hsize hcap hlen hbefore (recordFault_of_field hop hsplit hearlier hused hbad _)

/-! ### A load of words -/

theorem loadWords_of_tooLong {prog : List (BitVec 64)} {dmemSize maxCycles : Nat} (hsize : 1 ≤ dmemSize)
    (hcap : 1 ≤ maxCycles) (hlen : Config.nMax < prog.length) :
    loadWords prog dmemSize maxCycles = .fault (.programTooLarge prog.length) := by
  rw [loadWords, if_neg (by omega), if_pos hlen]

theorem loadWords_of_decodes {prog : List (BitVec 64)} {is : List Instr} {dmemSize maxCycles : Nat}
    (hsize : 1 ≤ dmemSize) (hcap : 1 ≤ maxCycles) (hlen : prog.length ≤ Config.nMax) (h : decodeWords 0 prog = .ok is) :
    loadWords prog dmemSize maxCycles = .next (State.resetWith is dmemSize maxCycles) := by
  rw [loadWords, if_neg (by omega), if_neg (by omega), h]

theorem loadWords_of_error {prog : List (BitVec 64)} {index dmemSize maxCycles : Nat} (hsize : 1 ≤ dmemSize)
    (hcap : 1 ≤ maxCycles) (hlen : prog.length ≤ Config.nMax) (h : decodeWords 0 prog = .error index) :
    loadWords prog dmemSize maxCycles = .fault (.unknownOpcode index) := by
  rw [loadWords, if_neg (by omega), if_neg (by omega), h]

/-- Words that all decode give their instructions in order. -/
theorem decodeWords_eq_ok {ws : List (BitVec 64)} {is : List Instr} (h : ws.map decode64 = is.map .ok) (index : Nat) :
    decodeWords index ws = .ok is := by
  induction ws generalizing is index with
  | nil => rw [List.map_eq_nil_iff.mp h.symm]; rfl
  | cons w ws ih =>
    obtain ⟨i, is, rfl, hw, hws⟩ := List.map_eq_cons_iff.mp h.symm
    rw [decodeWords_cons_ok hw.symm, ih hws.symm]
    rfl

/-- Behind words that decode the first that does not is reported by its index. -/
theorem decodeWords_eq_error {before after : List (BitVec 64)} {w : BitVec 64} {e : DecodeError}
    (hbefore : ∀ v ∈ before, ∃ i, decode64 v = .ok i) (hw : decode64 w = .error e) (index : Nat) :
    decodeWords index (before ++ w :: after) = .error (index + before.length) := by
  induction before generalizing index with
  | nil => exact decodeWords_cons_error hw index after
  | cons v vs ih =>
    obtain ⟨⟨i, hi⟩, hvs⟩ := List.forall_mem_cons.mp hbefore
    rw [List.cons_append, decodeWords_cons_ok hi, ih hvs, List.length_cons, Nat.add_right_comm]
    rfl

/-- Settles O56, by what decoding the words in order gives. -/
theorem loadWordsDecodesEach : Obligations.LoadWordsDecodesEach := by
  intro dmemSize maxCycles hsize hcap
  refine ⟨fun prog => loadWords_of_tooLong hsize hcap, fun prog is hlen hmap => ?_, fun before after w hlen hbefore hw => ?_⟩
  · exact loadWords_of_decodes hsize hcap hlen (decodeWords_eq_ok hmap 0)
  · rw [← Nat.zero_add before.length]
    exact loadWords_of_error hsize hcap hlen (decodeWords_eq_error hbefore hw 0)

end Sys2Proof.Machine
end

section
/-! PROOFS. The family 60_exceptions.md, the run-time faults: where a step can stop, and what a data fault leaves (R240 to
R243). -/

namespace Sys2Proof.Machine

/-- A step faults by a check of the driver or in its cycle. -/
theorem step_eq_fault {s : State} {f : Fault} (h : step s = .fault f) :
    driverCheck s = .fault f ∨ cycle s = .fault f := by
  cases hc : driverCheck s with
  | ended e => cases (step_of_ended hc).symm.trans h
  | fault g => cases (step_of_fault hc).symm.trans h; exact .inl rfl
  | goOn => exact .inr ((step_of_goOn hc).symm.trans h)

theorem step_ne_refused {s : State} {x : Refusal} : step s ≠ .refused x := by
  intro h
  cases hc : driverCheck s with
  | ended e => cases (step_of_ended hc).symm.trans h
  | fault f => cases (step_of_fault hc).symm.trans h
  | goOn => exact (cycle_stops s).1 x ((step_of_goOn hc).symm.trans h)

/-- A cycle faults by a release of a counter that is 0, in Writeback or Memory2, or by a load or store in Memory2 outside the
data store, after its Writeback. -/
inductive CycleFault (s : State) : Fault → Prop where
  | underflow (r : Reg) (left : State) : CycleFault s (.scoreboardUnderflow r left)
  | data (s1 : State) (m : Latch) (hw : transition .writeback { s with clock := s.clock + 1 } = .next s1)
      (hm : s1.latches.m2 = some m) (hout : inDataStore s1 m.memAddr = false) (hi : isLoadOp m.ins ∨ isStoreOp m.ins) :
      CycleFault s (.dmemOutOfRange m.memAddr { s1 with stage := .memory2 })

theorem cycle_eq_fault {s : State} {f : Fault} (h : cycle s = .fault f) : CycleFault s f := by
  rcases (cycle_stops s).2 f h with h | ⟨s1, hw, h⟩
  · obtain ⟨r, left, rfl, -⟩ := (transition_writeback_stops _).2 f h
    exact .underflow r left
  · rcases (transition_memory2_stops s1).2 f h with ⟨m, hm, rfl, hout, hi⟩ | ⟨r, left, rfl, -⟩
    · exact .data s1 m hw hm hout hi
    · exact .underflow r left

/-- Settles O34: the driver's two faults, and those of a cycle. -/
theorem stepStopsOnlyWithRunTimeFaults : Obligations.StepStopsOnlyWithRunTimeFaults := by
  refine fun s => ⟨fun x => step_ne_refused, fun f h => ?_⟩
  rcases step_eq_fault h with h | h
  · rcases driverCheck_eq_fault h with hf | ⟨hf, hclock⟩
    · exact .inr (.inr (.inl hf))
    · exact .inr (.inr (.inr (hclock ▸ hf)))
  · cases cycle_eq_fault h with
    | underflow r left => exact .inr (.inl ⟨r, left, rfl⟩)
    | data => exact .inl ⟨_, _, rfl⟩

/-- Settles O51: Writeback, which has run, leaves M2, the data store, its size, the zero flag and `pc`. -/
theorem dataFaultState : Obligations.DataFaultState := by
  intro s left a h
  rcases step_eq_fault h with h | h
  · rcases driverCheck_eq_fault h with hf | ⟨hf, -⟩ <;> cases hf
  · cases cycle_eq_fault h with
    | data s1 m hw hm hout hi =>
      obtain ⟨regs, sb, rfl, -⟩ := transition_writeback_next hw
      refine ⟨hw, rfl, rfl, rfl, rfl, rfl, ⟨m, hm, rfl, ?_⟩, fun ha => ?_⟩
      · simpa only [isLoadOp, isStoreOp, or_assoc] using hi
      · exact Bool.false_ne_true (hout.symm.trans (inDataStore_iff.mpr ha))

end Sys2Proof.Machine
end

section
/-! PROOFS. The family 70_reset_and_hazards.md, the data hazard: what an instruction that leaves Decode has read (R272). -/

namespace Sys2Proof.Machine

open Sys2Proof.Safety

/-- An instruction stands in Execute1 after a Decode, with no multiply pending, only where that Decode has advanced it: its
sources were ready, and the slots below Execute1 are as they were. -/
theorem advanced_of_flowAt_decode {s t : State} {l : Latch} (hs : FlowAt .decode s) (h : transition .decode s = .next t)
    (hl : t.latches.e1 = some l) (hmp : t.bits.mulPending = false) :
    ∃ d, l = readSources s d.ins d ∧ sourcesReady s d.ins = true ∧ (issuedSlots t).tail = (issuedSlots s).tail := by
  obtain ⟨hbusy, -⟩ := hs.freeze
  have hbubble (hfree : s.bits.dBusy = false) : s.latches.e1 = none := hs.ready.resolve_right (by simp [hfree])
  obtain ⟨u, hu, hc⟩ := transition_decode_cases s
  cases hu.symm.trans h
  rcases hc with ⟨hfrozen, rfl⟩ | ⟨hfree, -, rfl⟩ | ⟨d, hfree, -, rfl, -⟩ | ⟨d, -, -, hready, -, sb, rfl, -⟩
  · exact absurd (hmp.symm.trans (hbusy.symm.trans hfrozen)) Bool.false_ne_true
  · cases hl.symm.trans (hbubble hfree)
  · cases hl.symm.trans (hbubble hfree)
  · exact ⟨d, (Option.some.inj hl).symm, hready, rfl⟩

/-- With every writer counted, no slot below Decode writes a register that is ready (R107, R120). -/
theorem writesReg_of_ready {s : State} (hs : scoreboardExact s) {r : Reg} (hr : pending s r = 0) {x : Slot}
    (hx : x ∈ issuedSlots s) : writesReg r x = false := by
  have hcount : (issuedSlots s).countP (writesReg r) = 0 := (hs r).symm.trans hr
  exact Bool.eq_false_iff.mpr (List.countP_eq_zero.mp hcount x hx)

theorem sourceValue_of_eq_some {s : State} {src : Option Reg} {r : Reg} (h : src = some r) (old : Word) :
    sourceValue s src old = reg s r := by
  rw [h, sourceValue]

/-- Settles O49: the sources were ready in Decode, where every counter counts the writers in flight, and neither Decode nor
Fetch writes a register. -/
theorem decodeReadsCommittedValues : Obligations.DecodeReadsCommittedValues := by
  intro s t l hinv h hl hmp
  obtain ⟨u, h1, h2⟩ := andThen_eq_next.mp ((cycle_eq_halves s).symm.trans h)
  simp only [runStages, andThen_eq_next, Host.Outcome.next.injEq, exists_eq_right] at h2
  obtain ⟨v, h5, w, h6, h7⟩ := h2
  have hv : FlowAt .decode v := (((Flow.of_inv hinv).atWriteback _).memoryHalf h1).transition h5
  obtain ⟨hslots, hbits, -⟩ := transition_fetch_slots h7
  have hregs : t.regs = v.regs :=
    ((transition_frame h7).regs (by decide)).trans ((transition_frame h6).regs (by decide))
  have hreg (r : Reg) : reg v r = reg t r := congrArg (·.get r) hregs.symm
  obtain ⟨d, rfl, hready, htail⟩ :=
    advanced_of_flowAt_decode hv h6 ((List.cons.inj hslots).1.symm.trans hl) ((congrArg _ hbits).symm.trans hmp)
  refine ⟨fun r hr x hx => ?_, fun r hr => ?_, fun r hr => ?_, fun r hr => ?_⟩
  · have hx : x ∈ (issuedSlots t).tail := hx
    rw [hslots, htail] at hx
    exact writesReg_of_ready hv.scoreboard (sourcesReady_iff.mp hready r hr) (List.mem_of_mem_tail hx)
  all_goals exact (sourceValue_of_eq_some hr _).trans (hreg r)

end Sys2Proof.Machine
end

section
/-! PROOFS. The family 70_reset_and_hazards.md, the passages: one instruction alone in the pipeline, from its Fetch to its
commit (R280). First the cycle of a record alone in the pipeline, then the way from Fetch to the commit for every instruction,
then the instructions by their own actions in Execute1 and Memory2. -/

namespace Sys2Proof.Machine

open Sys2Proof.Safety

theorem core_run_succ {s t : State} (h : step s = .next t) (n : Nat) : core.run (n + 1) s = core.run n t := by
  have hstep : core.step s = .next t := h
  simp only [Host.Core.run, hstep]

/-! ### The cycle of a record alone in the pipeline -/

/-- The machine `s` at the clock `n` with `f` in F, `x` in the slot of `st` and bubbles in all others, after the transition
`ran`. -/
def alone (s : State) (n : Nat) (f : Slot) (st : Stage) (x : Slot) (ran : Stage) : State :=
  { s with clock := n, latches := putLatch { Latches.empty with f := f } st x, stage := ran }

/-- The slot a record moves to from the slot of the stage; one that commits leaves a bubble where it was. -/
def movesTo : Stage → Stage
  | .fetch => .decode
  | .decode => .execute1
  | .execute1 => .execute2
  | .execute2 => .memory1
  | .memory1 => .memory2
  | .memory2 => .writeback
  | .writeback => .writeback

/-- At any clock, the stage `st` takes the machine from `s`, with the record `l` alone in its slot, to `t`, with `y` alone in
the slot below. -/
def StageTakes (st : Stage) (l : Latch) (s : State) (y : Slot) (t : State) : Prop :=
  ∀ (n : Nat) (f : Slot), exec l.ins (alone s n f st (some l) st) = .next (alone t n f (movesTo st) y st)

/-- The cycle of a record alone in the pipeline is the transition of its stage, and a Fetch that finds no instruction: the other
stages see bubbles. -/
theorem StageTakes.cycle {st : Stage} {l : Latch} {s t : State} {y : Slot} (h : StageTakes st l s y t) (hst : st ≠ .fetch)
    (hbits : t.bits = StageBits.clear) (hend : fetchable t t.pc = false) (n : Nat) (f : Slot) :
    cycle (alone s n f st (some l) .fetch) = .next (alone t (n + 1) none (movesTo st) y .fetch) := by
  let before := alone s (n + 1) f st (some l)
  let after := alone t (n + 1) f (movesTo st) y
  have hrun (ran : Stage) : transition st (before ran) = .next (after st) := by
    refine (transition_some hst ?_).trans (h (n + 1) f)
    cases st <;> rfl
  have hempty (ran : Stage) : (after ran).latches.d = none := by
    cases st with
    | fetch => contradiction
    | _ => rfl
  have hdecode (ran : Stage) : transition .decode (after ran) = .next (after .decode) := by
    rw [transition_none (st := .decode) (by decide) (hempty ran)]
    simp [bubble, decodeBubble, setStalls, setBits, after, alone, hbits, StageBits.clear]
  have hfetch : transition .fetch (after .decode) = .next (alone t (n + 1) none (movesTo st) y .fetch) := by
    refine (transition_fetch_of_bubble (hempty .decode) hend).trans ?_
    cases st <;> rfl
  cases st with
  | fetch => contradiction
  | decode =>
    exact cycle_eq_next.mpr ⟨before .writeback, before .memory2, before .memory1, before .execute2, before .execute1,
      after .decode, rfl, rfl, rfl, rfl, rfl, hrun _, hfetch⟩
  | execute1 =>
    exact cycle_eq_next.mpr ⟨before .writeback, before .memory2, before .memory1, before .execute2, after .execute1,
      after .decode, rfl, rfl, rfl, rfl, hrun _, hdecode _, hfetch⟩
  | execute2 =>
    exact cycle_eq_next.mpr ⟨before .writeback, before .memory2, before .memory1, after .execute2, after .execute1,
      after .decode, rfl, rfl, rfl, hrun _, rfl, hdecode _, hfetch⟩
  | memory1 =>
    exact cycle_eq_next.mpr ⟨before .writeback, before .memory2, after .memory1, after .execute2, after .execute1,
      after .decode, rfl, rfl, hrun _, rfl, rfl, hdecode _, hfetch⟩
  | memory2 =>
    exact cycle_eq_next.mpr ⟨before .writeback, after .memory2, after .memory1, after .execute2, after .execute1,
      after .decode, rfl, hrun _, rfl, rfl, rfl, hdecode _, hfetch⟩
  | writeback =>
    exact cycle_eq_next.mpr ⟨after .writeback, after .memory2, after .memory1, after .execute2, after .execute1,
      after .decode, hrun _, rfl, rfl, rfl, rfl, hdecode _, hfetch⟩

/-- Below the cap the driver goes on with a record in the pipeline. -/
theorem step_alone {st : Stage} (hst : st ≠ .fetch) {s : State} (hstop : s.stopped = false) {n : Nat} (hn : n < s.maxCycles)
    (f : Slot) (l : Latch) : step (alone s n f st (some l) .fetch) = cycle (alone s n f st (some l) .fetch) := by
  have hdrained : drained (alone s n f st (some l) .fetch) = false := by
    cases st with
    | fetch => contradiction
    | _ => rfl
  have hworking := driverCheck_of_working (s := alone s n f st (some l) .fetch) hstop (.inl hdrained)
  exact step_of_goOn (hworking.trans (if_neg hn.ne))

theorem StageTakes.step {st : Stage} {l : Latch} {s t : State} {y : Slot} (h : StageTakes st l s y t) (hst : st ≠ .fetch)
    (hstop : s.stopped = false) (hbits : t.bits = StageBits.clear) (hend : fetchable t t.pc = false) {n : Nat}
    (hn : n < s.maxCycles) (f : Slot) :
    step (alone s n f st (some l) .fetch) = .next (alone t (n + 1) none (movesTo st) y .fetch) :=
  (step_alone hst hstop hn f l).trans (h.cycle hst hbits hend n f)

/-! ### The stages that treat all instructions alike (R109, R111, R112, R115) -/

/-- The record of `i` as it leaves Decode, where Fetch has read `i` in `s`. -/
def issuedLatch (i : Instr) (s : State) : Latch := readSources s i (fetchedLatch i s.pc)

/-- The machine `s` once `i` has left Decode: `pc` has moved on, and `i` has made its claim, HALT its flag. -/
def issued (i : Instr) (s : State) : State :=
  { s with
    pc := nextPc s.pc, sb := (dest i).elim s.sb fun r => s.sb.set r.val (pending s r + 1) r.isLt
    haltPending := if i = .halt then true else s.haltPending }

/-- The machine `s` once Writeback has committed the record `w`. -/
def committed (w : Latch) (s : State) : State :=
  { s with
    regs := (dest w.ins).elim s.regs fun r => s.regs.set r.val w.buffer r.isLt
    sb := (dest w.ins).elim s.sb fun r => s.sb.set r.val (pending s r - 1) r.isLt
    completed := if w.ins = .halt then s.imem.length else s.completed + 1
    stopped := if w.ins = .halt then true else s.stopped }

theorem StageTakes.decode (i : Instr) {s : State} (h : idle s) :
    StageTakes .decode (fetchedLatch i s.pc) { s with pc := nextPc s.pc } (some (issuedLatch i s)) (issued i s) := by
  intro n f
  obtain ⟨-, -, -, -, -, -, hbits, hpend, -⟩ := h
  have hadvances := decodeAdvances i (alone { s with pc := nextPc s.pc } n f .decode (some (fetchedLatch i s.pc)) .decode)
    (fetchedLatch i s.pc) rfl rfl (congrArg StageBits.dBusy hbits) (fun r _ => hpend r)
    (by simp [alone, putLatch, Latches.empty])
  refine hadvances.trans ?_
  simp only [issued, issuedLatch, readSources, sourceValue_eq_elim, alone, hbits]
  rfl

theorem StageTakes.execute2 (l : Latch) (s : State) : StageTakes .execute2 l s (some l) s :=
  fun _ _ => exec_execute2 rfl l.ins

theorem StageTakes.memory1 (l : Latch) (s : State) : StageTakes .memory1 l s (some l) s :=
  fun _ _ => exec_memory1 rfl l.ins

theorem StageTakes.writeback {w : Latch} {s : State} (h : ∀ r, dest w.ins = some r → pending s r ≠ 0) :
    StageTakes .writeback w s none (committed w s) := by
  intro n f
  obtain ⟨-, hcommit⟩ := writebackCommits (alone s n f .writeback (some w) .writeback) rfl
  obtain ⟨hdest, hother, hhalt, -⟩ := hcommit w.ins w rfl
  cases hd : dest w.ins with
  | some r =>
    refine (hdest r hd (h r hd)).trans ?_
    simp only [committed, hd, ne_halt_of_dest hd, if_false]
    rfl
  | none =>
    by_cases hi : w.ins = .halt
    · refine (hhalt hi).trans ?_
      simp only [committed, hi, if_true]
      rfl
    · refine (hother hd hi).trans ?_
      simp only [committed, hd, hi, if_false]
      rfl

/-! ### From Fetch to Execute1 -/

theorem instrAtPc_of_last {i : Instr} {s : State} (h : lastAtPc i s) : instrAtPc s = some i := by
  obtain ⟨before, himem, -, hpc⟩ := h
  exact instrAtPc_eq_some.mpr ⟨before.length, hpc, by simp [himem]⟩

/-- Behind the last instruction there is none to fetch. -/
theorem fetchable_nextPc_of_last {i : Instr} {s : State} (h : lastAtPc i s) : fetchable s (nextPc s.pc) = false := by
  obtain ⟨before, himem, hmax, hpc⟩ := h
  have hlen : s.imem.length = before.length + 1 := by simp [himem]
  have haddr : s.pc = BitVec.ofNat 32 (Config.imemBase + Config.instrWidth * before.length) :=
    BitVec.eq_of_toInt_eq (hpc.trans (toInt_instrAddress (by omega)).symm)
  have hnext : nextPc s.pc = BitVec.ofNat 32 (Config.imemBase + Config.instrWidth * (before.length + 1)) := by
    rw [haddr, nextPc, ← BitVec.ofNat_add]
    rfl
  refine Bool.eq_false_iff.mpr fun hfetch => ?_
  obtain ⟨k, hk⟩ := Option.isSome_iff_exists.mp hfetch
  obtain ⟨hkaddr, hlt⟩ := fetchIndex_eq_some.mp hk
  rw [hnext, toInt_instrAddress (by omega)] at hkaddr
  omega

theorem latches_of_idle {s : State} (h : idle s) : s.latches = { Latches.empty with f := s.latches.f } := by
  obtain ⟨hd, he1, he2, hm1, hm2, hw, -⟩ := h
  cases hl : s.latches
  simp_all [Latches.empty]

/-- An idle machine fetches the instruction at `pc` and hands it to Decode. -/
theorem step_of_idle {i : Instr} {s : State} (h : idle s) (hi : instrAtPc s = some i) (hcap : s.clock < s.maxCycles) :
    step s = .next (alone { s with pc := nextPc s.pc } (s.clock + 1) (some (fetchedLatch i s.pc)) .decode
      (some (fetchedLatch i s.pc)) .fetch) := by
  obtain ⟨-, -, -, -, -, -, hbits, -, hhalt, hstop⟩ := id h
  have hfetch := transition_fetch_free (s := { s with clock := s.clock + 1, stage := .decode }) hbits hhalt hi
  rw [step_of_goOn (driverCheck_of_fetchable hstop (fetchable_of_instrAtPc hi) hcap.ne), cycle_of_idle h, hfetch,
    latches_of_idle h]
  rfl

/-- The first two cycles of a passage: the last instruction of the store is fetched and leaves Decode. -/
theorem run_issue {i : Instr} {s : State} (h : idle s) (hlast : lastAtPc i s) (hcap : s.clock + 2 ≤ s.maxCycles) (n : Nat) :
    core.run (n + 2) s = core.run n (alone (issued i s) (s.clock + 2) none .execute1 (some (issuedLatch i s)) .fetch) := by
  obtain ⟨-, -, -, -, -, -, hbits, -, -, hstop⟩ := id h
  have hfetched := step_of_idle h (instrAtPc_of_last hlast) (by omega)
  have hdecoded := (StageTakes.decode i h).step (by decide) hstop hbits (fetchable_nextPc_of_last hlast)
    (show s.clock + 1 < s.maxCycles by omega) (some (fetchedLatch i s.pc))
  exact (core_run_succ hfetched (n + 1)).trans (core_run_succ hdecoded n)

/-! ### From Execute1 to the commit -/

/-- The claim of an instruction is counted once it has left Decode. -/
theorem pending_issued {i : Instr} {r : Reg} (h : dest i = some r) (s : State) :
    pending (issued i s) r = pending s r + 1 := by
  simp [issued, h, pending, Vector.get_eq_getElem]

/-- The claim of an instruction is released when it commits. -/
theorem sb_committed_issued (w : Latch) (s : State) (z : Bool) (dm : Memory) :
    (committed w { issued w.ins s with z := z, dm := dm }).sb = s.sb := by
  cases hd : dest w.ins with
  | none => simp [committed, issued, hd]
  | some r => simp [committed, issued, hd, pending, Vector.get_eq_getElem]

/-- What a passage has changed once the instruction has committed. -/
theorem alone_committed_issued {s : State} (h : idle s) (w : Latch) (z : Bool) (dm : Memory) (n : Nat) :
    alone (committed w { issued w.ins s with z := z, dm := dm }) n none .writeback none .fetch = { s with
      regs := (dest w.ins).elim s.regs fun r => s.regs.set r.val w.buffer r.isLt
      z := z, dm := dm, haltPending := if w.ins = .halt then true else s.haltPending
      completed := if w.ins = .halt then s.imem.length else s.completed + 1
      stopped := if w.ins = .halt then true else s.stopped
      pc := s.pc + 4, clock := n, latches := { s.latches with f := none }, stage := .fetch } := by
  rw [alone, sb_committed_issued, latches_of_idle h]
  rfl

/-- The last five cycles of a passage, by the instruction's own actions in Execute1 and Memory2: they take its record to `l` and
`m`, the zero flag to `z` and the data store to `dm`. A multiply comes to Execute1 with its freeze in the bits `b`. -/
theorem run_from_execute1 {i : Instr} {s : State} {l m : Latch} {b : StageBits} {z : Bool} {dm : Memory} {n : Nat} (h : idle s)
    (hlast : lastAtPc i s) (hcap : n + 5 ≤ s.maxCycles)
    (hexecute1 : StageTakes .execute1 (issuedLatch i s) { issued i s with bits := b } (some l) { issued i s with z := z })
    (hmemory2 : StageTakes .memory2 l { issued i s with z := z } (some m) { issued i s with z := z, dm := dm })
    (hm : m.ins = i) :
    core.run 5 (alone { issued i s with bits := b } n none .execute1 (some (issuedLatch i s)) .fetch) = .next { s with
      regs := (dest i).elim s.regs fun r => s.regs.set r.val m.buffer r.isLt
      z := z, dm := dm, haltPending := if i = .halt then true else s.haltPending
      completed := if i = .halt then s.imem.length else s.completed + 1
      stopped := if i = .halt then true else s.stopped
      pc := s.pc + 4, clock := n + 5, latches := { s.latches with f := none }, stage := .fetch } := by
  subst hm
  obtain ⟨-, -, -, -, -, -, hbits, -, -, hstop⟩ := id h
  have hend := fetchable_nextPc_of_last hlast
  have hclaimed (r : Reg) (hr : dest m.ins = some r) : pending { issued m.ins s with z := z, dm := dm } r ≠ 0 :=
    (pending_issued hr s).trans_ne (Nat.succ_ne_zero _)
  have h1 := hexecute1.step (by decide) hstop hbits hend (show n < s.maxCycles by omega) none
  have h2 := (StageTakes.execute2 l { issued m.ins s with z := z }).step (by decide) hstop hbits hend
    (show n + 1 < s.maxCycles by omega) none
  have h3 := (StageTakes.memory1 l { issued m.ins s with z := z }).step (by decide) hstop hbits hend
    (show n + 2 < s.maxCycles by omega) none
  have h4 := hmemory2.step (by decide) hstop hbits hend (show n + 3 < s.maxCycles by omega) none
  have h5 := (StageTakes.writeback hclaimed).step (by decide) hstop hbits hend (show n + 4 < s.maxCycles by omega) none
  rw [← alone_committed_issued h]
  exact (core_run_succ h1 4).trans <| (core_run_succ h2 3).trans <| (core_run_succ h3 2).trans <|
    (core_run_succ h4 1).trans (core_run_succ h5 0)

/-- The passage of the last instruction in seven cycles. -/
theorem run_passage {i : Instr} {s : State} {l m : Latch} {z : Bool} {dm : Memory} (h : idle s) (hlast : lastAtPc i s)
    (hcap : s.clock + 7 ≤ s.maxCycles)
    (hexecute1 : StageTakes .execute1 (issuedLatch i s) (issued i s) (some l) { issued i s with z := z })
    (hmemory2 : StageTakes .memory2 l { issued i s with z := z } (some m) { issued i s with z := z, dm := dm })
    (hm : m.ins = i) :
    core.run 7 s = .next { s with
      regs := (dest i).elim s.regs fun r => s.regs.set r.val m.buffer r.isLt
      z := z, dm := dm, haltPending := if i = .halt then true else s.haltPending
      completed := if i = .halt then s.imem.length else s.completed + 1
      stopped := if i = .halt then true else s.stopped
      pc := s.pc + 4, clock := s.clock + 7, latches := { s.latches with f := none }, stage := .fetch } :=
  (run_issue h hlast (by omega) 5).trans
    (run_from_execute1 (b := s.bits) (n := s.clock + 2) h hlast (by omega) hexecute1 hmemory2 hm)

/-! ### An instruction's own actions -/

/-- `i` acts in Execute1 and in Memory2 by the two given actions. -/
def ActsBy (i : Instr) (atExecute1 atMemory2 : State → Result) : Prop := ∀ s, exec i s = stages i atExecute1 atMemory2 s

section OwnActions

variable {l : Latch} {s t : State} {y : Slot} {atExecute1 atMemory2 : State → Result}

theorem ActsBy.execute1 (h : ActsBy l.ins atExecute1 atMemory2)
    (hact : ∀ n f, atExecute1 (alone s n f .execute1 (some l) .execute1) = .next (alone t n f .execute2 y .execute1)) :
    StageTakes .execute1 l s y t :=
  fun n f => (h _).trans (hact n f)

theorem ActsBy.memory2 (h : ActsBy l.ins atExecute1 atMemory2)
    (hact : ∀ n f, atMemory2 (alone s n f .memory2 (some l) .memory2) = .next (alone t n f .writeback y .memory2)) :
    StageTakes .memory2 l s y t :=
  fun n f => (h _).trans (hact n f)

theorem ActsBy.passM2 (h : ActsBy l.ins atExecute1 passM2) (s : State) : StageTakes .memory2 l s (some l) s :=
  h.memory2 fun _ _ => passM2_eq rfl

theorem ActsBy.addressE1 {addr : Latch → Word} (h : ActsBy l.ins (addressE1 addr) atMemory2) (s : State) :
    StageTakes .execute1 l s (some { l with memAddr := addr l }) s :=
  h.execute1 fun _ _ => execute1_eq rfl _

theorem ActsBy.readM2 (h : ActsBy l.ins atExecute1 readM2) (hin : inDataStore s l.memAddr = true) :
    StageTakes .memory2 l s (some { l with buffer := readCell s.dm l.memAddr.toNat }) s :=
  h.memory2 fun _ _ => (readM2_eq rfl).trans (if_pos hin)

theorem ActsBy.writeM2 (h : ActsBy l.ins atExecute1 writeM2) (hin : inDataStore s l.memAddr = true) :
    StageTakes .memory2 l s (some l) { s with dm := writeCell s.dm l.memAddr.toNat l.rs1Val } :=
  h.memory2 fun _ _ => (writeM2_eq rfl).trans (if_pos hin)

end OwnActions

/-! ### Arithmetic (R180 to R189) -/

/-- The arithmetic action on a record alone in the pipeline. -/
theorem arithE1_alone (s : State) (n : Nat) (f : Slot) (l : Latch) (result : Latch → Word) :
    arithE1 result (alone s n f .execute1 (some l) .execute1) =
      .next (alone { s with z := decide (result l = 0) } n f .execute2 (some { l with buffer := result l }) .execute1) := by
  rw [arithE1_eq (e := l) rfl, ← zeroFlag_eq_decide_toInt]
  rfl

theorem run_arithE1 {i : Instr} {rd : Reg} {s : State} {result : Latch → Word} {v : Word} (h : idle s) (hlast : lastAtPc i s)
    (hcap : s.clock + 7 ≤ s.maxCycles) (hi : ActsBy i (arithE1 result) passM2) (hdest : dest i = some rd)
    (hv : result (issuedLatch i s) = v) :
    core.run 7 s = .next { s with
      regs := s.regs.set rd.val v rd.isLt, z := decide (v = 0), pc := s.pc + 4, clock := s.clock + 7
      completed := s.completed + 1, latches := { s.latches with f := none }, stage := .fetch } := by
  subst hv
  have hexecute1 : StageTakes .execute1 (issuedLatch i s) (issued i s)
      (some { issuedLatch i s with buffer := result (issuedLatch i s) })
      { issued i s with z := decide (result (issuedLatch i s) = 0) } :=
    ActsBy.execute1 hi fun n f => arithE1_alone (issued i s) n f (issuedLatch i s) result
  have hrun := run_passage h hlast hcap hexecute1 (ActsBy.passM2 hi _) rfl
  simp only [hdest, if_neg (ne_halt_of_dest hdest)] at hrun
  exact hrun

/-- Settles O52: all but MOVC are arithmetic actions, each with its own result; MOVC acts on its own record alone. -/
theorem arithmeticPassage : Obligations.ArithmeticPassage := by
  intro s i rd v z h hlast hcap hi
  obtain ⟨-, -, -, -, -, -, -, hpend, -⟩ := id h
  refine ⟨s.sb, hpend, ?_⟩
  rcases hi with ⟨rfl, ⟨rs1, rs2, hi⟩ | ⟨rs1, imm, hi⟩⟩ | ⟨rfl, rfl⟩
  · rcases hi with ⟨rfl, rfl⟩ | ⟨rfl, rfl⟩ | ⟨rfl, rfl⟩ | ⟨rfl, rfl⟩ | ⟨rfl, rfl⟩ <;>
      exact run_arithE1 h hlast hcap (fun _ => rfl) rfl rfl
  · rcases hi with ⟨rfl, rfl⟩ | ⟨rfl, rfl⟩ <;> exact run_arithE1 h hlast hcap (fun _ => rfl) rfl rfl
  · have hmovc : ActsBy (.movc rd v) (execute1 fun e => { e with buffer := v }) passM2 := fun _ => rfl
    let l := { issuedLatch (.movc rd v) s with buffer := v }
    have hexecute1 : StageTakes .execute1 (issuedLatch (.movc rd v) s) (issued (.movc rd v) s) (some l)
        (issued (.movc rd v) s) :=
      ActsBy.execute1 hmovc fun _ _ => execute1_eq rfl _
    exact run_passage h hlast hcap hexecute1 (ActsBy.passM2 hmovc _) rfl

/-! ### The multiply (R183) -/

/-- In its first cycle a multiply alone in the pipeline sets the freeze and stays in Execute1. -/
theorem step_of_multiply {l : Latch} {s : State} {result : Latch → Word} (hi : ActsBy l.ins (multiplyE1 result) passM2)
    (hstop : s.stopped = false) (hfirst : s.bits.mulPending = false) (hend : fetchable s s.pc = false) {n : Nat}
    (hn : n < s.maxCycles) :
    step (alone s n none .execute1 (some l) .fetch) =
      .next (alone { s with bits := freeze true } (n + 1) none .execute1 (some l) .fetch) := by
  let before := alone s (n + 1) none .execute1 (some l)
  let after := alone { s with bits := freeze true } (n + 1) none .execute1 (some l)
  have hfreeze : transition .execute1 (before .execute2) = .next (after .execute1) :=
    (transition_some (by decide) rfl).trans
      ((hi _).trans (multiplyE1_of_first (s := before .execute1) rfl hfirst result))
  have hfetch : transition .fetch (after .decode) = .next (after .fetch) :=
    transition_fetch_of_bubble (s := after .decode) rfl hend
  rw [step_alone (by decide) hstop hn]
  exact cycle_eq_next.mpr ⟨before .writeback, before .memory2, before .memory1, before .execute2, after .execute1,
    after .decode, rfl, rfl, rfl, rfl, hfreeze, rfl, hfetch⟩

/-- Settles O53: one cycle more in Execute1, whose freeze the second lifts. -/
theorem multiplyPassage : Obligations.MultiplyPassage := by
  intro s rd rs1 rs2 h hlast hcap
  obtain ⟨-, -, -, -, -, -, hbits, hpend, -, hstop⟩ := id h
  let i : Instr := .mul rd rs1 rs2
  let product (e : Latch) : Word := aluMul e.rs1Val e.rs2Val
  have hi : ActsBy i (multiplyE1 product) passM2 := fun _ => rfl
  have hfirst := step_of_multiply (l := issuedLatch i s) (s := issued i s) hi hstop (congrArg _ hbits)
    (fetchable_nextPc_of_last hlast) (show s.clock + 2 < s.maxCycles by omega)
  have hlifted : { issued i s with bits := freeze false } = issued i s := by
    simp only [issued, hbits]
    rfl
  have hsecond : StageTakes .execute1 (issuedLatch i s) { issued i s with bits := freeze true }
      (some { issuedLatch i s with buffer := product (issuedLatch i s) })
      { issued i s with z := decide (product (issuedLatch i s) = 0) } :=
    ActsBy.execute1 hi fun n f => by
      rw [multiplyE1_of_second (e := issuedLatch i s) rfl rfl, ← hlifted]
      exact arithE1_alone { issued i s with bits := freeze false } n f _ product
  exact ⟨s.sb, hpend, (run_issue h hlast (by omega) 6).trans <| (core_run_succ hfirst 5).trans
    (run_from_execute1 h hlast hcap hsecond (ActsBy.passM2 hi _) rfl)⟩

/-! ### Loads and stores (R160 to R164) -/

theorem run_load {i : Instr} {rd : Reg} {s : State} {addr : Latch → Word} {a : Word} (h : idle s) (hlast : lastAtPc i s)
    (hcap : s.clock + 7 ≤ s.maxCycles) (hi : ActsBy i (addressE1 addr) readM2) (hdest : dest i = some rd)
    (ha : addr (issuedLatch i s) = a) (hin : inDataStore s a = true) :
    core.run 7 s = .next { s with
      regs := s.regs.set rd.val (readCell s.dm a.toInt.toNat) rd.isLt, pc := s.pc + 4, clock := s.clock + 7
      completed := s.completed + 1, latches := { s.latches with f := none }, stage := .fetch } := by
  subst ha
  let l := { issuedLatch i s with memAddr := addr (issuedLatch i s) }
  have hrun := run_passage h hlast hcap (ActsBy.addressE1 hi (issued i s))
    (ActsBy.readM2 (l := l) (s := issued i s) hi hin) rfl
  simp only [hdest, if_neg (ne_halt_of_dest hdest)] at hrun
  rw [toInt_of_inDataStore hin, Int.toNat_natCast]
  exact hrun

theorem run_store {i : Instr} {s : State} {addr : Latch → Word} {a v : Word} (h : idle s) (hlast : lastAtPc i s)
    (hcap : s.clock + 7 ≤ s.maxCycles) (hi : ActsBy i (addressE1 addr) writeM2) (hstore : isStoreOp i)
    (ha : addr (issuedLatch i s) = a) (hv : (issuedLatch i s).rs1Val = v) (hin : inDataStore s a = true) :
    core.run 7 s = .next { s with
      dm := writeCell s.dm a.toNat v, pc := s.pc + 4, clock := s.clock + 7
      completed := s.completed + 1, latches := { s.latches with f := none }, stage := .fetch } := by
  subst ha hv
  let l := { issuedLatch i s with memAddr := addr (issuedLatch i s) }
  have hrun := run_passage h hlast hcap (ActsBy.addressE1 hi (issued i s))
    (ActsBy.writeM2 (l := l) (s := issued i s) hi hin) rfl
  obtain ⟨rs1, rs2, imm, rfl⟩ | ⟨rs1, rs2, rs3, rfl⟩ := hstore
  · exact hrun
  · exact hrun

/-- Settles O54: each of the four is an address action and a read or a write of one cell of the data store. -/
theorem loadStorePassage : Obligations.LoadStorePassage := by
  intro s i a h hlast hcap hwf ha
  obtain ⟨-, -, -, -, -, -, -, hpend, -⟩ := id h
  have hin : inDataStore s a = true := inDataStore_iff.mpr ha
  refine ⟨fun rd rs1 rs2 imm hi => ⟨s.sb, hpend, ?_⟩,
    fun rs1 rs2 rs3 imm hi => ⟨writeCell s.dm a.toNat (reg s rs1), fun b => ?_, ?_⟩⟩
  · rcases hi with ⟨rfl, rfl⟩ | ⟨rfl, rfl⟩ <;> exact run_load h hlast hcap (fun _ => rfl) rfl rfl hin
  · simp only [readCell_writeCell hwf, toInt_of_inDataStore hin, Nat.cast_inj]
  · rcases hi with ⟨rfl, rfl⟩ | ⟨rfl, rfl⟩
    · exact run_store h hlast hcap (fun _ => rfl) (.inl ⟨rs1, rs2, imm, rfl⟩) rfl rfl hin
    · exact run_store h hlast hcap (fun _ => rfl) (.inr ⟨rs1, rs2, rs3, rfl⟩) rfl rfl hin

/-! ### The untaken branches and HALT (R210 to R212, R215) -/

theorem run_untaken {i : Instr} {s : State} {taken : Bool → Bool} {target : Latch → Word} (h : idle s)
    (hlast : lastAtPc i s) (hcap : s.clock + 7 ≤ s.maxCycles) (hi : ActsBy i (branchE1 taken target) branchM2)
    (hbranch : ∃ imm, i = .bz imm ∨ i = .bnz imm) (hnot : taken s.z = false) :
    core.run 7 s = .next { s with
      pc := s.pc + 4, clock := s.clock + 7, completed := s.completed + 1
      latches := { s.latches with f := none }, stage := .fetch } := by
  let l := { issuedLatch i s with target := 0, flushed := true }
  have hexecute1 : StageTakes .execute1 (issuedLatch i s) (issued i s) (some l) (issued i s) :=
    ActsBy.execute1 hi fun n f => by
      have hz : taken (alone (issued i s) n f .execute1 (some (issuedLatch i s)) .execute1).z = false := hnot
      rw [branchE1, execute1_eq rfl, hz]
      rfl
  have hmemory2 : StageTakes .memory2 l (issued i s) (some l) (issued i s) :=
    ActsBy.memory2 hi fun _ _ => branchM2_of_untaken rfl rfl
  have hrun := run_passage h hlast hcap hexecute1 hmemory2 rfl
  obtain ⟨imm, rfl | rfl⟩ := hbranch
  · exact hrun
  · exact hrun

/-- With nothing in flight behind it, a HALT in Memory2 finds nothing to clear. -/
theorem haltM2_alone {s : State} {l : Latch} (n : Nat) (f : Slot) (hpending : s.haltPending = true) :
    haltM2 (alone s n f .memory2 (some l) .memory2) = .next (alone s n f .writeback (some l) .memory2) := by
  have hnone (r : Reg) : squashedClaims (alone s n f .memory2 (some l) .memory2) r = 0 := rfl
  obtain ⟨sb, hhalt, hsb⟩ := haltM2_eq (s := alone s n f .memory2 (some l) .memory2) (m := l) rfl
    fun r => (hnone r).trans_le (Nat.zero_le _)
  obtain rfl : sb = s.sb := Vector.ext fun k hk => hsb ⟨k, hk⟩
  rw [hhalt, alone, ← hpending]
  rfl

theorem run_halt {s : State} (h : idle s) (hlast : lastAtPc .halt s) (hcap : s.clock + 7 ≤ s.maxCycles) :
    core.run 7 s = .next { s with
      haltPending := true, stopped := true, pc := s.pc + 4, clock := s.clock + 7, completed := s.imem.length
      latches := { s.latches with f := none }, stage := .fetch } := by
  let l := issuedLatch .halt s
  have hi : ActsBy l.ins haltE1 haltM2 := fun _ => rfl
  have hexecute1 : StageTakes .execute1 l (issued .halt s) (some l) (issued .halt s) :=
    fun _ _ => exec_halt_execute1 rfl rfl
  have hmemory2 : StageTakes .memory2 l (issued .halt s) (some l) (issued .halt s) :=
    hi.memory2 fun n f => haltM2_alone n f rfl
  exact run_passage h hlast hcap hexecute1 hmemory2 rfl

/-- Settles O55: BZ is not taken where the zero flag is 0, BNZ where it is 1. -/
theorem haltAndUntakenBranchPassage : Obligations.HaltAndUntakenBranchPassage := by
  intro s h hcap
  refine ⟨fun hlast => run_halt h hlast hcap, fun imm i hi hlast => ?_⟩
  rcases hi with ⟨rfl, hz⟩ | ⟨rfl, hz⟩
  · exact run_untaken (taken := takenIfZero) h hlast hcap (fun _ => rfl) ⟨imm, .inl rfl⟩ hz
  · exact run_untaken (taken := takenIfNotZero) h hlast hcap (fun _ => rfl) ⟨imm, .inr rfl⟩ (congrArg not hz)

end Sys2Proof.Machine
end
